-- ==== Sys2Proof/Word.lean ====
section
/-! DEFINITION. The word types of the varint core (00_scope.md R6, R9, R12). -/

namespace Sys2Proof

/-- A byte is 8 bits (R6). -/
abbrev Byte := BitVec 8

/-- A 64-bit pattern, read unsigned or signed as the command says (R6, R12). -/
abbrev Word := BitVec 64

/-- A length or position register: `LENW = 32` bits (R9). -/
abbrev Len := BitVec 32

end Sys2Proof
end

