-- ==== Sys2Proof/Machine/Bits.lean ====
section
/-! DEFINITION. The pseudocode primitives on 64-bit patterns and byte sequences
(00_scope.md R13, R14) and the fields of a varint byte (30_encoding.md R71). -/

namespace Sys2Proof.Machine

/-- `shl64`: bits shifted past bit 63 are lost (R13). -/
def shl64 (a : Word) (n : Nat) : Word := a <<< n

/-- `lsr64`: logical right shift, zeros enter at the top (R13). -/
def lsr64 (a : Word) (n : Nat) : Word := a >>> n

/-- `asr64`: arithmetic right shift, bit 63 is copied (R13). -/
def asr64 (a : Word) (n : Nat) : Word := a.sshiftRight n

/-- `neg64`: two's-complement negation (R13). -/
def neg64 (a : Word) : Word := -a

/-- `zext_64` of a seven-bit payload (R13). -/
def zext64 (p : BitVec 7) : Word := p.setWidth 64

/-- `v[6:0]` (R12). -/
def low7 (v : Word) : BitVec 7 := v.extractLsb' 0 7

/-- Bit 7, `C`, of a varint byte (R71). -/
def contBit (b : Byte) : Bool := b.getLsbD 7

/-- Bits 6:0, `P`, of a varint byte (R71). -/
def payload (b : Byte) : BitVec 7 := b.extractLsb' 0 7

/-- The byte `0x80 | p`: `C = 1` and payload `p` (R71, class `VB.CONT`). -/
def contByte (p : BitVec 7) : Byte := 0x80#8 ||| p.setWidth 8

/-- The byte `p`: `C = 0` and payload `p` (R71, class `VB.LAST`). -/
def lastByte (p : BitVec 7) : Byte := p.setWidth 8

/-- `be64(v)`: the eight bytes of `v`, most significant first (R14). -/
def be64 (v : Word) : List Byte :=
  [v.extractLsb' 56 8, v.extractLsb' 48 8, v.extractLsb' 40 8, v.extractLsb' 32 8,
   v.extractLsb' 24 8, v.extractLsb' 16 8, v.extractLsb' 8 8, v.extractLsb' 0 8]

/-- `from_be64(s)` for eight bytes: the first byte is the most significant (R14). -/
def fromBe64 (s : List Byte) : Word :=
  s.foldl (fun w b => w <<< 8 ||| b.setWidth 64) 0#64

end Sys2Proof.Machine
end

