-- ==== Sys2Proof/Syntax.lean ====
section
/-! DEFINITION. The instructions: one constructor for each row of spec/opcode_table.json. -/

namespace Sys2Proof

/-- The eleven commands (30_encoding.md R77) and the two classes of varint byte (R71).
A command has no operand field: its operands are in `VAL`, `ILEN` and `IBUF`.
A varint byte carries its seven payload bits. -/
inductive Instr where
  /-- `UENC`: encode `VAL`, unsigned, into one group. -/
  | uenc
  /-- `SENC`: encode `VAL`, signed, into one group. -/
  | senc
  /-- `UDEC`: decode the one group in `IBUF` into `VAL`, unsigned. -/
  | udec
  /-- `SDEC`: decode the one group in `IBUF` into `VAL`, signed. -/
  | sdec
  /-- `ZZE`: zigzag-map `VAL`. -/
  | zze
  /-- `ZZD`: inverse-map `VAL`. -/
  | zzd
  /-- `SEG`: scan `IBUF` into groups and write their lengths. -/
  | seg
  /-- `UENCS`: batch-encode the words in `IBUF`, unsigned. -/
  | uencs
  /-- `SENCS`: batch-encode the words in `IBUF`, signed. -/
  | sencs
  /-- `UDECS`: stream-decode `IBUF` into words, unsigned. -/
  | udecs
  /-- `SDECS`: stream-decode `IBUF` into words, signed. -/
  | sdecs
  /-- `VB.CONT`: a continuation byte `1ppppppp` of the data. -/
  | vbCont (p : BitVec 7)
  /-- `VB.LAST`: a final byte `0ppppppp` of the data. -/
  | vbLast (p : BitVec 7)
  deriving DecidableEq, Repr

end Sys2Proof
end

