-- ==== Sys2Proof/Decode.lean ====
section
/-! DEFINITION. From bytes to instructions and back (30_encoding.md R71, R77, R80, R84,
opcode_table.json). A byte is read in one of two formats: as a command byte when the host writes
it to `CMD`, as a varint byte when the core scans it; nothing in the byte tells which. -/

namespace Sys2Proof

/-- The formats of the opcode table's rows (30_encoding.md R70, R84). -/
inductive Format where
  | cmd
  | vb
  deriving DecidableEq, Repr

/-- Why bytes are no instruction. -/
inductive Reject where
  /-- There is no byte. -/
  | noByte
  /-- Field `Z`, bits 7:4 of a command byte, is not zero (R80). -/
  | highBitsSet
  /-- One of the reserved codes `0x7`, `0xC` to `0xF` (R80). -/
  | reservedCode
  deriving DecidableEq, Repr

/-- The operation of a code `OPC` (R77); none for a reserved code (R80). -/
def decodeOpc (opc : BitVec 4) : Option Instr :=
  match opc.toNat with
  | 0x0 => some .uenc
  | 0x1 => some .senc
  | 0x2 => some .udec
  | 0x3 => some .sdec
  | 0x4 => some .zze
  | 0x5 => some .zzd
  | 0x6 => some .seg
  | 0x8 => some .uencs
  | 0x9 => some .sencs
  | 0xA => some .udecs
  | 0xB => some .sdecs
  | _ => none

/-- A command byte: `Z` in bits 7:4 must be zero, `OPC` in bits 3:0 (R77, R80). -/
def decodeCommand (c : Byte) : Except Reject Instr :=
  if c.extractLsb' 4 4 ≠ 0#4 then .error .highBitsSet
  else match decodeOpc (c.extractLsb' 0 4) with
    | some i => .ok i
    | none => .error .reservedCode

/-- A varint byte: every one of the 256 values belongs to exactly one class (R71). -/
def decodeVarintByte (b : Byte) : Instr :=
  if Machine.contBit b then .vbCont (Machine.payload b) else .vbLast (Machine.payload b)

/-- Reads one instruction from the front of a byte sequence in the given format; the rest of the
sequence comes back with it. An instruction is always one byte (R79). -/
def decode (f : Format) : List Byte → Except Reject (Instr × List Byte)
  | [] => .error .noByte
  | b :: rest =>
    match f with
    | .cmd =>
      match decodeCommand b with
      | .ok i => .ok (i, rest)
      | .error e => .error e
    | .vb => .ok (decodeVarintByte b, rest)

/-- The format in which an instruction's byte is read (column `format` of the opcode table). -/
def formatOf : Instr → Format
  | .uenc | .senc | .udec | .sdec | .zze | .zzd | .seg | .uencs | .sencs | .udecs | .sdecs => .cmd
  | .vbCont _ | .vbLast _ => .vb

/-- The one byte of an instruction (R77 for commands, R71 for varint bytes). -/
def encodeByte : Instr → Byte
  | .uenc => 0x00#8
  | .senc => 0x01#8
  | .udec => 0x02#8
  | .sdec => 0x03#8
  | .zze => 0x04#8
  | .zzd => 0x05#8
  | .seg => 0x06#8
  | .uencs => 0x08#8
  | .sencs => 0x09#8
  | .udecs => 0x0A#8
  | .sdecs => 0x0B#8
  | .vbCont p => Machine.contByte p
  | .vbLast p => Machine.lastByte p

/-- The byte sequence of an instruction: one byte (R79). -/
def encode (i : Instr) : List Byte := [encodeByte i]

/-- The bytes of a table word, the first one in its least significant bits. -/
def tableBytes (nbits w : Nat) : List Byte :=
  (List.range (nbits / 8)).map fun k => BitVec.ofNat 8 (w / 2 ^ (8 * k))

/-- The instruction the decoder reads from a word of spec/opcode_table.json. A byte that is a
command is read as a command and any other as a varint byte (log entry 4). -/
def decodeTableWord (nbits w : Nat) : Option Instr :=
  match decode .cmd (tableBytes nbits w) with
  | .ok (i, _) => some i
  | .error _ =>
    match decode .vb (tableBytes nbits w) with
    | .ok (i, _) => some i
    | .error _ => none

end Sys2Proof
end

