-- ==== Sys2Proof/Config.lean ====
section
/-! DEFINITION. What an implementation fixes, and the values the spec leaves open. -/

namespace Sys2Proof.Config

/-- How far `IBUF_CAP` lies above its least value, before it is cut to its range (log entry 5). -/
opaque ibufSpare : Nat

/-- How far `OBUF_CAP` lies above its least value, before it is cut to its range (log entry 5). -/
opaque obufSpare : Nat

/-- `IBUF_CAP - 10`: every number below `2^29 - 10`, the most that R9's three constraints leave. -/
def ibufRoom : Nat := ibufSpare % (2 ^ 29 - 10)

/-- `IBUF_CAP`, the capacity of the input buffer: any number R9 allows (00_scope.md R9, U13). -/
def ibufCap : Nat := ibufRoom + 10

/-- `OBUF_CAP`, the capacity of the output buffer: any number from `8 × IBUF_CAP` up to
`2^32 - 1` (00_scope.md R9, U13). -/
def obufCap : Nat := (8 * ibufRoom + obufSpare % (2 ^ 32 - 8 * ibufCap)) + 80

/-- The `n`-th unspecified value handed to the host: any value (93_implementation_defined.md U6,
U8, U11; log entry 7). -/
opaque freeValue : Nat → Word

end Sys2Proof.Config
end

