-- ==== Sys2Proof/HostLines.lean ====
section
/-! DEFINITION. What the outside world can do to the block: the host's accesses, in the line
notation of 30_encoding.md R83, and the events whose order is not fixed (45_sequencer.md R164). -/

namespace Sys2Proof

/-- The six host-visible registers (10_state.md R20). -/
inductive Reg where
  | cmd
  | status
  | val
  | ilen
  | olen
  | errpos
  deriving DecidableEq, Repr

/-- The register's number (10_state.md R20). -/
def Reg.number : Reg → Nat
  | .cmd => 0
  | .status => 1
  | .val => 2
  | .ilen => 3
  | .olen => 4
  | .errpos => 5

/-- The register's width in bits (10_state.md R20, R36). -/
def Reg.width : Reg → Nat
  | .cmd => 8
  | .status => 8
  | .val => 64
  | .ilen => 32
  | .olen => 32
  | .errpos => 32

/-- One host action: a whole-register or one-byte access (10_state.md R35, R36, 20_memory.md R57)
or a wait (30_encoding.md R83). Writes to read-only state are listed because the host can make
them; R35 says they are ignored. -/
inductive HostAction where
  /-- `CMD`: write the command register. -/
  | wrCmd (c : Byte)
  /-- `WR VAL`. -/
  | wrVal (v : Word)
  /-- `WR ILEN`. -/
  | wrIlen (n : Len)
  /-- A write of `STATUS`, ignored. -/
  | wrStatus (v : Byte)
  /-- A write of `OLEN`, ignored. -/
  | wrOlen (n : Len)
  /-- A write of `ERRPOS`, ignored. -/
  | wrErrpos (n : Len)
  /-- `WB IBUF[a]`. -/
  | wrIbuf (a : Nat) (b : Byte)
  /-- A write of `OBUF[a]`, ignored. -/
  | wrObuf (a : Nat) (b : Byte)
  /-- `RD`. -/
  | rd (r : Reg)
  /-- A read of `IBUF[a]`. -/
  | rdIbuf (a : Nat)
  /-- `RB OBUF[a]`. -/
  | rdObuf (a : Nat)
  /-- `WAIT`: read `STATUS` until `BUSY = 0`. -/
  | wait
  deriving DecidableEq, Repr

/-- One event of the outside world's order: the core gets a turn, the host acts, or reset comes
(45_sequencer.md R164, 70_reset_and_hazards.md R220). -/
inductive Event where
  | core
  | host (a : HostAction)
  | reset
  deriving DecidableEq, Repr

/-- Where a host read reads. -/
inductive Source where
  | reg (r : Reg)
  | ibuf (a : Nat)
  | obuf (a : Nat)
  deriving DecidableEq, Repr

/-- What a host read returned: the value of the cell, zero-extended to 64 bits. -/
structure Reading where
  source : Source
  value : Word
  deriving DecidableEq, Repr

end Sys2Proof
end

