-- ==== Sys2Proof/Machine/State.lean ====
section
/-! DEFINITION. The whole state of one core (10_state.md R20), the reasons a step can stop, and the
state after reset (R37). -/

namespace Sys2Proof.Machine

/-- `PHASE` (10_state.md R29). -/
inductive Phase where
  /-- No operation in progress, the host owns the state. -/
  | idle
  /-- A batch-encode operation is about to read the next word. -/
  | load
  /-- An encode operation is producing the bytes of one group. -/
  | emit
  /-- A decode or segment operation is reading bytes. -/
  | scan
  deriving DecidableEq, Repr

/-- The outcome of the last command, `STATUS.ERR` (10_state.md R23, 60_exceptions.md R190). -/
inductive ErrCode where
  | ok
  | invalidInput
  | truncatedGroup
  | overflow
  | illegalCommand
  deriving DecidableEq, Repr

/-- Why the model stops with a fault. None is an error of the block: those are recorded in
`STATUS` and the machine goes on (60_exceptions.md R196). -/
inductive Fault where
  /-- Raised by a host access to, or a core store at, a buffer address at or beyond the buffer's
  capacity: there is no such cell (10_state.md R33, 20_memory.md R50). Safe (log entry 8). -/
  | noSuchAddress
  /-- Raised by a core step in a busy state to which no step rule applies (45_sequencer.md R164):
  `POS` beyond `ILEN`, `CNT` above 10, or an `OP` that does not run in this `PHASE`. No run reaches
  one. Safe (log entry 10). -/
  | noStepRule
  deriving DecidableEq, Repr

/-- Why the model gives a step no meaning. -/
inductive Refusal where
  /-- Raised by an arm of `exec` whose instruction has no meaning yet. Safe. -/
  | notModelled (mnemonic : String)
  /-- Raised by a core read of an `IBUF` byte below `ILEN` that the host has not written since
  reset: the spec has a model refuse the run (20_memory.md R60, U5). Safe (log entry 6). -/
  | ibufByteNotWritten (address : Nat)
  /-- Raised by an idle host write of `ILEN` above `IBUF_CAP`: the spec has a model refuse the
  write (10_state.md R25, U7). Safe (log entry 9). -/
  | ilenAboveCapacity
  deriving DecidableEq, Repr

/-- A value, a fault or a refusal. -/
abbrev Result (α : Type) := Host.Outcome α Fault Refusal

/-- A byte memory: the cells that have a value, addresses strictly rising. -/
abbrev Memory := List Host.Cell

/-- The state of one core (10_state.md R20: "Nothing else is state"), and below it the model's own
fields that stand for the outside world. `STATUS` is not stored: it is computed from `err` and
`phase` (R23, Flags.lean). -/
structure State where
  /-- `CMD` (R24). -/
  cmd : Byte
  /-- `STATUS.ERR` (R23). -/
  err : ErrCode
  /-- `VAL` (R21). -/
  val : Word
  /-- `ILEN` (R25). -/
  ilen : Len
  /-- `OLEN` (R26). -/
  olen : Len
  /-- `ERRPOS` (R27). -/
  errpos : Len
  /-- `OP`, hidden (R28). -/
  op : BitVec 4
  /-- `PHASE`, hidden (R29). -/
  phase : Phase
  /-- `POS`, hidden (R22). -/
  pos : Len
  /-- `CNT`, hidden (R30). -/
  cnt : BitVec 4
  /-- `ACC`, hidden (R31). -/
  acc : Word
  /-- `IBUF` (R33). -/
  ibuf : Memory
  /-- `OBUF` (R33). -/
  obuf : Memory
  /-- The model's own: the events still to come, oldest first (log entry 1). -/
  agenda : List Event
  /-- The model's own: what the host's reads returned, newest first (log entry 12). -/
  readings : List Reading
  /-- The model's own: how many unspecified values were handed out (log entry 7). -/
  freeIdx : Nat
  deriving DecidableEq, Repr

/-- The state after reset (10_state.md R37): every register zero, `PHASE = IDLE`, both buffers
unspecified, so no byte has a value. The model's own fields start empty (log entries 1, 7, 12). -/
def State.reset : State where
  cmd := 0#8
  err := .ok
  val := 0#64
  ilen := 0#32
  olen := 0#32
  errpos := 0#32
  op := 0#4
  phase := .idle
  pos := 0#32
  cnt := 0#4
  acc := 0#64
  ibuf := []
  obuf := []
  agenda := []
  readings := []
  freeIdx := 0

end Sys2Proof.Machine
end

