-- ==== Sys2Proof/Machine/Functions.lean ====
section
/-! DEFINITION. The pure functions that carry all the arithmetic of the block (00_scope.md R16):
`uenc`, `udec`, `zz`, `unzz`, `seg`, and `scan`, which is `seg` with the two error policies. -/

namespace Sys2Proof.Machine

/-- `zz(v) = shl64(v, 1) ^ asr64(v, 63)` (42_zigzag.md R110). -/
def zz (v : Word) : Word := shl64 v 1 ^^^ asr64 v 63

/-- `unzz(u) = lsr64(u, 1) ^ neg64(u & 1)` (42_zigzag.md R112). -/
def unzz (u : Word) : Word := lsr64 u 1 ^^^ neg64 (u &&& 1#64)

/-- The value map of an operation: through the zigzag map when it is signed (30_encoding.md R78). -/
def toWire (signed : Bool) (v : Word) : Word := if signed then zz v else v

/-- The value map back (30_encoding.md R78). -/
def fromWire (signed : Bool) (u : Word) : Word := if signed then unzz u else u

/-- The loop of `uenc`, with a bound on its turns (40_uenc.md R90). -/
def uencTurns : Nat → Word → List Byte
  | 0, _ => []
  | n + 1, v =>
    if lsr64 v 7 ≠ 0#64 then contByte (low7 v) :: uencTurns n (lsr64 v 7) else [lastByte (low7 v)]

/-- `uenc(v)`: at most ten turns of the loop (40_uenc.md R90, R92 (f)). -/
def uenc (v : Word) : List Byte := uencTurns 10 v

/-- The loop of `udec` from byte index `i` with accumulator `acc` (41_udec.md R100). -/
def udecFrom : Nat → Word → List Byte → Word
  | _, acc, [] => acc
  | i, acc, b :: bs => udecFrom (i + 1) (acc ||| shl64 (zext64 (payload b)) (7 * i)) bs

/-- `udec(s)` for at most ten bytes (41_udec.md R100). The spec does not define it for more (R103),
and no operation applies it to more (log entry 18). -/
def udec (s : List Byte) : Word := udecFrom 0 0#64 s

/-- The loop of `seg` with the current group `cur` (43_segmenter.md R125). -/
def segFrom : List Byte → List Byte → List (List Byte) × List Byte
  | cur, [] => ([], cur)
  | cur, b :: bs =>
    if contBit b then segFrom (cur ++ [b]) bs
    else ((cur ++ [b]) :: (segFrom [] bs).1, (segFrom [] bs).2)

/-- `seg(s)`: the complete groups in order, and the residue (43_segmenter.md R125). -/
def seg (s : List Byte) : List (List Byte) × List Byte := segFrom [] s

/-- The loop of `scan` over the groups not yet accepted, at position `p`, with residue `r`
(43_segmenter.md R126). -/
def scanGroups (r : List Byte) : List (List Byte) → Nat → List (List Byte) × ErrCode × Nat
  | [], p =>
    if r.length > 10 then ([], .overflow, p + 10)
    else if r.length > 0 then ([], .truncatedGroup, p)
    else ([], .ok, 0)
  | g :: gs, p =>
    if g.length ≤ 10 then
      (g :: (scanGroups r gs (p + g.length)).1, (scanGroups r gs (p + g.length)).2)
    else ([], .overflow, p + 10)

/-- `scan(s)`: the groups accepted, the outcome and its position (43_segmenter.md R126). -/
def scan (s : List Byte) : List (List Byte) × ErrCode × Nat :=
  scanGroups (seg s).2 (seg s).1 0

/-- The words of a batch-encode input: its bytes by eights, most significant first (20_memory.md
R54, 44_stream.md R144). -/
def wordsOf : List Byte → List Word
  | b0 :: b1 :: b2 :: b3 :: b4 :: b5 :: b6 :: b7 :: rest =>
    fromBe64 [b0, b1, b2, b3, b4, b5, b6, b7] :: wordsOf rest
  | _ => []

end Sys2Proof.Machine
end

