-- ==== Sys2Proof/Machine/Memory.lean ====
section
/-! DEFINITION. Reading and writing one byte memory (00_scope.md R15, 10_state.md R33). An address
that is not listed has no value: the host or the core has not written it since reset. -/

namespace Sys2Proof.Machine

/-- The byte at an address, none where nothing has been written. -/
def Memory.read? : Memory → Nat → Option Byte
  | [], _ => none
  | (k, c) :: m, a => if a = k then some c else Memory.read? m a

/-- Stores one byte, keeping the addresses strictly rising. -/
def Memory.write : Memory → Nat → Byte → Memory
  | [], a, b => [(a, b)]
  | (k, c) :: m, a, b =>
    if a < k then (a, b) :: (k, c) :: m
    else if a = k then (a, b) :: m
    else (k, c) :: Memory.write m a b

/-- `MemWrite(M, a, n, s)`: byte `s[k]` at address `a + k`, in address order (R15). -/
def Memory.writeBytes : Memory → Nat → List Byte → Memory
  | m, _, [] => m
  | m, a, b :: bs => Memory.writeBytes (Memory.write m a b) (a + 1) bs

/-- `MemRead(M, a, n)`: the bytes at addresses `a` to `a + n - 1`, none where one has no value
(R15). -/
def Memory.readBytes? (m : Memory) : Nat → Nat → Option (List Byte)
  | _, 0 => some []
  | a, n + 1 =>
    match Memory.read? m a, Memory.readBytes? m (a + 1) n with
    | some b, some bs => some (b :: bs)
    | _, _ => none

/-- The canonical form: addresses strictly rising. An unlisted address has no value, so no entry
can equal what an unlisted address reads as. -/
def Memory.rising : Memory → Bool
  | [] => true
  | [_] => true
  | (k, _) :: (k', c') :: m => decide (k < k') && Memory.rising ((k', c') :: m)

/-- The memory is in canonical form and every listed address exists in a buffer of `cap` bytes. -/
def Memory.wf (cap : Nat) (m : Memory) : Bool :=
  Memory.rising m && m.all fun c => decide (c.1 < cap)

end Sys2Proof.Machine
end

