-- ==== Sys2Proof/Machine/Operands.lean ====
section
/-! DEFINITION. What each operation reads and what it makes of it: the modes the step rules choose
by `OP` (45_sequencer.md R162 to R172) and the reads of `IBUF` (20_memory.md R54, R57, R58). -/

namespace Sys2Proof.Machine

/-- What a scanning operation does with a byte (R166 to R169). -/
inductive ScanMode where
  /-- `UDEC`, `SDEC`: all bytes are one group, bit 7 is not looked at. -/
  | single (signed : Bool)
  /-- `SEG`: a complete group's length is stored. -/
  | lengths
  /-- `UDECS`, `SDECS`: a complete group's value is stored. -/
  | words (signed : Bool)
  deriving DecidableEq, Repr

/-- The scanning mode of `OP`: `UDEC` 2, `SDEC` 3, `SEG` 6, `UDECS` A, `SDECS` B (R162, R165). -/
def scanMode (op : BitVec 4) : Option ScanMode :=
  match op.toNat with
  | 0x2 => some (.single false)
  | 0x3 => some (.single true)
  | 0x6 => some .lengths
  | 0xA => some (.words false)
  | 0xB => some (.words true)
  | _ => none

/-- Whether the batch encoding of `OP` is signed: `UENCS` 8, `SENCS` 9 (R162, R170). -/
def loadSigned (op : BitVec 4) : Option Bool :=
  match op.toNat with
  | 0x8 => some false
  | 0x9 => some true
  | _ => none

/-- The phase after a group's last byte: `IDLE` for `UENC` 0 and `SENC` 1, `LOAD` for `UENCS` 8 and
`SENCS` 9 (R172). -/
def phaseAfterGroup (op : BitVec 4) : Option Phase :=
  match op.toNat with
  | 0x0 => some .idle
  | 0x1 => some .idle
  | 0x8 => some .load
  | 0x9 => some .load
  | _ => none

/-- One byte of `IBUF`, read by the core (20_memory.md R57, R58). A byte the host has not written
since reset is refused (R60, U5; log entry 6). -/
def readIbuf (s : State) (a : Nat) : Result Byte :=
  if a < Config.ibufCap then
    match Memory.read? s.ibuf a with
    | some b => .next b
    | none => .refused (.ibufByteNotWritten a)
  else .fault .noSuchAddress

/-- `MemRead(IBUF, a, n)` by the core, lowest address first (00_scope.md R15). -/
def readIbufBytes (s : State) : Nat → Nat → Result (List Byte)
  | _, 0 => .next []
  | a, n + 1 =>
    match readIbuf s a with
    | .next b =>
      match readIbufBytes s (a + 1) n with
      | .next bs => .next (b :: bs)
      | .fault f => .fault f
      | .refused r => .refused r
    | .fault f => .fault f
    | .refused r => .refused r

/-- The input word at `a`: `from_be64(MemRead(IBUF, a, 8))` (20_memory.md R54, R170). -/
def readIbufWord (s : State) (a : Nat) : Result Word :=
  match readIbufBytes s a 8 with
  | .next bs => .next (fromBe64 bs)
  | .fault f => .fault f
  | .refused r => .refused r

end Sys2Proof.Machine
end

