-- ==== Sys2Proof/Machine/Flags.lean ====
section
/-! DEFINITION. `STATUS`, the only flags of the block (10_state.md R23): `BUSY` and `ERR`. -/

namespace Sys2Proof.Machine

/-- The number of an outcome in `STATUS.ERR` (10_state.md R23, 60_exceptions.md R190). -/
def ErrCode.code : ErrCode → BitVec 3
  | .ok => 0#3
  | .invalidInput => 1#3
  | .truncatedGroup => 2#3
  | .overflow => 3#3
  | .illegalCommand => 4#3

/-- `BUSY`: 1 exactly when `PHASE ≠ IDLE` (R23). -/
def State.busy (s : State) : Bool := decide (s.phase ≠ .idle)

/-- The value of `STATUS`: bit 7 `BUSY`, bits 6:3 zero, bits 2:0 `ERR` (R23). -/
def State.status (s : State) : Byte :=
  (if s.busy then 0x80#8 else 0x00#8) ||| s.err.code.setWidth 8

end Sys2Proof.Machine
end

