-- ==== Sys2Proof/Machine/Ops.lean ====
section
/-! DEFINITION. The shared operations on the state: recording an error and its clearing, the
common start of a command, storing output, reset, and handing out an unspecified value. -/

namespace Sys2Proof.Machine

/-- `raise E(p)`, the block's counterpart of trap entry (60_exceptions.md R196, 00_scope.md R15):
`ERR`, `ERRPOS` and `PHASE <- IDLE`, nothing else. Its counterpart of trap return is
`initCommand`, which clears the error (R197). -/
def raise (e : ErrCode) (p : Len) (s : State) : State :=
  { s with err := e, errpos := p, phase := .idle }

/-- The common initialisation of every command start (45_sequencer.md R161). -/
def initCommand (c : Byte) (s : State) : State :=
  { s with
    cmd := c
    op := c.extractLsb' 0 4
    err := .ok
    errpos := 0#32
    olen := 0#32
    pos := 0#32
    cnt := 0#4
    acc := 0#64 }

/-- A write of `CMD`: while idle, the common initialisation and the dispatch as one action; while
busy, ignored (45_sequencer.md R160, 10_state.md R35). -/
def startCommand (c : Byte) (dispatch : State → State) (s : State) : State :=
  if s.phase = .idle then dispatch (initCommand c s) else s

/-- A write of `CMD` with a byte that is no command (30_encoding.md R80, 45_sequencer.md R162,
60_exceptions.md R194). -/
def illegalCommand (c : Byte) (s : State) : State :=
  startCommand c (fun t => raise .illegalCommand 0#32 t) s

/-- `MemWrite(OBUF, OLEN, n, s)` and `OLEN <- OLEN + n` (45_sequencer.md R167, R168, R171, R172).
A store that would leave the buffer is a fault: 20_memory.md R58 shows that no run has one. -/
def storeOut (bs : List Byte) (s : State) : Result State :=
  if s.olen.toNat + bs.length ≤ Config.obufCap then
    .next { s with
      obuf := Memory.writeBytes s.obuf s.olen.toNat bs
      olen := s.olen + BitVec.ofNat 32 bs.length }
  else .fault .noSuchAddress

/-- Reset (70_reset_and_hazards.md R220, 10_state.md R37): every register at its reset value, both
buffers unspecified. The outside world's own fields go on (log entry 15). -/
def applyReset (s : State) : State :=
  { State.reset with agenda := s.agenda, readings := s.readings, freeIdx := s.freeIdx }

/-- The host's record of a read (log entry 12). -/
def recordReading (src : Source) (v : Word) (s : State) : State :=
  { s with readings := ⟨src, v⟩ :: s.readings }

/-- The low `n` bits of a 64-bit value. -/
def lowBits (n : Nat) (v : Word) : Word := (v.setWidth n).setWidth 64

/-- A read that returns an unspecified value of `n` bits (10_state.md R33, R35; U6, U8, U11): the
next free value. -/
def recordFree (src : Source) (n : Nat) (s : State) : State :=
  { recordReading src (lowBits n (Config.freeValue s.freeIdx)) s with freeIdx := s.freeIdx + 1 }

end Sys2Proof.Machine
end

