-- ==== Sys2Proof/Machine/Segmenter.lean ====
section
/-! DEFINITION. The unit SEG: starting `SEG` (43_segmenter.md R127), and what the scanner does with
one byte of each class (45_sequencer.md R165 to R168, 43_segmenter.md R131). -/

namespace Sys2Proof.Machine

/-- The dispatch line of the operations that scan a stream, also when `ILEN = 0` (R162). -/
def beginScan (s : State) : State := { s with phase := .scan }

/-- `SEG` (43_segmenter.md R127, 45_sequencer.md R162). -/
def execSeg (s : State) : Result State := .next (startCommand 0x06#8 beginScan s)

/-- Accumulates one byte's payload (45_sequencer.md R166). -/
def acceptByte (p : BitVec 7) (s : State) : State :=
  { s with
    acc := s.acc ||| shl64 (zext64 p) (7 * s.cnt.toNat)
    cnt := s.cnt + 1#4
    pos := s.pos + 1#32 }

/-- "Then reset the current-group buffer": `ACC` and `CNT` go back to 0 (R167, R168). -/
def clearGroup (s : State) : State := { s with acc := 0#64, cnt := 0#4 }

/-- The output for a complete group with length `CNT'` and value `ACC'`: nothing for a single
decode, the length byte for `SEG`, the word for a stream decode (R166, R167, R168). -/
def finishGroup (m : ScanMode) (s : State) : Result State :=
  match m with
  | .single _ => .next s
  | .lengths => storeOut [s.cnt.setWidth 8] (clearGroup s)
  | .words signed => storeOut (be64 (fromWire signed s.acc)) (clearGroup s)

/-- The `SCAN` step that meets a byte with payload `p` (R165, R166): `Overflow` when the group is
full, else the byte is accumulated and `finish` says what its continuation bit brings. A byte acts
only where a `SCAN` step reads it; elsewhere it is data and nothing happens (log entry 3). -/
def scanByte (finish : ScanMode → State → Result State) (p : BitVec 7) (s : State) : Result State :=
  match s.phase with
  | .scan =>
    match scanMode s.op with
    | none => .fault .noStepRule
    | some m =>
      if s.cnt = 10#4 then .next (raise .overflow s.pos s)
      else if s.cnt.toNat < 10 then finish m (acceptByte p s)
      else .fault .noStepRule
  | .idle => .next s
  | .load => .next s
  | .emit => .next s

/-- `VB.CONT`: the group goes on, nothing more happens (R166). -/
def execVbCont (p : BitVec 7) (s : State) : Result State := scanByte (fun _ t => .next t) p s

/-- `VB.LAST`: the group is complete (R166 to R168). -/
def execVbLast (p : BitVec 7) (s : State) : Result State := scanByte finishGroup p s

end Sys2Proof.Machine
end

