-- ==== Sys2Proof/Machine/Unsigned.lean ====
section
/-! DEFINITION. The units UENC and UDEC: starting `UENC` and `UDEC` (40_uenc.md, 41_udec.md,
45_sequencer.md R162). A command's meaning is its start, the one indivisible action of R160; the
core steps that follow are in Sequencer.lean (log entry 2). -/

namespace Sys2Proof.Machine

/-- The dispatch line of the two single encodings: `ACC` gets the value to encode (R162). -/
def beginEncode (signed : Bool) (s : State) : State :=
  { s with acc := toWire signed s.val, phase := .emit }

/-- The dispatch line of the two single decodings: an empty buffer is `InvalidInput` (R162, R191). -/
def beginDecode (s : State) : State :=
  if s.ilen = 0#32 then raise .invalidInput 0#32 s else { s with phase := .scan }

/-- `UENC` (40_uenc.md R91, 45_sequencer.md R162). -/
def execUenc (s : State) : Result State := .next (startCommand 0x00#8 (beginEncode false) s)

/-- `UDEC` (41_udec.md R101, 45_sequencer.md R162). -/
def execUdec (s : State) : Result State := .next (startCommand 0x02#8 beginDecode s)

end Sys2Proof.Machine
end

