-- ==== Sys2Proof/Machine/Signed.lean ====
section
/-! DEFINITION. The unit ZZ and the signed codec: `SENC`, `SDEC`, `ZZE`, `ZZD` (42_zigzag.md,
45_sequencer.md R162). -/

namespace Sys2Proof.Machine

/-- `SENC` (42_zigzag.md R116, 45_sequencer.md R162): `zz(VAL)` is formed in `ACC`. -/
def execSenc (s : State) : Result State := .next (startCommand 0x01#8 (beginEncode true) s)

/-- `SDEC` (42_zigzag.md R117, 45_sequencer.md R162). -/
def execSdec (s : State) : Result State := .next (startCommand 0x03#8 beginDecode s)

/-- `ZZE` (42_zigzag.md R114): over within the command start. -/
def execZze (s : State) : Result State :=
  .next (startCommand 0x04#8 (fun t => { t with val := zz t.val }) s)

/-- `ZZD` (42_zigzag.md R115): over within the command start. -/
def execZzd (s : State) : Result State :=
  .next (startCommand 0x05#8 (fun t => { t with val := unzz t.val }) s)

end Sys2Proof.Machine
end

