-- ==== Sys2Proof/Machine/Stream.lean ====
section
/-! DEFINITION. Starting the stream codec: `UDECS`, `SDECS`, `UENCS`, `SENCS` (44_stream.md,
45_sequencer.md R162). -/

namespace Sys2Proof.Machine

/-- The dispatch line of the two batch encodings: a length that is no multiple of 8 is
`InvalidInput` (R162, R146, R191). -/
def beginBatch (s : State) : State :=
  if s.ilen.toNat % 8 ≠ 0 then raise .invalidInput 0#32 s else { s with phase := .load }

/-- `UENCS` (44_stream.md R144, 45_sequencer.md R162). -/
def execUencs (s : State) : Result State := .next (startCommand 0x08#8 beginBatch s)

/-- `SENCS` (44_stream.md R145, 45_sequencer.md R162). -/
def execSencs (s : State) : Result State := .next (startCommand 0x09#8 beginBatch s)

/-- `UDECS` (44_stream.md R140, 45_sequencer.md R162). -/
def execUdecs (s : State) : Result State := .next (startCommand 0x0A#8 beginScan s)

/-- `SDECS` (44_stream.md R141, 45_sequencer.md R162). -/
def execSdecs (s : State) : Result State := .next (startCommand 0x0B#8 beginScan s)

end Sys2Proof.Machine
end

