-- ==== Sys2Proof/Machine/Dispatch.lean ====
section
/-! DEFINITION. The meaning of every instruction, one arm per constructor. -/

namespace Sys2Proof.Machine

/-- What an instruction does: a command byte, written by the host (45_sequencer.md R160 to R162),
or a varint byte, met by the scanner (R165 to R168). -/
def exec (i : Instr) (s : State) : Host.Outcome State Fault Refusal :=
  match i with
  | .uenc => Sys2Proof.Machine.execUenc s
  | .senc => Sys2Proof.Machine.execSenc s
  | .udec => Sys2Proof.Machine.execUdec s
  | .sdec => Sys2Proof.Machine.execSdec s
  | .zze => Sys2Proof.Machine.execZze s
  | .zzd => Sys2Proof.Machine.execZzd s
  | .seg => Sys2Proof.Machine.execSeg s
  | .uencs => Sys2Proof.Machine.execUencs s
  | .sencs => Sys2Proof.Machine.execSencs s
  | .udecs => Sys2Proof.Machine.execUdecs s
  | .sdecs => Sys2Proof.Machine.execSdecs s
  | .vbCont p => Sys2Proof.Machine.execVbCont p s
  | .vbLast p => Sys2Proof.Machine.execVbLast p s

end Sys2Proof.Machine
end

