-- ==== Sys2Proof/Machine/HostAccess.lean ====
section
/-! DEFINITION. Host access to registers and buffers (10_state.md R35, R36) and the abbreviations
of 30_encoding.md R83. -/

namespace Sys2Proof.Machine

/-- The stored value of a register, zero-extended (10_state.md R20, R23). -/
def registerValue (r : Reg) (s : State) : Word :=
  match r with
  | .cmd => s.cmd.setWidth 64
  | .status => s.status.setWidth 64
  | .val => s.val
  | .ilen => s.ilen.setWidth 64
  | .olen => s.olen.setWidth 64
  | .errpos => s.errpos.setWidth 64

/-- A host write of `CMD` (R160): the byte is decoded as a command; one that is none is
`IllegalCommand` (R80). -/
def writeCmd (c : Byte) (s : State) : Result State :=
  match decodeCommand c with
  | .ok i => exec i s
  | .error _ => .next (illegalCommand c s)

/-- A host read of a register (R35): `STATUS` at any time, the others only while idle; while busy
an unspecified value of the register's width (U8). -/
def readRegister (r : Reg) (s : State) : State :=
  if s.phase = .idle ∨ r = .status then recordReading (.reg r) (registerValue r s) s
  else recordFree (.reg r) r.width s

/-- A host read of `IBUF[a]` (R35): the stored byte while idle; unspecified while busy (U8) or when
nothing has been written there since reset (U11). -/
def readIbufByHost (a : Nat) (s : State) : Result State :=
  if a < Config.ibufCap then
    match s.phase, Memory.read? s.ibuf a with
    | .idle, some b => .next (recordReading (.ibuf a) (b.setWidth 64) s)
    | _, _ => .next (recordFree (.ibuf a) 8 s)
  else .fault .noSuchAddress

/-- A host read of `OBUF[a]` (R35): the stored byte while idle and below `OLEN`; else unspecified
(U6, U8). -/
def readObufByHost (a : Nat) (s : State) : Result State :=
  if a < Config.obufCap then
    match s.phase, Memory.read? s.obuf a with
    | .idle, some b =>
      if a < s.olen.toNat then .next (recordReading (.obuf a) (b.setWidth 64) s)
      else .next (recordFree (.obuf a) 8 s)
    | _, _ => .next (recordFree (.obuf a) 8 s)
  else .fault .noSuchAddress

/-- A host write of `IBUF[a]` (R35): stored while idle, ignored while busy. -/
def writeIbufByHost (a : Nat) (b : Byte) (s : State) : Result State :=
  if a < Config.ibufCap then
    .next (if s.phase = .idle then { s with ibuf := Memory.write s.ibuf a b } else s)
  else .fault .noSuchAddress

/-- A host write of `ILEN`: stored while idle, ignored while busy (R35); while idle a value above
`IBUF_CAP` is refused (R25, U7). -/
def writeIlen (n : Len) (s : State) : Result State :=
  if s.phase = .idle then
    if n.toNat ≤ Config.ibufCap then .next { s with ilen := n } else .refused .ilenAboveCapacity
  else .next s

/-- One host action other than waiting (R35). `WAIT` is scheduled in Schedule.lean; here it does
nothing. -/
def hostAct (a : HostAction) (s : State) : Result State :=
  match a with
  | .wrCmd c => writeCmd c s
  | .wrVal v => .next (if s.phase = .idle then { s with val := v } else s)
  | .wrIlen n => writeIlen n s
  | .wrStatus _ => .next s
  | .wrOlen _ => .next s
  | .wrErrpos _ => .next s
  | .wrIbuf a b => writeIbufByHost a b s
  | .wrObuf a _ => if a < Config.obufCap then .next s else .fault .noSuchAddress
  | .rd r => .next (readRegister r s)
  | .rdIbuf a => readIbufByHost a s
  | .rdObuf a => readObufByHost a s
  | .wait => .next s

/-- A host program, its lines in order, as events (30_encoding.md R83). -/
def program (lines : List HostAction) : List Event := lines.map .host

/-- The state whose outside world is a host program. -/
def State.withProgram (s : State) (lines : List HostAction) : State :=
  { s with agenda := program lines }

/-- The writes of a byte sequence into `IBUF` from address `a` on. -/
def writeLines : Nat → List Byte → List HostAction
  | _, [] => []
  | a, b :: bs => .wrIbuf a b :: writeLines (a + 1) bs

/-- `FILL b0 ... bn-1` (30_encoding.md R83). -/
def fillLines (bs : List Byte) : List HostAction :=
  writeLines 0 bs ++ [.wrIlen (BitVec.ofNat 32 bs.length)]

/-- `FILLW v0 ... vN-1` (30_encoding.md R83). -/
def fillWordsLines (vs : List Word) : List HostAction := fillLines (vs.flatMap be64)

/-- The reads and writes of `COPY` from address `a` on, for the bytes `bs` that `OBUF` holds there. -/
def copyBytesLines : Nat → List Byte → List HostAction
  | _, [] => []
  | a, b :: bs => .rdObuf a :: .wrIbuf a b :: copyBytesLines (a + 1) bs

/-- `COPY` (30_encoding.md R83) on an idle block whose output is `bs`: each byte written is the
byte just read (log entry 19). -/
def copyLines (bs : List Byte) : List HostAction :=
  .rd .olen :: copyBytesLines 0 bs ++ [.wrIlen (BitVec.ofNat 32 bs.length)]

end Sys2Proof.Machine
end

