-- ==== Sys2Proof/Machine/Sequencer.lean ====
section
/-! DEFINITION. One micro-step of the core (45_sequencer.md R164 to R172). -/

namespace Sys2Proof.Machine

/-- `SCAN` with `POS = ILEN` (R169): a single decode hands over its value; for a stream an open
group is `TruncatedGroup` at its first byte. -/
def closeScan (m : ScanMode) (s : State) : State :=
  match m with
  | .single signed => { s with val := fromWire signed s.acc, phase := .idle }
  | .lengths | .words _ =>
    if s.cnt ≠ 0#4 then raise .truncatedGroup (s.pos - s.cnt.setWidth 32) s
    else { s with phase := .idle }

/-- A `SCAN` step (R165, R166, R169): at the end of the input the scan closes; a full group with a
byte present is `Overflow`, and that byte is not read; else the byte at `POS` is read, put in its
class and executed. -/
def scanStep (s : State) : Result State :=
  match scanMode s.op with
  | none => .fault .noStepRule
  | some m =>
    if s.pos = s.ilen then .next (closeScan m s)
    else if s.pos.toNat < s.ilen.toNat then
      if s.cnt = 10#4 then .next (raise .overflow s.pos s)
      else
        match readIbuf s s.pos.toNat with
        | .next b => exec (decodeVarintByte b) s
        | .fault f => .fault f
        | .refused r => .refused r
    else .fault .noStepRule

/-- A `LOAD` step (R170): all words done, or the next word is fetched. -/
def loadStep (s : State) : Result State :=
  match loadSigned s.op with
  | none => .fault .noStepRule
  | some signed =>
    if s.pos = s.ilen then .next { s with phase := .idle }
    else
      match readIbufWord s s.pos.toNat with
      | .next w =>
        .next { s with acc := toWire signed w, pos := s.pos + 8#32, phase := .emit }
      | .fault f => .fault f
      | .refused r => .refused r

/-- An `EMIT` step: a continuation byte while more than seven bits are left (R171), else the final
byte (R172). -/
def emitStep (s : State) : Result State :=
  match phaseAfterGroup s.op with
  | none => .fault .noStepRule
  | some after =>
    if lsr64 s.acc 7 ≠ 0#64 then
      storeOut [contByte (low7 s.acc)] { s with acc := lsr64 s.acc 7, cnt := s.cnt + 1#4 }
    else
      storeOut [lastByte (low7 s.acc)] { s with acc := 0#64, cnt := 0#4, phase := after }

/-- One step of the core, chosen by `PHASE` (R164). While idle the core has no step and keeps all
its state (R164, 60_exceptions.md R203). -/
def coreStep (s : State) : Result State :=
  match s.phase with
  | .idle => .next s
  | .load => loadStep s
  | .emit => emitStep s
  | .scan => scanStep s

end Sys2Proof.Machine
end

