-- ==== Sys2Proof/Machine/Schedule.lean ====
section
/-! DEFINITION. Who moves next (45_sequencer.md R164): the agenda holds the order of the agents as
data. -/

namespace Sys2Proof.Machine

/-- The state whose first event has been taken. -/
def State.popEvent (s : State) : State := { s with agenda := s.agenda.tail }

/-- One step of the whole system: the first event of the agenda happens. With no event left, and
while a waiting host finds the core busy, the core steps (30_encoding.md R83, 70_reset_and_hazards.md
R231; log entries 1, 13, 14). -/
def advance (s : State) : Result State :=
  match s.agenda with
  | [] => coreStep s
  | .core :: _ => coreStep s.popEvent
  | .reset :: _ => .next (applyReset s.popEvent)
  | .host .wait :: _ => if s.busy then coreStep s else .next s.popEvent
  | .host a :: _ => hostAct a s.popEvent

/-- A state whose next step runs the command byte `c`: the core is idle and the host's next action
writes `c` to `CMD`. -/
def placeCommand (c : Byte) (s : State) : State :=
  { s with phase := .idle, agenda := .host (.wrCmd c) :: s.agenda }

/-- A state whose next step scans the varint byte `b`: the core is in `SCAN` at the front of the
buffer with no byte of the group done, `b` stands there, and the core moves next. A scanning
operation in `OP` is kept; otherwise it is `SEG`. -/
def placeVarintByte (b : Byte) (s : State) : State :=
  { s with
    phase := .scan
    op := if (scanMode s.op).isSome then s.op else 0x6#4
    pos := 0#32
    cnt := 0#4
    ilen := if s.ilen = 0#32 then 1#32 else s.ilen
    ibuf := Memory.write s.ibuf 0 b
    agenda := .core :: s.agenda }

/-- Places a byte where the next step takes its instruction from, in the format `decodeTableWord`
reads it in (log entries 4, 16). -/
def placeByte (b : Byte) (s : State) : State :=
  match decodeCommand b with
  | .ok _ => placeCommand b s
  | .error _ => placeVarintByte b s

end Sys2Proof.Machine
end

