-- ==== Sys2Proof/Machine/Step.lean ====
section
/-! DEFINITION. One step, and how an instruction is placed before it. -/

namespace Sys2Proof.Machine

/-- One step of the system of core, host and reset (45_sequencer.md R164). -/
def step (s : State) : Host.Outcome State Fault Refusal := advance s

/-- The state whose very next step runs the instruction of a word of spec/opcode_table.json (log
entry 16). A word of no byte places nothing. -/
def State.withFetchWord (s : State) (nbits w : Nat) : State :=
  match tableBytes nbits w with
  | [] => s
  | b :: _ => placeByte b s

end Sys2Proof.Machine
end

