-- ==== Sys2Proof/Machine/Operation.lean ====
section
/-! DEFINITION. The operation rules: what each operation has done when it is complete, as the files
40_uenc.md to 44_stream.md state it, with the hidden registers of 45_sequencer.md R176 and the step
counts of 70_reset_and_hazards.md R231. The machine does not use these functions: statements compare
the micro-steps with them (R175). `input` is `MemRead(IBUF, 0, ILEN)`; the state is the one before
the command start, idle. -/

namespace Sys2Proof.Machine

/-- `MemWrite(OBUF, 0, len(s), s) ; OLEN <- len(s)`. -/
def withOutput (bs : List Byte) (s : State) : State :=
  { s with obuf := Memory.writeBytes s.obuf 0 bs, olen := BitVec.ofNat 32 bs.length }

/-- What `UENC` (40_uenc.md R91) and `SENC` (42_zigzag.md R116) output. -/
def encodeOutput (signed : Bool) (v : Word) : List Byte := uenc (toWire signed v)

/-- `UENC` (R91), `SENC` (R116). -/
def encodeEffect (c : Byte) (signed : Bool) (s : State) : State :=
  withOutput (encodeOutput signed s.val) (initCommand c s)

/-- `UDEC` (41_udec.md R101), `SDEC` (42_zigzag.md R117), hidden registers by R176. -/
def decodeEffect (c : Byte) (signed : Bool) (input : List Byte) (s : State) : State :=
  if s.ilen.toNat = 0 then raise .invalidInput 0#32 (initCommand c s)
  else if s.ilen.toNat > 10 then
    raise .overflow 10#32
      { initCommand c s with pos := 10#32, cnt := 10#4, acc := udec (input.take 10) }
  else
    { initCommand c s with
      val := fromWire signed (udec input)
      pos := s.ilen
      cnt := s.ilen.setWidth 4
      acc := udec input }

/-- `ZZE` (42_zigzag.md R114). -/
def zigzagEffect (s : State) : State := { initCommand 0x04#8 s with val := zz s.val }

/-- `ZZD` (42_zigzag.md R115). -/
def unzigzagEffect (s : State) : State := { initCommand 0x05#8 s with val := unzz s.val }

/-- What a scanning operation outputs for one accepted group: `SEG` its length (R127), `UDECS`
(R140) and `SDECS` (R141) its value as a word; a single decode outputs nothing (R101). -/
def groupOutput (m : ScanMode) (g : List Byte) : List Byte :=
  match m with
  | .single _ => []
  | .lengths => [BitVec.ofNat 8 g.length]
  | .words signed => be64 (fromWire signed (udec g))

/-- `SEG` (43_segmenter.md R127), `UDECS` (44_stream.md R140), `SDECS` (R141): the output of the
groups `scan` accepts, and its outcome, with the hidden registers by R176. -/
def scanEffect (c : Byte) (m : ScanMode) (input : List Byte) (s : State) : State :=
  match scan input with
  | (gs, .ok, _) => { withOutput (gs.flatMap (groupOutput m)) (initCommand c s) with pos := s.ilen }
  | (gs, .truncatedGroup, p) =>
    raise .truncatedGroup (BitVec.ofNat 32 p)
      { withOutput (gs.flatMap (groupOutput m)) (initCommand c s) with
        pos := s.ilen
        cnt := BitVec.ofNat 4 (input.length - p)
        acc := udec (input.drop p) }
  | (gs, e, p) =>
    raise e (BitVec.ofNat 32 p)
      { withOutput (gs.flatMap (groupOutput m)) (initCommand c s) with
        pos := BitVec.ofNat 32 p
        cnt := 10#4
        acc := udec ((input.drop (p - 10)).take 10) }

/-- What `UENCS` and `SENCS` output: the groups of the words, one after the other (R144, R145). -/
def batchOutput (signed : Bool) (input : List Byte) : List Byte :=
  (wordsOf input).flatMap fun w => uenc (toWire signed w)

/-- `UENCS` (44_stream.md R144), `SENCS` (R145). -/
def batchEffect (c : Byte) (signed : Bool) (input : List Byte) (s : State) : State :=
  if s.ilen.toNat % 8 ≠ 0 then raise .invalidInput 0#32 (initCommand c s)
  else { withOutput (batchOutput signed input) (initCommand c s) with pos := s.ilen }

/-- Core steps of `UENC`, `SENC` (R231). -/
def encodeSteps (signed : Bool) (s : State) : Nat := (encodeOutput signed s.val).length

/-- Core steps of `UDEC`, `SDEC` (R231). -/
def decodeSteps (s : State) : Nat :=
  if s.ilen.toNat = 0 then 0 else if s.ilen.toNat > 10 then 11 else s.ilen.toNat + 1

/-- Core steps of `SEG`, `UDECS`, `SDECS` (R231). -/
def scanSteps (input : List Byte) : Nat :=
  match scan input with
  | (_, .overflow, p) => p + 1
  | _ => input.length + 1

/-- Core steps of `UENCS`, `SENCS` (R231). -/
def batchSteps (signed : Bool) (input : List Byte) (s : State) : Nat :=
  if s.ilen.toNat % 8 ≠ 0 then 0
  else s.ilen.toNat / 8 + 1 + (batchOutput signed input).length

end Sys2Proof.Machine
end

