-- ==== Sys2Proof/Safety.lean ====
section
/-! DEFINITION. Runs, and the invariant that rules out the states no run reaches. -/

namespace Sys2Proof.Machine

/-- `n` steps from `s`, stopping at the first fault or refusal. -/
def run : Nat → State → Result State
  | 0, s => .next s
  | n + 1, s =>
    match step s with
    | .next t => run n t
    | .fault f => .fault f
    | .refused r => .refused r

/-- The run of a command (45_sequencer.md R173): after exactly `n` steps from `t` the core is idle
for the first time, in state `u`. -/
def RunsTo (t : State) (n : Nat) (u : State) : Prop :=
  run n t = .next u ∧ u.phase = .idle ∧
    ∀ k, k < n → ∃ v, run k t = .next v ∧ v.phase ≠ .idle

/-- The launch premise of every operation that reads a buffer (20_memory.md R60, 70_reset_and_hazards.md
R222): `ILEN` is legal, and the host has written `IBUF[0..ILEN]`, whose bytes are `input`. -/
def InputIs (s : State) (input : List Byte) : Prop :=
  s.ilen.toNat ≤ Config.ibufCap ∧ Memory.readBytes? s.ibuf 0 s.ilen.toNat = some input

/-- The two states differ at most in the fields that stand for the outside world. -/
def SameBlock (s t : State) : Prop :=
  { t with agenda := s.agenda, readings := s.readings, freeIdx := s.freeIdx } = s

/-- The state of a scan (R22, R30, R31, R58, R169): the open group's bytes lie just below `POS`,
`ACC` is their `udec`, and the output so far is at most eight bytes for each byte before them. -/
structure ScanInv (m : ScanMode) (s : State) : Prop where
  posLe : s.pos.toNat ≤ s.ilen.toNat
  cntLe : s.cnt.toNat ≤ s.pos.toNat
  olenLe : s.olen.toNat ≤ 8 * (s.pos.toNat - s.cnt.toNat)
  group : ∃ g, Memory.readBytes? s.ibuf (s.pos.toNat - s.cnt.toNat) s.cnt.toNat = some g ∧
    s.acc = udec g ∧ ((∀ signed, m ≠ .single signed) → ∀ b ∈ g, contBit b = true)
  single : ∀ signed, m = .single signed →
    s.cnt.toNat = s.pos.toNat ∧ s.olen = 0#32 ∧ s.ilen ≠ 0#32

/-- The state between two words of a batch encoding (R170, R58, R59). -/
structure LoadInv (s : State) : Prop where
  ilenWords : s.ilen.toNat % 8 = 0
  posWords : s.pos.toNat % 8 = 0
  posLe : s.pos.toNat ≤ s.ilen.toNat
  cntZero : s.cnt = 0#4
  accZero : s.acc = 0#64
  olenLe : s.olen.toNat ≤ 10 * (s.pos.toNat / 8)

/-- The state inside an encoding (R171, R172, R58): `CNT` bytes of the group are out and at most
`64 - 7 × CNT` bits are left. -/
structure EmitInv (after : Phase) (s : State) : Prop where
  cntLe : s.cnt.toNat ≤ 9
  accLt : s.acc.toNat < 2 ^ (64 - 7 * s.cnt.toNat)
  single : after = .idle → s.pos = 0#32 ∧ s.olen.toNat = s.cnt.toNat
  batch : after = .load → s.ilen.toNat % 8 = 0 ∧ s.pos.toNat % 8 = 0 ∧ 8 ≤ s.pos.toNat ∧
    s.pos.toNat ≤ s.ilen.toNat ∧ s.olen.toNat ≤ 10 * (s.pos.toNat / 8 - 1) + s.cnt.toNat

/-- What holds in each phase. -/
def PhaseInv (s : State) : Prop :=
  match s.phase with
  | .idle => True
  | .scan => ∃ m, scanMode s.op = some m ∧ ScanInv m s
  | .load => (loadSigned s.op).isSome = true ∧ LoadInv s
  | .emit => ∃ after, phaseAfterGroup s.op = some after ∧ EmitInv after s

/-- The invariant of the machine. It says of every state of a run that both memories are in
canonical form and inside their buffers, that lengths are legal (R25, R26), that every byte below
`OLEN` has been written (R62), that `CNT` is in its range (R30), that `CMD` shows `OP` (R28), that a
busy core has no error (R23), that `ERRPOS` is 0 unless the outcome uses it (R27), and what each
phase's registers hold. -/
structure State.Inv (s : State) : Prop where
  ibufWf : Memory.wf Config.ibufCap s.ibuf = true
  obufWf : Memory.wf Config.obufCap s.obuf = true
  ilenLe : s.ilen.toNat ≤ Config.ibufCap
  olenLe : s.olen.toNat ≤ Config.obufCap
  outputWritten : ∀ a, a < s.olen.toNat → (Memory.read? s.obuf a).isSome = true
  cntLe : s.cnt.toNat ≤ 10
  opIsCmd : s.op = s.cmd.extractLsb' 0 4
  busyOk : s.phase ≠ .idle → s.err = .ok
  errposZero : s.err ≠ .truncatedGroup → s.err ≠ .overflow → s.errpos = 0#32
  phaseInv : PhaseInv s

end Sys2Proof.Machine
end

