-- ==== Sys2Proof/WellFormed.lean ====
section
/-! DEFINITION. Well-formed instructions, groups, streams and host lines (00_scope.md R18,
30_encoding.md R72 to R75, 10_state.md R25, R33). -/

namespace Sys2Proof

/-- A command has no operand field (R77) and the payload of a varint byte has seven bits by its
type (R71), so there is nothing left to check in an instruction. -/
def Instr.wellFormed : Instr → Bool
  | .uenc | .senc | .udec | .sdec | .zze | .zzd | .seg | .uencs | .sencs | .udecs | .sdecs => true
  | .vbCont _ | .vbLast _ => true

/-- A complete group: continuation bytes and then one final byte (00_scope.md R18). -/
def completeGroup : List Byte → Bool
  | [] => false
  | [b] => !Machine.contBit b
  | b :: b' :: bs => Machine.contBit b && completeGroup (b' :: bs)

/-- A well-formed group: a complete group of 1 to 10 bytes (R18). -/
def wellFormedGroup (g : List Byte) : Bool := completeGroup g && decide (g.length ≤ 10)

/-- A minimal group: a well-formed group that is the encoding of some value (R18): it has one byte
or its last byte is not zero, and a tenth byte carries value bit 63 only (R72; log entry 20). -/
def minimalGroup (g : List Byte) : Bool :=
  wellFormedGroup g && (decide (g.length = 1) || g.getLast? != some 0#8)
    && (decide (g.length ≠ 10) || g.getLast? == some 1#8)

/-- A stream of well-formed groups with nothing left over (30_encoding.md R75). -/
def wellFormedStream (s : List Byte) : Bool :=
  (Machine.seg s).1.all wellFormedGroup && (Machine.seg s).2.isEmpty

/-- A host line whose addresses exist (R33) and whose `ILEN` value is legal (R25). -/
def HostAction.wellFormed : HostAction → Bool
  | .wrIlen n => decide (n.toNat ≤ Config.ibufCap)
  | .wrIbuf a _ => decide (a < Config.ibufCap)
  | .wrObuf a _ => decide (a < Config.obufCap)
  | .rdIbuf a => decide (a < Config.ibufCap)
  | .rdObuf a => decide (a < Config.obufCap)
  | .wrCmd _ | .wrVal _ | .wrStatus _ | .wrOlen _ | .wrErrpos _ | .rd _ | .wait => true

end Sys2Proof
end

