-- ==== Sys2Proof/Certificates/Slice0/Obligations.lean ====
section
/-! DEFINITION. The statements for the provers. Statements about hidden registers (10_state.md R32)
speak of the step level of 45_sequencer.md, not of what a host can see. A statement that mentions
`Config.ibufCap` or `Config.obufCap` holds for every pair of capacities 00_scope.md R9 allows, and one
that mentions `Config.freeValue` for every value of it. -/

open Sys2Proof Sys2Proof.Machine

/-! ### Encodings -/

/-- Eleven command bytes of 30_encoding.md R77 and some varint bytes of R71, written out. -/
def Obligations.WrittenOutBytesDecode : Prop :=
  decodeCommand 0x00#8 = .ok .uenc ∧ decodeCommand 0x01#8 = .ok .senc ∧
  decodeCommand 0x02#8 = .ok .udec ∧ decodeCommand 0x03#8 = .ok .sdec ∧
  decodeCommand 0x04#8 = .ok .zze ∧ decodeCommand 0x05#8 = .ok .zzd ∧
  decodeCommand 0x06#8 = .ok .seg ∧ decodeCommand 0x08#8 = .ok .uencs ∧
  decodeCommand 0x09#8 = .ok .sencs ∧ decodeCommand 0x0A#8 = .ok .udecs ∧
  decodeCommand 0x0B#8 = .ok .sdecs ∧
  decodeVarintByte 0xAC#8 = .vbCont 0x2C#7 ∧ decodeVarintByte 0x80#8 = .vbCont 0#7 ∧
  decodeVarintByte 0x02#8 = .vbLast 0x02#7 ∧ decodeVarintByte 0x7F#8 = .vbLast 0x7F#7

/-- 30_encoding.md R84, R80: exactly eleven of the 256 bytes are commands. -/
def Obligations.ExactlyElevenBytesAreCommands : Prop :=
  ∀ c : Byte, (∃ i, decodeCommand c = .ok i) ↔
    c ∈ [0x00#8, 0x01#8, 0x02#8, 0x03#8, 0x04#8, 0x05#8, 0x06#8, 0x08#8, 0x09#8, 0x0A#8, 0x0B#8]

/-- Decoding undoes encoding for every instruction with every payload, and a byte that decodes is
the encoding of what it decodes to (30_encoding.md R71, R77, R79). -/
def Obligations.DecodeAndEncodeAgree : Prop :=
  (∀ (i : Instr) (rest : List Byte), decode (formatOf i) (encode i ++ rest) = .ok (i, rest)) ∧
  (∀ (f : Format) (bytes rest : List Byte) (i : Instr), decode f bytes = .ok (i, rest) →
    formatOf i = f ∧ bytes = encode i ++ rest)

/-! ### The pure functions -/

/-- 40_uenc.md R92 with 30_encoding.md R73 and R74: the length is the least number of seven-bit
slices that holds the value, the last byte is not zero, all bytes but the last have bit 7 set, and
decoding gives the value back. (f), totality, is in `uenc` being a function. -/
def Obligations.UencIsMinimalWellFormedAndInvertible : Prop :=
  (∀ v : Word, 1 ≤ (uenc v).length ∧ (uenc v).length ≤ 10) ∧
  (∀ v : Word, v.toNat < 2 ^ 7 → (uenc v).length = 1) ∧
  (∀ (v : Word) (n : Nat), 2 ≤ n → 2 ^ (7 * (n - 1)) ≤ v.toNat → v.toNat < 2 ^ (7 * n) →
    (uenc v).length = n) ∧
  uenc 0#64 = [0x00#8] ∧
  (∀ v : Word, v ≠ 0#64 → (uenc v).getLast? ≠ some 0#8) ∧
  (∀ v : Word, completeGroup (uenc v) = true) ∧
  (∀ v : Word, udec (uenc v) = v) ∧
  (∀ v w : Word, uenc v = uenc w → v = w)

/-- 30_encoding.md R72: byte `i` carries value bits `7i+6 : 7i`; `C` is 1 on all bytes but the last;
no value bit lies at or above `7n`. -/
def Obligations.GroupByteCarriesItsSevenValueBits : Prop :=
  ∀ (u : Word) (i : Nat) (g : Byte), (uenc u)[i]? = some g →
    (payload g).toNat = u.toNat / 2 ^ (7 * i) % 2 ^ 7 ∧
    (contBit g = true ↔ i + 1 < (uenc u).length) ∧
    u.toNat < 2 ^ (7 * (uenc u).length)

/-- 00_scope.md R18, 41_udec.md R105 (b): a sequence is a minimal group exactly when it is the encoding
of some value, and then, and only then, decoding and encoding again gives it back. -/
def Obligations.MinimalGroupsAreTheEncodings : Prop :=
  ∀ s : List Byte, s.length ≤ 10 →
    (minimalGroup s = true ↔ ∃ v, uenc v = s) ∧ (minimalGroup s = true ↔ uenc (udec s) = s)

/-- 41_udec.md R104, R105 (c), 30_encoding.md R81 (a): only payloads count, a tenth byte gives value
bit 63 alone, and padding with a zero final byte changes nothing. -/
def Obligations.UdecReadsPayloadsOnly : Prop :=
  (∀ s t : List Byte, s.length ≤ 10 → s.map payload = t.map payload → udec s = udec t) ∧
  (∀ (s : List Byte) (b : Byte), s.length = 9 →
    udec (s ++ [b]) = udec s ||| (if b.getLsbD 0 then 0x8000000000000000#64 else 0#64)) ∧
  (∀ (s : List Byte) (b : Byte), s.length ≤ 9 → payload b = 0#7 → udec (s ++ [b]) = udec s) ∧
  udec [] = 0#64

/-- 42_zigzag.md R111: a bijection, even for non-negative and odd for negative values, in closed
form, with the named values and the boundaries. -/
def Obligations.ZigzagMapsInClosedForm : Prop :=
  (∀ v w : Word, zz v = zz w → v = w) ∧ (∀ u : Word, ∃ v, zz v = u) ∧
  (∀ v : Word, ((zz v).toNat : Int) = if 0 ≤ v.toInt then 2 * v.toInt else -2 * v.toInt - 1) ∧
  zz 0#64 = 0#64 ∧ zz (-1#64) = 1#64 ∧ zz 1#64 = 2#64 ∧ zz (-2#64) = 3#64 ∧
  zz 0x7FFFFFFFFFFFFFFF#64 = 0xFFFFFFFFFFFFFFFE#64 ∧
  zz 0x8000000000000000#64 = 0xFFFFFFFFFFFFFFFF#64

/-- 42_zigzag.md R113: `unzz` is the inverse of `zz` on both sides, in closed form, with the named
values. -/
def Obligations.UnzigzagInvertsZigzag : Prop :=
  (∀ v : Word, unzz (zz v) = v) ∧ (∀ u : Word, zz (unzz u) = u) ∧
  (∀ u : Word, (unzz u).toInt =
    if u.toNat % 2 = 0 then ((u.toNat / 2 : Nat) : Int) else -(((u.toNat + 1) / 2 : Nat) : Int)) ∧
  unzz 0#64 = 0#64 ∧ unzz 1#64 = -1#64 ∧ unzz 2#64 = 1#64 ∧ unzz 3#64 = -2#64 ∧
  unzz 0xFFFFFFFFFFFFFFFF#64 = 0x8000000000000000#64 ∧
  unzz 0xFFFFFFFFFFFFFFFE#64 = 0x7FFFFFFFFFFFFFFF#64

/-- 43_segmenter.md R128 (a) to (g). -/
def Obligations.SegCutsWithoutLoss : Prop :=
  (∀ s : List Byte, (seg s).1.flatten ++ (seg s).2 = s) ∧
  (∀ s g : List Byte, g ∈ (seg s).1 → completeGroup g = true) ∧
  (∀ s : List Byte, (∀ b ∈ (seg s).2, contBit b = true) ∧
    ((seg s).2 = [] ↔ s = [] ∨ ∃ b, s.getLast? = some b ∧ contBit b = false)) ∧
  (∀ s : List Byte, (seg s).1.length = s.countP (fun b => !contBit b)) ∧
  (∀ s t : List Byte, s.map contBit = t.map contBit →
    (seg s).1.map List.length = (seg t).1.map List.length) ∧
  (∀ n : Nat, (seg (List.replicate n 0x80#8 ++ [0x00#8])).1 =
    [List.replicate n 0x80#8 ++ [0x00#8]]) ∧
  (∀ vs : List Word, seg (vs.flatMap uenc) = (vs.map uenc, []))

/-- 43_segmenter.md R126, 60_exceptions.md R192, R193, R195: what `scan` accepts, and which outcome
it gives where. -/
def Obligations.ScanEndsAtTheFirstError : Prop :=
  ∀ (s : List Byte) (gs : List (List Byte)) (e : ErrCode) (p : Nat), scan s = (gs, e, p) →
    (∀ g ∈ gs, wellFormedGroup g = true) ∧ (∃ rest, s = gs.flatten ++ rest ∧
      (e = .ok → rest = [] ∧ p = 0) ∧
      (e = .truncatedGroup → p = gs.flatten.length ∧ 1 ≤ rest.length ∧ rest.length ≤ 10 ∧
        ∀ b ∈ rest, contBit b = true) ∧
      (e = .overflow → p = gs.flatten.length + 10 ∧ p < s.length ∧
        ∀ b ∈ rest.take 10, contBit b = true)) ∧
    (e = .ok ∨ e = .truncatedGroup ∨ e = .overflow)

/-! ### Reset and status -/

/-- 10_state.md R37, 70_reset_and_hazards.md R221: what reset leaves. No byte of either buffer has a
value. -/
def Obligations.ResetLeavesRegistersZero : Prop :=
  State.reset.cmd = 0#8 ∧ State.reset.status = 0#8 ∧ State.reset.err = .ok ∧
  State.reset.val = 0#64 ∧ State.reset.ilen = 0#32 ∧ State.reset.olen = 0#32 ∧
  State.reset.errpos = 0#32 ∧ State.reset.op = 0#4 ∧ State.reset.phase = .idle ∧
  State.reset.pos = 0#32 ∧ State.reset.cnt = 0#4 ∧ State.reset.acc = 0#64 ∧
  (∀ a, Memory.read? State.reset.ibuf a = none) ∧ (∀ a, Memory.read? State.reset.obuf a = none) ∧
  step State.reset = .next State.reset

/-- 70_reset_and_hazards.md R220: reset in any state, also in the middle of an operation. -/
def Obligations.ResetEventAbandonsTheOperation : Prop :=
  ∀ (s : State) (rest : List Event), s.agenda = .reset :: rest →
    ∃ t, step s = .next t ∧ SameBlock t State.reset ∧ t.agenda = rest ∧ t.readings = s.readings

/-- 10_state.md R23, 60_exceptions.md R190: the bits of `STATUS`. -/
def Obligations.StatusShowsBusyAndErr : Prop :=
  ∀ s : State, (s.status.getLsbD 7 = true ↔ s.phase ≠ .idle) ∧
    s.status.extractLsb' 3 4 = 0#4 ∧
    s.status.extractLsb' 0 3 = (match s.err with
      | .ok => 0#3
      | .invalidInput => 1#3
      | .truncatedGroup => 2#3
      | .overflow => 3#3
      | .illegalCommand => 4#3)

/-! ### Command start -/

/-- 45_sequencer.md R161 and R162: the common initialisation and the dispatch, for every command
and for a byte that is none. -/
def Obligations.CommandStartInitialisesAndDispatches : Prop :=
  ∀ s : State, s.phase = .idle →
    let start : Byte → State := fun c =>
      { s with cmd := c, op := c.extractLsb' 0 4, err := .ok, errpos := 0#32, olen := 0#32,
               pos := 0#32, cnt := 0#4, acc := 0#64 }
    exec .zze s = .next { start 0x04#8 with val := zz s.val } ∧
    exec .zzd s = .next { start 0x05#8 with val := unzz s.val } ∧
    exec .uenc s = .next { start 0x00#8 with acc := s.val, phase := .emit } ∧
    exec .senc s = .next { start 0x01#8 with acc := zz s.val, phase := .emit } ∧
    exec .udec s = .next (if s.ilen = 0#32 then { start 0x02#8 with err := .invalidInput }
      else { start 0x02#8 with phase := .scan }) ∧
    exec .sdec s = .next (if s.ilen = 0#32 then { start 0x03#8 with err := .invalidInput }
      else { start 0x03#8 with phase := .scan }) ∧
    exec .seg s = .next { start 0x06#8 with phase := .scan } ∧
    exec .udecs s = .next { start 0x0A#8 with phase := .scan } ∧
    exec .sdecs s = .next { start 0x0B#8 with phase := .scan } ∧
    exec .uencs s = .next (if s.ilen.toNat % 8 ≠ 0 then { start 0x08#8 with err := .invalidInput }
      else { start 0x08#8 with phase := .load }) ∧
    exec .sencs s = .next (if s.ilen.toNat % 8 ≠ 0 then { start 0x09#8 with err := .invalidInput }
      else { start 0x09#8 with phase := .load }) ∧
    (∀ c : Byte, c.extractLsb' 4 4 ≠ 0#4 ∨ c ∈ [0x07#8, 0x0C#8, 0x0D#8, 0x0E#8, 0x0F#8] →
      writeCmd c s = .next { start c with err := .illegalCommand })

/-- 30_encoding.md R80, 60_exceptions.md R194: a byte that is no command, written while idle. -/
def Obligations.IllegalByteIsRecordedAndRunsNothing : Prop :=
  ∀ (s : State) (c : Byte) (rest : List Event), s.phase = .idle →
    s.agenda = .host (.wrCmd c) :: rest →
    c.extractLsb' 4 4 ≠ 0#4 ∨ c ∈ [0x07#8, 0x0C#8, 0x0D#8, 0x0E#8, 0x0F#8] →
    step s = .next { s with
      agenda := rest, cmd := c, op := c.extractLsb' 0 4, err := .illegalCommand, errpos := 0#32,
      olen := 0#32, pos := 0#32, cnt := 0#4, acc := 0#64 }

/-- 45_sequencer.md R160, 10_state.md R35: a command written while the core is busy is ignored. -/
def Obligations.CommandWhileBusyIsIgnored : Prop :=
  ∀ s : State, s.phase ≠ .idle →
    (∀ i : Instr, formatOf i = .cmd → exec i s = .next s) ∧
    (∀ (c : Byte) (rest : List Event), s.agenda = .host (.wrCmd c) :: rest →
      step s = .next { s with agenda := rest })

/-- 42_zigzag.md R114, R115: `ZZE` and `ZZD` are over within the command start; `BUSY` never reads
1 and no other register or byte changes. -/
def Obligations.ZigzagCommandsCompleteAtOnce : Prop :=
  ∀ s : State, s.phase = .idle →
    (∃ t, exec .zze s = .next t ∧ RunsTo t 0 t ∧ t.val = zz s.val ∧ t.olen = 0#32 ∧ t.err = .ok ∧
      t.errpos = 0#32 ∧ t.ilen = s.ilen ∧ t.ibuf = s.ibuf ∧ t.obuf = s.obuf) ∧
    (∃ t, exec .zzd s = .next t ∧ RunsTo t 0 t ∧ t.val = unzz s.val ∧ t.olen = 0#32 ∧ t.err = .ok ∧
      t.errpos = 0#32 ∧ t.ilen = s.ilen ∧ t.ibuf = s.ibuf ∧ t.obuf = s.obuf)

/-! ### Steps -/

/-- A step runs the decoded instruction: a host write of a command byte runs that command, and a
`SCAN` step that reads the byte at `POS` runs that byte's class (45_sequencer.md R160, R166). The
step also takes the event it follows off the agenda (log entry 1). -/
def Obligations.StepRunsTheDecodedInstruction : Prop :=
  (∀ (s : State) (c : Byte) (i : Instr) (rest : List Event),
    s.agenda = .host (.wrCmd c) :: rest → decodeCommand c = .ok i →
    step s = exec i { s with agenda := rest }) ∧
  (∀ (s : State) (m : ScanMode) (b : Byte), s.agenda = [] → s.phase = .scan →
    scanMode s.op = some m → s.pos.toNat < s.ilen.toNat → s.pos.toNat < Config.ibufCap →
    Memory.read? s.ibuf s.pos.toNat = some b → step s = exec (decodeVarintByte b) s) ∧
  (∀ (s t : State) (rest : List Event), s.agenda = .core :: rest →
    step { s with agenda := [] } = .next t → step s = .next { t with agenda := rest })

/-- What `decodeTableWord` reads from a word is what the next step runs after `withFetchWord` (the
model's own interface, log entry 16). -/
def Obligations.PlacedWordRunsNext : Prop :=
  ∀ (s : State) (nbits w : Nat) (i : Instr), decodeTableWord nbits w = some i →
    step (s.withFetchWord nbits w) =
      exec i { s.withFetchWord nbits w with agenda := s.agenda }

/-- 45_sequencer.md R165 to R168: what the scanner does with one byte. The stores' room is 20_memory.md
R58's. -/
def Obligations.ScannedByteIsAccumulatedAndClosesItsGroup : Prop :=
  ∀ (s : State) (m : ScanMode) (p : BitVec 7), s.phase = .scan → scanMode s.op = some m →
    let acc' : Word := s.acc ||| shl64 (zext64 p) (7 * s.cnt.toNat)
    (s.cnt = 10#4 →
      exec (.vbCont p) s = .next { s with err := .overflow, errpos := s.pos, phase := .idle } ∧
      exec (.vbLast p) s = .next { s with err := .overflow, errpos := s.pos, phase := .idle }) ∧
    (s.cnt.toNat < 10 →
      exec (.vbCont p) s = .next { s with acc := acc', cnt := s.cnt + 1#4, pos := s.pos + 1#32 } ∧
      (∀ signed, m = .single signed → exec (.vbLast p) s =
        .next { s with acc := acc', cnt := s.cnt + 1#4, pos := s.pos + 1#32 }) ∧
      (m = .lengths → s.olen.toNat + 1 ≤ Config.obufCap → exec (.vbLast p) s =
        .next { s with
          obuf := Memory.write s.obuf s.olen.toNat (BitVec.ofNat 8 (s.cnt.toNat + 1))
          olen := s.olen + 1#32, acc := 0#64, cnt := 0#4, pos := s.pos + 1#32 }) ∧
      (∀ signed, m = .words signed → s.olen.toNat + 8 ≤ Config.obufCap → exec (.vbLast p) s =
        .next { s with
          obuf := Memory.writeBytes s.obuf s.olen.toNat
            (be64 (if signed = true then unzz acc' else acc'))
          olen := s.olen + 8#32, acc := 0#64, cnt := 0#4, pos := s.pos + 1#32 }))

/-- Where no `SCAN` step reads it, a varint byte is data and nothing happens (the model's choice,
log entry 3; 20_memory.md R65). -/
def Obligations.VarintByteOutsideScanDoesNothing : Prop :=
  ∀ (s : State) (p : BitVec 7), s.phase ≠ .scan →
    exec (.vbCont p) s = .next s ∧ exec (.vbLast p) s = .next s

/-- 45_sequencer.md R169: the closing `SCAN` step. -/
def Obligations.ScanClosesAtTheEndOfInput : Prop :=
  ∀ s : State, s.agenda = [] → s.phase = .scan → s.pos = s.ilen →
    (s.op = 0x2#4 → step s = .next { s with val := s.acc, phase := .idle }) ∧
    (s.op = 0x3#4 → step s = .next { s with val := unzz s.acc, phase := .idle }) ∧
    (s.op ∈ [0x6#4, 0xA#4, 0xB#4] → step s = .next
      (if s.cnt ≠ 0#4 then
        { s with err := .truncatedGroup, errpos := s.pos - s.cnt.setWidth 32, phase := .idle }
      else { s with phase := .idle }))

/-- 45_sequencer.md R165, 60_exceptions.md R193: a byte present while the group is full is `Overflow`,
whether or not the host has written that byte. -/
def Obligations.FullGroupOverflowsUnread : Prop :=
  ∀ s : State, s.agenda = [] → s.phase = .scan → s.op ∈ [0x2#4, 0x3#4, 0x6#4, 0xA#4, 0xB#4] →
    s.pos.toNat < s.ilen.toNat → s.cnt = 10#4 →
    step s = .next { s with err := .overflow, errpos := s.pos, phase := .idle }

/-- 45_sequencer.md R170: a `LOAD` step, `UENCS` and `SENCS`. -/
def Obligations.LoadFetchesTheNextWord : Prop :=
  ∀ (s : State) (signed : Bool), s.agenda = [] → s.phase = .load →
    s.op = (if signed = true then 0x9#4 else 0x8#4) →
    (s.pos = s.ilen → step s = .next { s with phase := .idle }) ∧
    (∀ bs : List Byte, s.pos ≠ s.ilen → s.pos.toNat + 8 ≤ Config.ibufCap →
      Memory.readBytes? s.ibuf s.pos.toNat 8 = some bs →
      step s = .next { s with
        acc := if signed = true then zz (fromBe64 bs) else fromBe64 bs
        pos := s.pos + 8#32, phase := .emit })

/-- 45_sequencer.md R171, R172: an `EMIT` step, where `OBUF` has room for one byte (20_memory.md R58
shows that every run has it). -/
def Obligations.EmitStoresOneByte : Prop :=
  ∀ s : State, s.agenda = [] → s.phase = .emit → s.op ∈ [0x0#4, 0x1#4, 0x8#4, 0x9#4] →
    s.olen.toNat + 1 ≤ Config.obufCap →
    (lsr64 s.acc 7 ≠ 0#64 → step s = .next { s with
      obuf := Memory.write s.obuf s.olen.toNat (0x80#8 ||| (s.acc.extractLsb' 0 7).setWidth 8)
      olen := s.olen + 1#32, acc := lsr64 s.acc 7, cnt := s.cnt + 1#4 }) ∧
    (lsr64 s.acc 7 = 0#64 → step s = .next { s with
      obuf := Memory.write s.obuf s.olen.toNat ((s.acc.extractLsb' 0 7).setWidth 8)
      olen := s.olen + 1#32, acc := 0#64, cnt := 0#4
      phase := if s.op = 0x0#4 ∨ s.op = 0x1#4 then .idle else .load })

/-- 30_encoding.md R83, 70_reset_and_hazards.md R231: a waiting host sees `BUSY` fall, and while it
waits the core steps (log entry 13). -/
def Obligations.WaitLastsWhileBusy : Prop :=
  ∀ (s : State) (rest : List Event), s.agenda = .host .wait :: rest →
    (s.phase = .idle → step s = .next { s with agenda := rest }) ∧
    (s.phase ≠ .idle → ∀ t, step s = .next t →
      t.agenda = s.agenda ∧ step { s with agenda := [] } = .next { t with agenda := [] })

/-- Where a step stops: the spec has a model refuse the read of a byte never written (20_memory.md
R60, U5) and an `ILEN` above the capacity (10_state.md R25, U7); an address outside its buffer does
not exist (log entry 8). -/
def Obligations.StopsAreWhereTheSpecRefuses : Prop :=
  (∀ s : State, s.agenda = [] → s.phase = .scan → (scanMode s.op).isSome = true →
    s.pos.toNat < s.ilen.toNat → s.pos.toNat < Config.ibufCap → s.cnt ≠ 10#4 →
    Memory.read? s.ibuf s.pos.toNat = none →
    step s = .refused (.ibufByteNotWritten s.pos.toNat)) ∧
  (∀ (s : State) (n : Len) (rest : List Event), s.agenda = .host (.wrIlen n) :: rest →
    s.phase = .idle → Config.ibufCap < n.toNat → step s = .refused .ilenAboveCapacity) ∧
  (∀ (s : State) (a : Nat) (b : Byte) (rest : List Event),
    s.agenda = .host (.wrIbuf a b) :: rest → Config.ibufCap ≤ a → step s = .fault .noSuchAddress) ∧
  (∀ (s : State) (a : Nat) (rest : List Event),
    s.agenda = .host (.rdObuf a) :: rest → Config.obufCap ≤ a → step s = .fault .noSuchAddress)

/-! ### Host access -/

/-- 10_state.md R35: host writes. While idle they store; while busy, and on read-only state always,
they are ignored. -/
def Obligations.HostWritesStoreOnlyWhileIdle : Prop :=
  ∀ (s : State) (rest : List Event),
    let s' : State := { s with agenda := rest }
    (∀ v, s.agenda = .host (.wrVal v) :: rest →
      step s = .next (if s.phase = .idle then { s' with val := v } else s')) ∧
    (∀ n, s.agenda = .host (.wrIlen n) :: rest → n.toNat ≤ Config.ibufCap →
      step s = .next (if s.phase = .idle then { s' with ilen := n } else s')) ∧
    (∀ n, s.agenda = .host (.wrIlen n) :: rest → s.phase ≠ .idle → step s = .next s') ∧
    (∀ a b, s.agenda = .host (.wrIbuf a b) :: rest → a < Config.ibufCap →
      step s = .next (if s.phase = .idle then { s' with ibuf := Memory.write s.ibuf a b } else s')) ∧
    (∀ v, s.agenda = .host (.wrStatus v) :: rest → step s = .next s') ∧
    (∀ n, s.agenda = .host (.wrOlen n) :: rest → step s = .next s') ∧
    (∀ n, s.agenda = .host (.wrErrpos n) :: rest → step s = .next s') ∧
    (∀ a b, s.agenda = .host (.wrObuf a b) :: rest → a < Config.obufCap → step s = .next s')

/-- 10_state.md R35, R33, U6, U8, U11: host reads. `STATUS` always reads true; while idle the stored
value comes back; every other read gives an unspecified value of the cell's width. No read changes
the block. How a read is recorded is the model's (log entries 7, 12). -/
def Obligations.HostReadsReturnStoredOrFreeValues : Prop :=
  ∀ (s : State) (rest : List Event),
    let s' : State := { s with agenda := rest }
    let free : Source → Nat → State := fun src n =>
      { s' with
        readings := ⟨src, ((Config.freeValue s.freeIdx).setWidth n).setWidth 64⟩ :: s.readings
        freeIdx := s.freeIdx + 1 }
    (s.agenda = .host (.rd .status) :: rest → step s =
      .next { s' with readings := ⟨.reg .status, s.status.setWidth 64⟩ :: s.readings }) ∧
    (s.phase = .idle →
      (s.agenda = .host (.rd .cmd) :: rest → step s =
        .next { s' with readings := ⟨.reg .cmd, s.cmd.setWidth 64⟩ :: s.readings }) ∧
      (s.agenda = .host (.rd .val) :: rest → step s =
        .next { s' with readings := ⟨.reg .val, s.val⟩ :: s.readings }) ∧
      (s.agenda = .host (.rd .ilen) :: rest → step s =
        .next { s' with readings := ⟨.reg .ilen, s.ilen.setWidth 64⟩ :: s.readings }) ∧
      (s.agenda = .host (.rd .olen) :: rest → step s =
        .next { s' with readings := ⟨.reg .olen, s.olen.setWidth 64⟩ :: s.readings }) ∧
      (s.agenda = .host (.rd .errpos) :: rest → step s =
        .next { s' with readings := ⟨.reg .errpos, s.errpos.setWidth 64⟩ :: s.readings }) ∧
      (∀ a b, s.agenda = .host (.rdIbuf a) :: rest → a < Config.ibufCap →
        Memory.read? s.ibuf a = some b → step s =
          .next { s' with readings := ⟨.ibuf a, b.setWidth 64⟩ :: s.readings }) ∧
      (∀ a b, s.agenda = .host (.rdObuf a) :: rest → a < Config.obufCap → a < s.olen.toNat →
        Memory.read? s.obuf a = some b → step s =
          .next { s' with readings := ⟨.obuf a, b.setWidth 64⟩ :: s.readings }) ∧
      (∀ a, s.agenda = .host (.rdIbuf a) :: rest → a < Config.ibufCap →
        Memory.read? s.ibuf a = none → step s = .next (free (.ibuf a) 8)) ∧
      (∀ a, s.agenda = .host (.rdObuf a) :: rest → a < Config.obufCap → s.olen.toNat ≤ a →
        step s = .next (free (.obuf a) 8))) ∧
    (s.phase ≠ .idle →
      (∀ r, r ≠ .status → s.agenda = .host (.rd r) :: rest →
        step s = .next (free (.reg r) r.width)) ∧
      (∀ a, s.agenda = .host (.rdIbuf a) :: rest → a < Config.ibufCap →
        step s = .next (free (.ibuf a) 8)) ∧
      (∀ a, s.agenda = .host (.rdObuf a) :: rest → a < Config.obufCap →
        step s = .next (free (.obuf a) 8)))

/-- 10_state.md R35, 20_memory.md R63: while the core is busy, no host action changes the block. -/
def Obligations.BusyBlockIsNotTheHosts : Prop :=
  ∀ (s t : State) (a : HostAction) (rest : List Event), s.phase ≠ .idle → a ≠ .wait →
    s.agenda = .host a :: rest → step s = .next t → SameBlock s t ∧ t.agenda = rest

/-! ### What stays unchanged -/

/-- Frame of the commands (10_state.md R21, R25, R33, 45_sequencer.md R161): a command start leaves
`ILEN`, every byte of both buffers and the outside world as they are, and `VAL` too unless it is `ZZE`
or `ZZD`. -/
def Obligations.CommandStartFrame : Prop :=
  ∀ (i : Instr) (s t : State), formatOf i = .cmd → exec i s = .next t →
    t.ilen = s.ilen ∧ (i ≠ .zze → i ≠ .zzd → t.val = s.val) ∧
    (∀ a, Memory.read? t.ibuf a = Memory.read? s.ibuf a) ∧
    (∀ a, Memory.read? t.obuf a = Memory.read? s.obuf a) ∧
    t.agenda = s.agenda ∧ t.readings = s.readings ∧ t.freeIdx = s.freeIdx

/-- Frame of the varint bytes (45_sequencer.md R165 to R168): `CMD`, `VAL`, `ILEN`, `OP` and every
byte of `IBUF` are unchanged; `OBUF` changes only at the bytes stored, from `OLEN` on; `ERR`, `ERRPOS`
and `PHASE` change only on `Overflow`. -/
def Obligations.VarintByteFrame : Prop :=
  ∀ (i : Instr) (s t : State), formatOf i = .vb → exec i s = .next t →
    t.cmd = s.cmd ∧ t.val = s.val ∧ t.ilen = s.ilen ∧ t.op = s.op ∧
    (∀ a, Memory.read? t.ibuf a = Memory.read? s.ibuf a) ∧
    (∀ p, i = .vbCont p → t.olen = s.olen ∧ ∀ a, Memory.read? t.obuf a = Memory.read? s.obuf a) ∧
    (∃ n, n ∈ [0, 1, 8] ∧ t.olen = s.olen + BitVec.ofNat 32 n ∧
      ∀ a, a < s.olen.toNat ∨ s.olen.toNat + n ≤ a →
        Memory.read? t.obuf a = Memory.read? s.obuf a) ∧
    (s.cnt ≠ 10#4 → t.err = s.err ∧ t.errpos = s.errpos ∧ t.phase = s.phase) ∧
    t.agenda = s.agenda ∧ t.readings = s.readings ∧ t.freeIdx = s.freeIdx

/-- 20_memory.md R57, R58, R62, 10_state.md R22, R25, R26, R33: every step of the core leaves `CMD`,
`ILEN`, `OP` and `IBUF` alone, moves `POS` on by 0, 1 or 8, and stores 0, 1 or 8 bytes at `OLEN`,
which moves on by as much; every other byte of `OBUF` is unchanged. -/
def Obligations.CoreStepsReadForwardAndAppend : Prop :=
  ∀ s t : State, s.agenda = [] → step s = .next t →
    t.cmd = s.cmd ∧ t.ilen = s.ilen ∧ t.op = s.op ∧ t.ibuf = s.ibuf ∧
    (∃ k, k ∈ [0, 1, 8] ∧ t.pos = s.pos + BitVec.ofNat 32 k) ∧
    (∃ n, n ∈ [0, 1, 8] ∧ t.olen = s.olen + BitVec.ofNat 32 n ∧
      (∀ a, a < s.olen.toNat ∨ s.olen.toNat + n ≤ a →
        Memory.read? t.obuf a = Memory.read? s.obuf a) ∧
      (∀ k, k < n → (Memory.read? t.obuf (s.olen.toNat + k)).isSome = true)) ∧
    (t.val = s.val ∨ (s.op ∈ [0x2#4, 0x3#4] ∧ s.phase = .scan ∧ t.phase = .idle ∧ t.err = s.err))

/-- 45_sequencer.md R177: every change of `PHASE` by a step of the core. -/
def Obligations.PhaseChangesAreTheTables : Prop :=
  ∀ s t : State, s.agenda = [] → step s = .next t →
    match s.phase with
    | .idle => t = s
    | .scan => (t.phase = .scan ∧ s.pos.toNat < s.ilen.toNat) ∨
        (t.phase = .idle ∧ s.pos = s.ilen) ∨
        (t.phase = .idle ∧ t.err = .overflow ∧ s.pos.toNat < s.ilen.toNat)
    | .load => (t.phase = .emit ∧ s.pos ≠ s.ilen) ∨ (t.phase = .idle ∧ s.pos = s.ilen)
    | .emit => (t.phase = .emit ∧ 2 ^ 7 ≤ s.acc.toNat) ∨
        (t.phase = .idle ∧ s.acc.toNat < 2 ^ 7 ∧ s.op ∈ [0x0#4, 0x1#4]) ∨
        (t.phase = .load ∧ s.acc.toNat < 2 ^ 7 ∧ s.op ∈ [0x8#4, 0x9#4])

/-! ### Errors -/

/-- 60_exceptions.md R196, R198: when a step of the core records an error, it writes `ERR`, `ERRPOS`
and `PHASE` and nothing else, and the error is one a scan can raise. -/
def Obligations.CoreErrorsArePrecise : Prop :=
  ∀ s t : State, s.agenda = [] → s.err = .ok → step s = .next t → t.err ≠ .ok →
    t = { s with err := t.err, errpos := t.errpos, phase := .idle } ∧ s.phase = .scan ∧
    ((t.err = .overflow ∧ t.errpos = s.pos ∧ s.cnt = 10#4) ∨
      (t.err = .truncatedGroup ∧ t.errpos = s.pos - s.cnt.setWidth 32 ∧ s.pos = s.ilen ∧
        s.op ∈ [0x6#4, 0xA#4, 0xB#4]))

/-- 60_exceptions.md R197: an idle core's outcome stays until the next command start or reset. -/
def Obligations.OutcomeStaysUntilTheNextStart : Prop :=
  ∀ s t : State, s.phase = .idle → step s = .next t →
    (∀ c rest, s.agenda ≠ .host (.wrCmd c) :: rest) → (∀ rest, s.agenda ≠ .reset :: rest) →
    t.err = s.err ∧ t.errpos = s.errpos ∧ t.olen = s.olen ∧ t.cmd = s.cmd ∧ t.phase = .idle ∧
    t.obuf = s.obuf

/-! ### The invariant -/

/-- The state after reset meets the invariant. -/
def Obligations.ResetMeetsTheInvariant : Prop := State.reset.Inv

/-- Every step from every state that meets the invariant, whatever the host does, gives a state that
meets it. -/
def Obligations.EveryStepKeepsTheInvariant : Prop :=
  ∀ s t : State, s.Inv → step s = .next t → t.Inv

/-- 45_sequencer.md R164, 20_memory.md R58: in every state that meets the invariant the core has a
step, no access leaves a buffer, and the only stop is the refusal of an unwritten input byte. -/
def Obligations.CoreNeverSticksNorLeavesABuffer : Prop :=
  ∀ s : State, s.Inv → s.agenda = [] →
    (∃ t, step s = .next t) ∨
    (∃ a, a < s.ilen.toNat ∧ Memory.read? s.ibuf a = none ∧
      step s = .refused (.ibufByteNotWritten a))

/-- 45_sequencer.md R174: every run ends, within the bound the rule gives, from every state that
meets the invariant and whose input is written. -/
def Obligations.EveryRunEnds : Prop :=
  ∀ (s : State) (input : List Byte), s.Inv → s.agenda = [] → InputIs s input →
    ∃ n u, n ≤ max (max (s.ilen.toNat + 1) (s.ilen.toNat / 8 + 1 + 10 * (s.ilen.toNat / 8))) 10 ∧
      RunsTo s n u

/-! ### Operations, run to completion -/

/-- 40_uenc.md R91, 42_zigzag.md R116: `UENC` and `SENC`. -/
def Obligations.UencAndSencWriteTheGroup : Prop :=
  ∀ s : State, s.phase = .idle → s.agenda = [] →
    (∃ t u, exec .uenc s = .next t ∧ RunsTo t (uenc s.val).length u ∧
      Memory.readBytes? u.obuf 0 u.olen.toNat = some (uenc s.val) ∧
      u.olen.toNat = (uenc s.val).length ∧ u.err = .ok ∧ u.errpos = 0#32 ∧ u.val = s.val ∧
      u.ilen = s.ilen ∧ u.ibuf = s.ibuf ∧
      ∀ a, u.olen.toNat ≤ a → Memory.read? u.obuf a = Memory.read? s.obuf a) ∧
    (∃ t u, exec .senc s = .next t ∧ RunsTo t (uenc (zz s.val)).length u ∧
      Memory.readBytes? u.obuf 0 u.olen.toNat = some (uenc (zz s.val)) ∧
      u.olen.toNat = (uenc (zz s.val)).length ∧ u.err = .ok ∧ u.errpos = 0#32 ∧ u.val = s.val ∧
      u.ilen = s.ilen ∧ u.ibuf = s.ibuf ∧
      ∀ a, u.olen.toNat ≤ a → Memory.read? u.obuf a = Memory.read? s.obuf a)

/-- 41_udec.md R101, 42_zigzag.md R117: `UDEC` and `SDEC`, in all three cases. -/
def Obligations.UdecAndSdecDecodeTheGroup : Prop :=
  ∀ (s : State) (input : List Byte), s.phase = .idle → s.agenda = [] → InputIs s input →
    ∃ t u t' u', exec .udec s = .next t ∧ exec .sdec s = .next t' ∧
      (s.ilen.toNat = 0 → RunsTo t 0 u ∧ RunsTo t' 0 u' ∧
        u.err = .invalidInput ∧ u.errpos = 0#32 ∧ u.val = s.val ∧
        u'.err = .invalidInput ∧ u'.errpos = 0#32 ∧ u'.val = s.val) ∧
      (10 < s.ilen.toNat → RunsTo t 11 u ∧ RunsTo t' 11 u' ∧
        u.err = .overflow ∧ u.errpos = 10#32 ∧ u.val = s.val ∧
        u'.err = .overflow ∧ u'.errpos = 10#32 ∧ u'.val = s.val) ∧
      (1 ≤ s.ilen.toNat → s.ilen.toNat ≤ 10 →
        RunsTo t (s.ilen.toNat + 1) u ∧ RunsTo t' (s.ilen.toNat + 1) u' ∧
        u.err = .ok ∧ u.errpos = 0#32 ∧ u.val = udec input ∧
        u'.err = .ok ∧ u'.errpos = 0#32 ∧ u'.val = unzz (udec input)) ∧
      u.olen = 0#32 ∧ u.obuf = s.obuf ∧ u.ilen = s.ilen ∧ u.ibuf = s.ibuf ∧
      u'.olen = 0#32 ∧ u'.obuf = s.obuf ∧ u'.ilen = s.ilen ∧ u'.ibuf = s.ibuf

/-- 43_segmenter.md R127: `SEG`. -/
def Obligations.SegWritesTheGroupLengths : Prop :=
  ∀ (s : State) (input : List Byte) (gs : List (List Byte)) (e : ErrCode) (p : Nat),
    s.phase = .idle → s.agenda = [] → InputIs s input → scan input = (gs, e, p) →
    ∃ t u, exec .seg s = .next t ∧
      RunsTo t (if e = .overflow then p + 1 else s.ilen.toNat + 1) u ∧
      Memory.readBytes? u.obuf 0 u.olen.toNat =
        some (gs.map fun g => BitVec.ofNat 8 g.length) ∧
      u.olen.toNat = gs.length ∧ u.err = e ∧ u.errpos.toNat = p ∧
      u.val = s.val ∧ u.ilen = s.ilen ∧ u.ibuf = s.ibuf ∧
      ∀ a, u.olen.toNat ≤ a → Memory.read? u.obuf a = Memory.read? s.obuf a

/-- 44_stream.md R140, R141: `UDECS` and `SDECS`. -/
def Obligations.UdecsAndSdecsWriteTheWords : Prop :=
  ∀ (s : State) (input : List Byte) (gs : List (List Byte)) (e : ErrCode) (p : Nat),
    s.phase = .idle → s.agenda = [] → InputIs s input → scan input = (gs, e, p) →
    (∃ t u, exec .udecs s = .next t ∧
      RunsTo t (if e = .overflow then p + 1 else s.ilen.toNat + 1) u ∧
      Memory.readBytes? u.obuf 0 u.olen.toNat = some (gs.flatMap fun g => be64 (udec g)) ∧
      u.olen.toNat = 8 * gs.length ∧ u.err = e ∧ u.errpos.toNat = p ∧
      u.val = s.val ∧ u.ilen = s.ilen ∧ u.ibuf = s.ibuf ∧
      ∀ a, u.olen.toNat ≤ a → Memory.read? u.obuf a = Memory.read? s.obuf a) ∧
    (∃ t u, exec .sdecs s = .next t ∧
      RunsTo t (if e = .overflow then p + 1 else s.ilen.toNat + 1) u ∧
      Memory.readBytes? u.obuf 0 u.olen.toNat = some (gs.flatMap fun g => be64 (unzz (udec g))) ∧
      u.olen.toNat = 8 * gs.length ∧ u.err = e ∧ u.errpos.toNat = p ∧
      u.val = s.val ∧ u.ilen = s.ilen ∧ u.ibuf = s.ibuf ∧
      ∀ a, u.olen.toNat ≤ a → Memory.read? u.obuf a = Memory.read? s.obuf a)

/-- 44_stream.md R144, R145: `UENCS` and `SENCS`. -/
def Obligations.UencsAndSencsWriteTheStream : Prop :=
  ∀ (s : State) (input : List Byte) (signed : Bool), s.phase = .idle → s.agenda = [] →
    InputIs s input →
    let out : List Byte :=
      (wordsOf input).flatMap fun w => if signed = true then uenc (zz w) else uenc w
    ∃ t u, exec (if signed = true then .sencs else .uencs) s = .next t ∧
      (s.ilen.toNat % 8 ≠ 0 → RunsTo t 0 u ∧ u.err = .invalidInput ∧ u.errpos = 0#32 ∧
        u.olen = 0#32 ∧ u.obuf = s.obuf) ∧
      (s.ilen.toNat % 8 = 0 → RunsTo t (s.ilen.toNat / 8 + 1 + out.length) u ∧
        Memory.readBytes? u.obuf 0 u.olen.toNat = some out ∧ u.olen.toNat = out.length ∧
        u.err = .ok ∧ u.errpos = 0#32 ∧
        ∀ a, u.olen.toNat ≤ a → Memory.read? u.obuf a = Memory.read? s.obuf a) ∧
      u.val = s.val ∧ u.ilen = s.ilen ∧ u.ibuf = s.ibuf

/-- 45_sequencer.md R175, R176, 70_reset_and_hazards.md R231, the encodings of one value: the
micro-steps reach exactly the state of the operation rule, hidden registers included, in exactly the
counted steps. -/
def Obligations.EncodeStepsReachTheOperationRule : Prop :=
  ∀ s : State, s.phase = .idle → s.agenda = [] →
    (∃ t, exec .uenc s = .next t ∧ RunsTo t (encodeSteps false s) (encodeEffect 0x00#8 false s)) ∧
    (∃ t, exec .senc s = .next t ∧ RunsTo t (encodeSteps true s) (encodeEffect 0x01#8 true s))

/-- R175, R176, R231 for the decodings of one group. -/
def Obligations.DecodeStepsReachTheOperationRule : Prop :=
  ∀ (s : State) (input : List Byte), s.phase = .idle → s.agenda = [] → InputIs s input →
    (∃ t, exec .udec s = .next t ∧ RunsTo t (decodeSteps s) (decodeEffect 0x02#8 false input s)) ∧
    (∃ t, exec .sdec s = .next t ∧ RunsTo t (decodeSteps s) (decodeEffect 0x03#8 true input s))

/-- R175, R176, R231 for the operations that scan a stream. -/
def Obligations.ScanStepsReachTheOperationRule : Prop :=
  ∀ (s : State) (input : List Byte), s.phase = .idle → s.agenda = [] → InputIs s input →
    (∃ t, exec .seg s = .next t ∧ RunsTo t (scanSteps input) (scanEffect 0x06#8 .lengths input s)) ∧
    (∃ t, exec .udecs s = .next t ∧
      RunsTo t (scanSteps input) (scanEffect 0x0A#8 (.words false) input s)) ∧
    (∃ t, exec .sdecs s = .next t ∧
      RunsTo t (scanSteps input) (scanEffect 0x0B#8 (.words true) input s))

/-- R175, R176, R231 for the batch encodings. -/
def Obligations.BatchStepsReachTheOperationRule : Prop :=
  ∀ (s : State) (input : List Byte), s.phase = .idle → s.agenda = [] → InputIs s input →
    (∃ t, exec .uencs s = .next t ∧
      RunsTo t (batchSteps false input s) (batchEffect 0x08#8 false input s)) ∧
    (∃ t, exec .sencs s = .next t ∧
      RunsTo t (batchSteps true input s) (batchEffect 0x09#8 true input s))

/-! ### Whole-machine claims -/

/-- 10_state.md R34: a command's run depends on its inputs alone. Two idle states that agree on `VAL`,
`ILEN` and the input bytes, whatever earlier operations left in them, answer the same command byte
with the same registers and the same output at every later moment. -/
def Obligations.EarlierOperationsLeaveNoTrace : Prop :=
  ∀ (s₁ s₂ : State) (c : Byte) (input : List Byte) (n : Nat) (t₁ u₁ : State),
    s₁.phase = .idle → s₂.phase = .idle → s₁.agenda = [] → s₂.agenda = [] →
    s₁.val = s₂.val → InputIs s₁ input → InputIs s₂ input →
    writeCmd c s₁ = .next t₁ → run n t₁ = .next u₁ →
    ∃ t₂ u₂, writeCmd c s₂ = .next t₂ ∧ run n t₂ = .next u₂ ∧
      u₂.cmd = u₁.cmd ∧ u₂.status = u₁.status ∧ u₂.val = u₁.val ∧ u₂.ilen = u₁.ilen ∧
      u₂.olen = u₁.olen ∧ u₂.errpos = u₁.errpos ∧ u₂.op = u₁.op ∧ u₂.phase = u₁.phase ∧
      u₂.pos = u₁.pos ∧ u₂.cnt = u₁.cnt ∧ u₂.acc = u₁.acc ∧
      ∀ a, a < u₁.olen.toNat → Memory.read? u₂.obuf a = Memory.read? u₁.obuf a

/-- 42_zigzag.md R118: the signed round trip, as functions and on the block: `SENC`, `COPY`, `SDEC`
leaves `VAL` as it was. -/
def Obligations.SignedRoundTripOnTheBlock : Prop :=
  (∀ v : Word, unzz (udec (uenc (zz v))) = v) ∧
  (∀ s : State, s.phase = .idle → s.agenda = [.host (.wrCmd 0x01#8), .host .wait] →
    ∃ n u out, run n s = .next u ∧ u.phase = .idle ∧ u.agenda = [] ∧
      Memory.readBytes? u.obuf 0 u.olen.toNat = some out ∧
      ∃ k v, run k (u.withProgram (copyLines out ++ [.wrCmd 0x03#8, .wait])) = .next v ∧
        v.phase = .idle ∧ v.agenda = [] ∧ v.err = .ok ∧ v.val = s.val)

/-- 44_stream.md R143 (a): the stream round trip on the block: batch-encode, `COPY`, stream-decode
gives the input words back, unsigned and signed, when the stream fits `IBUF`. -/
def Obligations.StreamRoundTripOnTheBlock : Prop :=
  ∀ (signed : Bool) (s : State) (input : List Byte), s.phase = .idle →
    s.agenda = [.host (.wrCmd (if signed = true then 0x09#8 else 0x08#8)), .host .wait] →
    InputIs s input → s.ilen.toNat % 8 = 0 →
    ∃ n u out, run n s = .next u ∧ u.phase = .idle ∧ u.agenda = [] ∧ u.err = .ok ∧
      Memory.readBytes? u.obuf 0 u.olen.toNat = some out ∧
      (u.olen.toNat ≤ Config.ibufCap →
        ∃ k v, run k (u.withProgram (copyLines out ++ [.wrCmd (if signed = true then 0x0B#8 else 0x0A#8), .wait])) =
            .next v ∧
          v.phase = .idle ∧ v.agenda = [] ∧ v.err = .ok ∧ v.olen = s.ilen ∧
          Memory.readBytes? v.obuf 0 v.olen.toNat = some input)

/-- 30_encoding.md R83: `FILL` on an idle block leaves the bytes at the front of `IBUF`, `ILEN` their
number, and every other byte and register as it was. -/
def Obligations.FillPlacesTheInput : Prop :=
  ∀ (s : State) (bs : List Byte), s.phase = .idle → bs.length ≤ Config.ibufCap →
    s.agenda = program (fillLines bs) →
    ∃ t, run (bs.length + 1) s = .next t ∧ InputIs t bs ∧ t.ilen.toNat = bs.length ∧
      (∀ a, bs.length ≤ a → Memory.read? t.ibuf a = Memory.read? s.ibuf a) ∧
      t = { s with agenda := [], ilen := t.ilen, ibuf := t.ibuf }
end

