-- ==== Sys2Proof/Laws/Codec.lean ====
section
/-! SUPPORT. The laws of varint bytes, of the encoder's and decoder's loops and of words. -/

namespace Sys2Proof.Machine

@[simp] theorem contBit_contByte (p : BitVec 7) : contBit (contByte p) = true := by
  simp [contBit, contByte]

@[simp] theorem contBit_lastByte (p : BitVec 7) : contBit (lastByte p) = false := by
  simp [contBit, lastByte]

@[simp] theorem payload_contByte (p : BitVec 7) : payload (contByte p) = p := by
  ext i hi
  simp [payload, contByte, hi]
  interval_cases i <;> simp

@[simp] theorem payload_lastByte (p : BitVec 7) : payload (lastByte p) = p := by
  ext i hi
  simp [payload, lastByte, hi]
  omega

theorem contByte_payload {b : Byte} (h : contBit b = true) : contByte (payload b) = b := by
  ext i hi
  simp [contBit] at h
  simp [payload, contByte]
  interval_cases i <;> simp_all

theorem lastByte_payload {b : Byte} (h : contBit b = false) : lastByte (payload b) = b := by
  ext i hi
  simp [contBit] at h
  simp [payload, lastByte]
  interval_cases i <;> simp_all

theorem extractLsb'_zero_snoc (w : Word) (b : Byte) :
    (w <<< 8 ||| b.setWidth 64).extractLsb' 0 8 = b := by
  ext i hi
  simp [hi]
  interval_cases i <;> simp

theorem extractLsb'_snoc (w : Word) (b : Byte) (j : Nat) (h : 8 ≤ j) (h' : j + 8 ≤ 64) :
    (w <<< 8 ||| b.setWidth 64).extractLsb' j 8 = w.extractLsb' (j - 8) 8 := by
  ext i hi
  have h1 : ¬ (j + i < 8) := by omega
  have h2 : j + i < 64 := by omega
  have h3 : j + i - 8 = j - 8 + i := by omega
  have h4 : b.getLsbD (j + i) = false := BitVec.getLsbD_of_ge _ _ (by omega)
  simp [h1, h2, h3, h4, ← BitVec.getLsbD_eq_getElem]

theorem be64_fromBe64 (b0 b1 b2 b3 b4 b5 b6 b7 : Byte) :
    be64 (fromBe64 [b0, b1, b2, b3, b4, b5, b6, b7]) = [b0, b1, b2, b3, b4, b5, b6, b7] := by
  simp only [be64, fromBe64, List.foldl, List.cons.injEq, and_true]
  refine ⟨?_, ?_, ?_, ?_, ?_, ?_, ?_, ?_⟩ <;>
    simp only [extractLsb'_snoc, extractLsb'_zero_snoc, Nat.le_refl, Nat.reduceLeDiff, Nat.reduceAdd, Nat.reduceSub]

theorem toNat_low7 (v : Word) : (low7 v).toNat = v.toNat % 2 ^ 7 := by simp [low7]

theorem toNat_lsr64 (v : Word) (n : Nat) : (lsr64 v n).toNat = v.toNat / 2 ^ n := by
  simp [lsr64, Nat.shiftRight_eq_div_pow]

theorem lsr64_seven_eq_zero_iff (v : Word) : lsr64 v 7 = 0#64 ↔ v.toNat < 2 ^ 7 := by
  rw [← BitVec.toNat_inj, toNat_lsr64]
  simp

theorem toNat_zext64 (p : BitVec 7) : (zext64 p).toNat = p.toNat := by
  simp [zext64]; omega

/-- One turn of the encoder's loop. -/
theorem uencTurns_succ (n : Nat) (v : Word) :
    uencTurns (n + 1) v =
      if lsr64 v 7 ≠ 0#64 then contByte (low7 v) :: uencTurns n (lsr64 v 7)
      else [lastByte (low7 v)] := rfl

theorem uencTurns_small {n : Nat} {v : Word} (h : v.toNat < 2 ^ 7) :
    uencTurns (n + 1) v = [lastByte (low7 v)] := by
  rw [uencTurns_succ, if_neg (by simpa using (lsr64_seven_eq_zero_iff v).2 h)]

theorem uencTurns_large {n : Nat} {v : Word} (h : 2 ^ 7 ≤ v.toNat) :
    uencTurns (n + 1) v = contByte (low7 v) :: uencTurns n (lsr64 v 7) := by
  rw [uencTurns_succ, if_pos (by rw [Ne, lsr64_seven_eq_zero_iff]; omega)]

/-- Enough turns give the same bytes. -/
theorem uencTurns_enough {n m : Nat} {v : Word} (h : v.toNat < 2 ^ (7 * (n + 1)))
    (hm : n ≤ m) : uencTurns (m + 1) v = uencTurns (n + 1) v := by
  induction n generalizing m v with
  | zero => rw [uencTurns_small (by simpa using h), uencTurns_small (by simpa using h)]
  | succ n ih =>
    by_cases hs : v.toNat < 2 ^ 7
    · rw [uencTurns_small hs, uencTurns_small hs]
    · obtain ⟨m, rfl⟩ : ∃ k, m = k + 1 := ⟨m - 1, by omega⟩
      rw [uencTurns_large (by omega), uencTurns_large (n := n + 1) (by omega), ih (m := m) _ (by omega)]
      rw [toNat_lsr64]
      rw [show 7 * (n + 1 + 1) = 7 * (n + 1) + 7 by omega, Nat.pow_add] at h
      exact Nat.div_lt_of_lt_mul (by omega)

/-- Exactly `n` turns for a value of `n` seven-bit slices. -/
theorem uencTurns_length {n k : Nat} {v : Word} (hn : n ≤ k) (h : v.toNat < 2 ^ (7 * (n + 1)))
    (h' : n = 0 ∨ 2 ^ (7 * n) ≤ v.toNat) : (uencTurns (k + 1) v).length = n + 1 := by
  induction n generalizing k v with
  | zero => rw [uencTurns_small (by simpa using h)]; rfl
  | succ n ih =>
    obtain ⟨k, rfl⟩ : ∃ j, k = j + 1 := ⟨k - 1, by omega⟩
    have hv : 2 ^ (7 * (n + 1)) ≤ v.toNat := by omega
    have h7 : 2 ^ 7 ≤ v.toNat := Nat.le_trans (Nat.pow_le_pow_right (by omega) (by omega)) hv
    rw [uencTurns_large h7, List.length_cons, ih (by omega)]
    · rw [toNat_lsr64]
      rw [show 7 * (n + 1 + 1) = 7 * (n + 1) + 7 by omega, Nat.pow_add] at h
      exact Nat.div_lt_of_lt_mul (by omega)
    · by_cases h0 : n = 0
      · exact .inl h0
      · right
        rw [toNat_lsr64, Nat.le_div_iff_mul_le (by omega), ← Nat.pow_add]
        exact hv

/-- `udec` from index `i` on adds to the accumulator. -/
theorem udecFrom_acc (i : Nat) (acc : Word) (s : List Byte) :
    udecFrom i acc s = acc ||| udecFrom i 0#64 s := by
  induction s generalizing i acc with
  | nil => simp [udecFrom]
  | cons b s ih =>
    simp only [udecFrom]
    rw [ih, ih (i + 1) (0#64 ||| _)]
    simp [BitVec.or_assoc]

theorem udecFrom_append (i : Nat) (acc : Word) (s t : List Byte) :
    udecFrom i acc (s ++ t) = udecFrom (i + s.length) (udecFrom i acc s) t := by
  induction s generalizing i acc with
  | nil => rfl
  | cons b s ih => simp [udecFrom, ih, Nat.add_assoc, Nat.add_comm 1]

/-- One byte more: its payload at its index (45_sequencer.md R166). -/
theorem udec_snoc (s : List Byte) (b : Byte) :
    udec (s ++ [b]) = udec s ||| shl64 (zext64 (payload b)) (7 * s.length) := by
  simp [udec, udecFrom_append, udecFrom]

theorem toNat_shl64 (v : Word) (n : Nat) : (shl64 v n).toNat = v.toNat * 2 ^ n % 2 ^ 64 := by
  simp [shl64, Nat.shiftLeft_eq]

theorem low7_or_lsr64 (v : Word) : zext64 (low7 v) ||| shl64 (lsr64 v 7) 7 = v := by
  ext i hi
  by_cases h : i < 7
  · simp [zext64, low7, shl64, lsr64, h, ← BitVec.getLsbD_eq_getElem]
    omega
  · have h' : 7 + (i - 7) = i := by omega
    simp [zext64, low7, shl64, lsr64, h, h', ← BitVec.getLsbD_eq_getElem]
    omega

theorem shl64_or (a b : Word) (n : Nat) : shl64 (a ||| b) n = shl64 a n ||| shl64 b n := by
  simp [shl64, BitVec.shiftLeft_or_distrib]

theorem shl64_shl64 (a : Word) (m n : Nat) : shl64 (shl64 a m) n = shl64 a (m + n) := by
  simp [shl64, BitVec.shiftLeft_add]

/-- Decoding the bytes of a value, from index `i` on, puts the value at bit `7 i`. -/
theorem udecFrom_uencTurns (n i : Nat) (v : Word) (h : v.toNat < 2 ^ (7 * (n + 1))) :
    udecFrom i 0#64 (uencTurns (n + 1) v) = shl64 v (7 * i) := by
  have one : v.toNat < 2 ^ 7 →
      udecFrom i 0#64 [lastByte (low7 v)] = shl64 v (7 * i) := by
    intro hs
    have hv := low7_or_lsr64 v
    rw [(lsr64_seven_eq_zero_iff v).2 hs] at hv
    have hv : zext64 (low7 v) = v := by simpa [shl64] using hv
    simp [udecFrom, hv]
  induction n generalizing i v with
  | zero => rw [uencTurns_small (by simpa using h)]; exact one (by simpa using h)
  | succ n ih =>
    by_cases hs : v.toNat < 2 ^ 7
    · rw [uencTurns_small hs]; exact one hs
    · have hl : (lsr64 v 7).toNat < 2 ^ (7 * (n + 1)) := by
        rw [toNat_lsr64]
        rw [show 7 * (n + 1 + 1) = 7 * (n + 1) + 7 by omega, Nat.pow_add] at h
        exact Nat.div_lt_of_lt_mul (by omega)
      rw [uencTurns_large (by omega)]
      simp only [udecFrom, payload_contByte]
      rw [udecFrom_acc, ih _ _ hl, show 7 * (i + 1) = 7 + 7 * i by omega, ← shl64_shl64]
      · simp only [BitVec.zero_or]
        rw [← shl64_or, low7_or_lsr64]
      · intro hs'
        have hv := low7_or_lsr64 (lsr64 v 7)
        rw [(lsr64_seven_eq_zero_iff _).2 hs'] at hv
        have hv : zext64 (low7 (lsr64 v 7)) = lsr64 v 7 := by simpa [shl64] using hv
        simp [udecFrom, hv]

end Sys2Proof.Machine
end

