-- ==== Sys2Proof/Laws/Config.lean ====
section
/-! SUPPORT. The capacities obey the constraints of 00_scope.md R9, and nothing else is known of them. -/

namespace Sys2Proof.Config

theorem ten_le_ibufCap : 10 ≤ ibufCap := Nat.le_add_left _ _

theorem eight_ibufCap_le_obufCap : 8 * ibufCap ≤ obufCap := by
  unfold obufCap ibufCap
  omega

theorem ibufCap_lt : ibufCap < 2 ^ 29 := by
  have h : ibufRoom < 2 ^ 29 - 10 := Nat.mod_lt _ (by decide)
  unfold ibufCap
  omega

theorem obufCap_lt : obufCap < 2 ^ 32 := by
  have h := ibufCap_lt
  have h' : obufSpare % (2 ^ 32 - 8 * ibufCap) < 2 ^ 32 - 8 * ibufCap := Nat.mod_lt _ (by omega)
  unfold obufCap
  unfold ibufCap at *
  omega

theorem eighty_le_obufCap : 80 ≤ obufCap := Nat.le_add_left _ _

end Sys2Proof.Config
end

