-- ==== Sys2Proof/Laws/Memory.lean ====
section
/-! SUPPORT. The laws of one byte memory: read after write, canonical form, byte sequences. -/

namespace Sys2Proof.Machine

@[simp] theorem Memory.read?_nil (a : Nat) : Memory.read? [] a = none := rfl

theorem Memory.read?_cons (k : Nat) (c : Byte) (m : Memory) (a : Nat) :
    Memory.read? ((k, c) :: m) a = if a = k then some c else Memory.read? m a := rfl

/-- A read after a write: the byte written at its address, the old byte elsewhere. -/
theorem Memory.read?_write (m : Memory) (a : Nat) (b : Byte) (x : Nat) :
    Memory.read? (Memory.write m a b) x = if x = a then some b else Memory.read? m x := by
  induction m with
  | nil => rfl
  | cons c m ih =>
    obtain ⟨k, c⟩ := c
    simp only [Memory.write]
    split
    · rfl
    · split
      · next h => subst h; simp only [Memory.read?_cons]; split <;> simp_all
      · simp only [Memory.read?_cons, ih]
        split <;> split <;> simp_all

@[simp] theorem Memory.read?_write_same (m : Memory) (a : Nat) (b : Byte) :
    Memory.read? (Memory.write m a b) a = some b := by simp [Memory.read?_write]

theorem Memory.read?_write_other (m : Memory) {a x : Nat} (b : Byte) (h : x ≠ a) :
    Memory.read? (Memory.write m a b) x = Memory.read? m x := by simp [Memory.read?_write, h]

/-- Every listed address after a write is the one written or was listed before. -/
theorem Memory.mem_write {m : Memory} {a : Nat} {b : Byte} {c : Host.Cell}
    (h : c ∈ Memory.write m a b) : c = (a, b) ∨ c ∈ m := by
  induction m with
  | nil => simpa [Memory.write] using h
  | cons d m ih =>
    obtain ⟨k, d⟩ := d
    simp only [Memory.write] at h
    split at h
    · simpa using h
    · split at h
      · rcases List.mem_cons.1 h with h | h
        · exact .inl h
        · exact .inr (List.mem_cons_of_mem _ h)
      · rcases List.mem_cons.1 h with h | h
        · exact .inr (by simp [h])
        · rcases ih h with h | h
          · exact .inl h
          · exact .inr (List.mem_cons_of_mem _ h)

/-- `rising` as the library's sortedness of the addresses. -/
theorem Memory.rising_iff (m : Memory) :
    Memory.rising m = true ↔ m.Pairwise fun c d => c.1 < d.1 := by
  induction m with
  | nil => simp [Memory.rising]
  | cons c m ih =>
    cases m with
    | nil => simp [Memory.rising]
    | cons d m =>
      obtain ⟨k, c⟩ := c
      obtain ⟨k', d⟩ := d
      simp only [Memory.rising, Bool.and_eq_true, decide_eq_true_eq, ih]
      constructor
      · rintro ⟨h, hp⟩
        refine List.pairwise_cons.2 ⟨fun x hx => ?_, hp⟩
        rcases List.mem_cons.1 hx with rfl | hx
        · exact h
        · exact Nat.lt_trans h ((List.pairwise_cons.1 hp).1 x hx)
      · intro h
        exact ⟨(List.pairwise_cons.1 h).1 (k', d) (by simp), (List.pairwise_cons.1 h).2⟩

/-- A write keeps the addresses strictly rising. -/
theorem Memory.rising_write {m : Memory} (a : Nat) (b : Byte) (h : Memory.rising m = true) :
    Memory.rising (Memory.write m a b) = true := by
  rw [Memory.rising_iff] at *
  induction m with
  | nil => simp [Memory.write]
  | cons c m ih =>
    obtain ⟨k, c⟩ := c
    obtain ⟨hc, hm⟩ := List.pairwise_cons.1 h
    simp only [Memory.write]
    split
    · next hlt =>
      refine List.pairwise_cons.2 ⟨fun x hx => ?_, h⟩
      rcases List.mem_cons.1 hx with rfl | hx
      · exact hlt
      · exact Nat.lt_trans hlt (hc x hx)
    · split
      · next heq => subst heq; exact List.pairwise_cons.2 ⟨hc, hm⟩
      · refine List.pairwise_cons.2 ⟨fun x hx => ?_, ih hm⟩
        rcases Memory.mem_write hx with rfl | hx
        · show k < a; omega
        · exact hc x hx

theorem Memory.wf_iff (cap : Nat) (m : Memory) :
    Memory.wf cap m = true ↔ Memory.rising m = true ∧ ∀ c ∈ m, c.1 < cap := by
  simp [Memory.wf]

/-- A write inside the buffer keeps the canonical form. -/
theorem Memory.wf_write {cap : Nat} {m : Memory} {a : Nat} (b : Byte)
    (h : Memory.wf cap m = true) (ha : a < cap) : Memory.wf cap (Memory.write m a b) = true := by
  rw [Memory.wf_iff] at *
  refine ⟨Memory.rising_write a b h.1, fun c hc => ?_⟩
  rcases Memory.mem_write hc with rfl | hc
  · exact ha
  · exact h.2 c hc

theorem Memory.wf_nil (cap : Nat) : Memory.wf cap [] = true := rfl

@[simp] theorem Memory.writeBytes_nil (m : Memory) (a : Nat) : Memory.writeBytes m a [] = m := rfl

@[simp] theorem Memory.writeBytes_cons (m : Memory) (a : Nat) (b : Byte) (bs : List Byte) :
    Memory.writeBytes m a (b :: bs) = Memory.writeBytes (Memory.write m a b) (a + 1) bs := rfl

/-- Writing two sequences one after the other is writing their concatenation. -/
theorem Memory.writeBytes_append (m : Memory) (a : Nat) (bs cs : List Byte) :
    Memory.writeBytes m a (bs ++ cs) =
      Memory.writeBytes (Memory.writeBytes m a bs) (a + bs.length) cs := by
  induction bs generalizing m a with
  | nil => simp
  | cons b bs ih => simp [ih, Nat.add_assoc, Nat.add_comm 1]

/-- Reading one address after writing a sequence: inside it the byte written, outside the old one. -/
theorem Memory.read?_writeBytes (m : Memory) (a : Nat) (bs : List Byte) (x : Nat) :
    Memory.read? (Memory.writeBytes m a bs) x =
      if a ≤ x ∧ x < a + bs.length then bs[x - a]? else Memory.read? m x := by
  induction bs generalizing m a with
  | nil => simp
  | cons b bs ih =>
    simp only [Memory.writeBytes_cons, ih, Memory.read?_write, List.length_cons]
    by_cases h1 : x = a
    · subst h1; simp
    · by_cases h2 : a + 1 ≤ x ∧ x < a + 1 + bs.length
      · have h3 : a ≤ x ∧ x < a + (bs.length + 1) := by omega
        obtain ⟨d, rfl⟩ : ∃ d, x = a + 1 + d := ⟨x - (a + 1), by omega⟩
        have h4 : a + 1 + d - a = d + 1 := by omega
        simp [h2, h3, h4]
      · have h3 : ¬ (a ≤ x ∧ x < a + (bs.length + 1)) := by omega
        rw [if_neg h2, if_neg h3, if_neg h1]

theorem Memory.wf_writeBytes {cap : Nat} {m : Memory} {a : Nat} (bs : List Byte)
    (h : Memory.wf cap m = true) (ha : a + bs.length ≤ cap) :
    Memory.wf cap (Memory.writeBytes m a bs) = true := by
  induction bs generalizing m a with
  | nil => exact h
  | cons b bs ih =>
    simp only [List.length_cons] at ha
    exact ih (Memory.wf_write b h (by omega)) (by omega)

@[simp] theorem Memory.readBytes?_zero (m : Memory) (a : Nat) :
    Memory.readBytes? m a 0 = some [] := rfl

theorem Memory.readBytes?_succ_eq_some {m : Memory} {a n : Nat} {s : List Byte} :
    Memory.readBytes? m a (n + 1) = some s ↔
      ∃ b bs, Memory.read? m a = some b ∧ Memory.readBytes? m (a + 1) n = some bs ∧
        s = b :: bs := by
  simp only [Memory.readBytes?]
  split
  · next b bs h1 h2 => simp [h1, h2, eq_comm]
  · next h =>
    simp only [reduceCtorEq, false_iff, not_exists]
    rintro b bs ⟨h1, h2, -⟩
    exact h b bs h1 h2

/-- A sequence is read exactly when it has the length asked for and each of its bytes is read. -/
theorem Memory.readBytes?_eq_some {m : Memory} {a n : Nat} {s : List Byte} :
    Memory.readBytes? m a n = some s ↔
      s.length = n ∧ ∀ k, k < n → Memory.read? m (a + k) = s[k]? := by
  induction n generalizing a s with
  | zero => cases s <;> simp
  | succ n ih =>
    rw [Memory.readBytes?_succ_eq_some]
    constructor
    · rintro ⟨b, bs, h1, h2, rfl⟩
      obtain ⟨h3, h4⟩ := ih.1 h2
      refine ⟨by simp [h3], fun k hk => ?_⟩
      cases k with
      | zero => simpa using h1
      | succ k => simpa [Nat.add_assoc, Nat.add_comm 1] using h4 k (by omega)
    · rintro ⟨h1, h2⟩
      cases s with
      | nil => simp at h1
      | cons b bs =>
        refine ⟨b, bs, by simpa using h2 0 (by omega), ih.2 ⟨by simpa using h1, fun k hk => ?_⟩, rfl⟩
        simpa [Nat.add_assoc, Nat.add_comm 1] using h2 (k + 1) (by omega)

theorem Memory.readBytes?_length {m : Memory} {a n : Nat} {s : List Byte}
    (h : Memory.readBytes? m a n = some s) : s.length = n := (Memory.readBytes?_eq_some.1 h).1

/-- The bytes just written are read back. -/
theorem Memory.readBytes?_writeBytes (m : Memory) (a : Nat) (bs : List Byte) :
    Memory.readBytes? (Memory.writeBytes m a bs) a bs.length = some bs := by
  rw [Memory.readBytes?_eq_some]
  refine ⟨rfl, fun k hk => ?_⟩
  rw [Memory.read?_writeBytes, if_pos (by omega)]
  congr 1
  omega

/-- A part of a sequence that can be read can be read. -/
theorem Memory.readBytes?_sub {m : Memory} {a n : Nat} {s : List Byte}
    (h : Memory.readBytes? m a n = some s) (i j : Nat) (hij : i + j ≤ n) :
    Memory.readBytes? m (a + i) j = some ((s.drop i).take j) := by
  obtain ⟨h1, h2⟩ := Memory.readBytes?_eq_some.1 h
  rw [Memory.readBytes?_eq_some]
  refine ⟨by simp; omega, fun k hk => ?_⟩
  rw [Nat.add_assoc, h2 (i + k) (by omega), List.getElem?_take_of_lt hk, List.getElem?_drop]

/-- One byte more at the end. -/
theorem Memory.readBytes?_snoc {m : Memory} {a n : Nat} {s : List Byte} {b : Byte}
    (h : Memory.readBytes? m a n = some s) (hb : Memory.read? m (a + n) = some b) :
    Memory.readBytes? m a (n + 1) = some (s ++ [b]) := by
  obtain ⟨h1, h2⟩ := Memory.readBytes?_eq_some.1 h
  rw [Memory.readBytes?_eq_some]
  refine ⟨by simp [h1], fun k hk => ?_⟩
  by_cases hk' : k < n
  · rw [h2 k hk', List.getElem?_append_left (by omega)]
  · obtain rfl : k = n := by omega
    simpa [← h1] using hb

end Sys2Proof.Machine
end

