-- ==== Sys2Proof/Laws/State.lean ====
section
/-! SUPPORT. One lemma per field per update of State, so that no later proof unfolds an update. -/

namespace Sys2Proof.Machine

@[simp] theorem raise_cmd (e : ErrCode) (p : Len) (s : State) :
    (raise e p s).cmd = s.cmd := rfl
@[simp] theorem raise_err (e : ErrCode) (p : Len) (s : State) :
    (raise e p s).err = e := rfl
@[simp] theorem raise_val (e : ErrCode) (p : Len) (s : State) :
    (raise e p s).val = s.val := rfl
@[simp] theorem raise_ilen (e : ErrCode) (p : Len) (s : State) :
    (raise e p s).ilen = s.ilen := rfl
@[simp] theorem raise_olen (e : ErrCode) (p : Len) (s : State) :
    (raise e p s).olen = s.olen := rfl
@[simp] theorem raise_errpos (e : ErrCode) (p : Len) (s : State) :
    (raise e p s).errpos = p := rfl
@[simp] theorem raise_op (e : ErrCode) (p : Len) (s : State) :
    (raise e p s).op = s.op := rfl
@[simp] theorem raise_phase (e : ErrCode) (p : Len) (s : State) :
    (raise e p s).phase = .idle := rfl
@[simp] theorem raise_pos (e : ErrCode) (p : Len) (s : State) :
    (raise e p s).pos = s.pos := rfl
@[simp] theorem raise_cnt (e : ErrCode) (p : Len) (s : State) :
    (raise e p s).cnt = s.cnt := rfl
@[simp] theorem raise_acc (e : ErrCode) (p : Len) (s : State) :
    (raise e p s).acc = s.acc := rfl
@[simp] theorem raise_ibuf (e : ErrCode) (p : Len) (s : State) :
    (raise e p s).ibuf = s.ibuf := rfl
@[simp] theorem raise_obuf (e : ErrCode) (p : Len) (s : State) :
    (raise e p s).obuf = s.obuf := rfl
@[simp] theorem raise_agenda (e : ErrCode) (p : Len) (s : State) :
    (raise e p s).agenda = s.agenda := rfl
@[simp] theorem raise_readings (e : ErrCode) (p : Len) (s : State) :
    (raise e p s).readings = s.readings := rfl
@[simp] theorem raise_freeIdx (e : ErrCode) (p : Len) (s : State) :
    (raise e p s).freeIdx = s.freeIdx := rfl

@[simp] theorem initCommand_cmd (c : Byte) (s : State) :
    (initCommand c s).cmd = c := rfl
@[simp] theorem initCommand_err (c : Byte) (s : State) :
    (initCommand c s).err = .ok := rfl
@[simp] theorem initCommand_val (c : Byte) (s : State) :
    (initCommand c s).val = s.val := rfl
@[simp] theorem initCommand_ilen (c : Byte) (s : State) :
    (initCommand c s).ilen = s.ilen := rfl
@[simp] theorem initCommand_olen (c : Byte) (s : State) :
    (initCommand c s).olen = 0#32 := rfl
@[simp] theorem initCommand_errpos (c : Byte) (s : State) :
    (initCommand c s).errpos = 0#32 := rfl
@[simp] theorem initCommand_op (c : Byte) (s : State) :
    (initCommand c s).op = c.extractLsb' 0 4 := rfl
@[simp] theorem initCommand_phase (c : Byte) (s : State) :
    (initCommand c s).phase = s.phase := rfl
@[simp] theorem initCommand_pos (c : Byte) (s : State) :
    (initCommand c s).pos = 0#32 := rfl
@[simp] theorem initCommand_cnt (c : Byte) (s : State) :
    (initCommand c s).cnt = 0#4 := rfl
@[simp] theorem initCommand_acc (c : Byte) (s : State) :
    (initCommand c s).acc = 0#64 := rfl
@[simp] theorem initCommand_ibuf (c : Byte) (s : State) :
    (initCommand c s).ibuf = s.ibuf := rfl
@[simp] theorem initCommand_obuf (c : Byte) (s : State) :
    (initCommand c s).obuf = s.obuf := rfl
@[simp] theorem initCommand_agenda (c : Byte) (s : State) :
    (initCommand c s).agenda = s.agenda := rfl
@[simp] theorem initCommand_readings (c : Byte) (s : State) :
    (initCommand c s).readings = s.readings := rfl
@[simp] theorem initCommand_freeIdx (c : Byte) (s : State) :
    (initCommand c s).freeIdx = s.freeIdx := rfl

@[simp] theorem beginEncode_cmd (g : Bool) (s : State) :
    (beginEncode g s).cmd = s.cmd := rfl
@[simp] theorem beginEncode_err (g : Bool) (s : State) :
    (beginEncode g s).err = s.err := rfl
@[simp] theorem beginEncode_val (g : Bool) (s : State) :
    (beginEncode g s).val = s.val := rfl
@[simp] theorem beginEncode_ilen (g : Bool) (s : State) :
    (beginEncode g s).ilen = s.ilen := rfl
@[simp] theorem beginEncode_olen (g : Bool) (s : State) :
    (beginEncode g s).olen = s.olen := rfl
@[simp] theorem beginEncode_errpos (g : Bool) (s : State) :
    (beginEncode g s).errpos = s.errpos := rfl
@[simp] theorem beginEncode_op (g : Bool) (s : State) :
    (beginEncode g s).op = s.op := rfl
@[simp] theorem beginEncode_phase (g : Bool) (s : State) :
    (beginEncode g s).phase = .emit := rfl
@[simp] theorem beginEncode_pos (g : Bool) (s : State) :
    (beginEncode g s).pos = s.pos := rfl
@[simp] theorem beginEncode_cnt (g : Bool) (s : State) :
    (beginEncode g s).cnt = s.cnt := rfl
@[simp] theorem beginEncode_acc (g : Bool) (s : State) :
    (beginEncode g s).acc = toWire g s.val := rfl
@[simp] theorem beginEncode_ibuf (g : Bool) (s : State) :
    (beginEncode g s).ibuf = s.ibuf := rfl
@[simp] theorem beginEncode_obuf (g : Bool) (s : State) :
    (beginEncode g s).obuf = s.obuf := rfl
@[simp] theorem beginEncode_agenda (g : Bool) (s : State) :
    (beginEncode g s).agenda = s.agenda := rfl
@[simp] theorem beginEncode_readings (g : Bool) (s : State) :
    (beginEncode g s).readings = s.readings := rfl
@[simp] theorem beginEncode_freeIdx (g : Bool) (s : State) :
    (beginEncode g s).freeIdx = s.freeIdx := rfl

@[simp] theorem beginScan_cmd (s : State) :
    (beginScan s).cmd = s.cmd := rfl
@[simp] theorem beginScan_err (s : State) :
    (beginScan s).err = s.err := rfl
@[simp] theorem beginScan_val (s : State) :
    (beginScan s).val = s.val := rfl
@[simp] theorem beginScan_ilen (s : State) :
    (beginScan s).ilen = s.ilen := rfl
@[simp] theorem beginScan_olen (s : State) :
    (beginScan s).olen = s.olen := rfl
@[simp] theorem beginScan_errpos (s : State) :
    (beginScan s).errpos = s.errpos := rfl
@[simp] theorem beginScan_op (s : State) :
    (beginScan s).op = s.op := rfl
@[simp] theorem beginScan_phase (s : State) :
    (beginScan s).phase = .scan := rfl
@[simp] theorem beginScan_pos (s : State) :
    (beginScan s).pos = s.pos := rfl
@[simp] theorem beginScan_cnt (s : State) :
    (beginScan s).cnt = s.cnt := rfl
@[simp] theorem beginScan_acc (s : State) :
    (beginScan s).acc = s.acc := rfl
@[simp] theorem beginScan_ibuf (s : State) :
    (beginScan s).ibuf = s.ibuf := rfl
@[simp] theorem beginScan_obuf (s : State) :
    (beginScan s).obuf = s.obuf := rfl
@[simp] theorem beginScan_agenda (s : State) :
    (beginScan s).agenda = s.agenda := rfl
@[simp] theorem beginScan_readings (s : State) :
    (beginScan s).readings = s.readings := rfl
@[simp] theorem beginScan_freeIdx (s : State) :
    (beginScan s).freeIdx = s.freeIdx := rfl

@[simp] theorem acceptByte_cmd (p : BitVec 7) (s : State) :
    (acceptByte p s).cmd = s.cmd := rfl
@[simp] theorem acceptByte_err (p : BitVec 7) (s : State) :
    (acceptByte p s).err = s.err := rfl
@[simp] theorem acceptByte_val (p : BitVec 7) (s : State) :
    (acceptByte p s).val = s.val := rfl
@[simp] theorem acceptByte_ilen (p : BitVec 7) (s : State) :
    (acceptByte p s).ilen = s.ilen := rfl
@[simp] theorem acceptByte_olen (p : BitVec 7) (s : State) :
    (acceptByte p s).olen = s.olen := rfl
@[simp] theorem acceptByte_errpos (p : BitVec 7) (s : State) :
    (acceptByte p s).errpos = s.errpos := rfl
@[simp] theorem acceptByte_op (p : BitVec 7) (s : State) :
    (acceptByte p s).op = s.op := rfl
@[simp] theorem acceptByte_phase (p : BitVec 7) (s : State) :
    (acceptByte p s).phase = s.phase := rfl
@[simp] theorem acceptByte_pos (p : BitVec 7) (s : State) :
    (acceptByte p s).pos = s.pos + 1#32 := rfl
@[simp] theorem acceptByte_cnt (p : BitVec 7) (s : State) :
    (acceptByte p s).cnt = s.cnt + 1#4 := rfl
@[simp] theorem acceptByte_acc (p : BitVec 7) (s : State) :
    (acceptByte p s).acc = s.acc ||| shl64 (zext64 p) (7 * s.cnt.toNat) := rfl
@[simp] theorem acceptByte_ibuf (p : BitVec 7) (s : State) :
    (acceptByte p s).ibuf = s.ibuf := rfl
@[simp] theorem acceptByte_obuf (p : BitVec 7) (s : State) :
    (acceptByte p s).obuf = s.obuf := rfl
@[simp] theorem acceptByte_agenda (p : BitVec 7) (s : State) :
    (acceptByte p s).agenda = s.agenda := rfl
@[simp] theorem acceptByte_readings (p : BitVec 7) (s : State) :
    (acceptByte p s).readings = s.readings := rfl
@[simp] theorem acceptByte_freeIdx (p : BitVec 7) (s : State) :
    (acceptByte p s).freeIdx = s.freeIdx := rfl

@[simp] theorem clearGroup_cmd (s : State) :
    (clearGroup s).cmd = s.cmd := rfl
@[simp] theorem clearGroup_err (s : State) :
    (clearGroup s).err = s.err := rfl
@[simp] theorem clearGroup_val (s : State) :
    (clearGroup s).val = s.val := rfl
@[simp] theorem clearGroup_ilen (s : State) :
    (clearGroup s).ilen = s.ilen := rfl
@[simp] theorem clearGroup_olen (s : State) :
    (clearGroup s).olen = s.olen := rfl
@[simp] theorem clearGroup_errpos (s : State) :
    (clearGroup s).errpos = s.errpos := rfl
@[simp] theorem clearGroup_op (s : State) :
    (clearGroup s).op = s.op := rfl
@[simp] theorem clearGroup_phase (s : State) :
    (clearGroup s).phase = s.phase := rfl
@[simp] theorem clearGroup_pos (s : State) :
    (clearGroup s).pos = s.pos := rfl
@[simp] theorem clearGroup_cnt (s : State) :
    (clearGroup s).cnt = 0#4 := rfl
@[simp] theorem clearGroup_acc (s : State) :
    (clearGroup s).acc = 0#64 := rfl
@[simp] theorem clearGroup_ibuf (s : State) :
    (clearGroup s).ibuf = s.ibuf := rfl
@[simp] theorem clearGroup_obuf (s : State) :
    (clearGroup s).obuf = s.obuf := rfl
@[simp] theorem clearGroup_agenda (s : State) :
    (clearGroup s).agenda = s.agenda := rfl
@[simp] theorem clearGroup_readings (s : State) :
    (clearGroup s).readings = s.readings := rfl
@[simp] theorem clearGroup_freeIdx (s : State) :
    (clearGroup s).freeIdx = s.freeIdx := rfl

@[simp] theorem applyReset_cmd (s : State) :
    (applyReset s).cmd = 0#8 := rfl
@[simp] theorem applyReset_err (s : State) :
    (applyReset s).err = .ok := rfl
@[simp] theorem applyReset_val (s : State) :
    (applyReset s).val = 0#64 := rfl
@[simp] theorem applyReset_ilen (s : State) :
    (applyReset s).ilen = 0#32 := rfl
@[simp] theorem applyReset_olen (s : State) :
    (applyReset s).olen = 0#32 := rfl
@[simp] theorem applyReset_errpos (s : State) :
    (applyReset s).errpos = 0#32 := rfl
@[simp] theorem applyReset_op (s : State) :
    (applyReset s).op = 0#4 := rfl
@[simp] theorem applyReset_phase (s : State) :
    (applyReset s).phase = .idle := rfl
@[simp] theorem applyReset_pos (s : State) :
    (applyReset s).pos = 0#32 := rfl
@[simp] theorem applyReset_cnt (s : State) :
    (applyReset s).cnt = 0#4 := rfl
@[simp] theorem applyReset_acc (s : State) :
    (applyReset s).acc = 0#64 := rfl
@[simp] theorem applyReset_ibuf (s : State) :
    (applyReset s).ibuf = [] := rfl
@[simp] theorem applyReset_obuf (s : State) :
    (applyReset s).obuf = [] := rfl
@[simp] theorem applyReset_agenda (s : State) :
    (applyReset s).agenda = s.agenda := rfl
@[simp] theorem applyReset_readings (s : State) :
    (applyReset s).readings = s.readings := rfl
@[simp] theorem applyReset_freeIdx (s : State) :
    (applyReset s).freeIdx = s.freeIdx := rfl

@[simp] theorem recordReading_cmd (src : Source) (v : Word) (s : State) :
    (recordReading src v s).cmd = s.cmd := rfl
@[simp] theorem recordReading_err (src : Source) (v : Word) (s : State) :
    (recordReading src v s).err = s.err := rfl
@[simp] theorem recordReading_val (src : Source) (v : Word) (s : State) :
    (recordReading src v s).val = s.val := rfl
@[simp] theorem recordReading_ilen (src : Source) (v : Word) (s : State) :
    (recordReading src v s).ilen = s.ilen := rfl
@[simp] theorem recordReading_olen (src : Source) (v : Word) (s : State) :
    (recordReading src v s).olen = s.olen := rfl
@[simp] theorem recordReading_errpos (src : Source) (v : Word) (s : State) :
    (recordReading src v s).errpos = s.errpos := rfl
@[simp] theorem recordReading_op (src : Source) (v : Word) (s : State) :
    (recordReading src v s).op = s.op := rfl
@[simp] theorem recordReading_phase (src : Source) (v : Word) (s : State) :
    (recordReading src v s).phase = s.phase := rfl
@[simp] theorem recordReading_pos (src : Source) (v : Word) (s : State) :
    (recordReading src v s).pos = s.pos := rfl
@[simp] theorem recordReading_cnt (src : Source) (v : Word) (s : State) :
    (recordReading src v s).cnt = s.cnt := rfl
@[simp] theorem recordReading_acc (src : Source) (v : Word) (s : State) :
    (recordReading src v s).acc = s.acc := rfl
@[simp] theorem recordReading_ibuf (src : Source) (v : Word) (s : State) :
    (recordReading src v s).ibuf = s.ibuf := rfl
@[simp] theorem recordReading_obuf (src : Source) (v : Word) (s : State) :
    (recordReading src v s).obuf = s.obuf := rfl
@[simp] theorem recordReading_agenda (src : Source) (v : Word) (s : State) :
    (recordReading src v s).agenda = s.agenda := rfl
@[simp] theorem recordReading_readings (src : Source) (v : Word) (s : State) :
    (recordReading src v s).readings = ⟨src, v⟩ :: s.readings := rfl
@[simp] theorem recordReading_freeIdx (src : Source) (v : Word) (s : State) :
    (recordReading src v s).freeIdx = s.freeIdx := rfl

@[simp] theorem recordFree_cmd (src : Source) (n : Nat) (s : State) :
    (recordFree src n s).cmd = s.cmd := rfl
@[simp] theorem recordFree_err (src : Source) (n : Nat) (s : State) :
    (recordFree src n s).err = s.err := rfl
@[simp] theorem recordFree_val (src : Source) (n : Nat) (s : State) :
    (recordFree src n s).val = s.val := rfl
@[simp] theorem recordFree_ilen (src : Source) (n : Nat) (s : State) :
    (recordFree src n s).ilen = s.ilen := rfl
@[simp] theorem recordFree_olen (src : Source) (n : Nat) (s : State) :
    (recordFree src n s).olen = s.olen := rfl
@[simp] theorem recordFree_errpos (src : Source) (n : Nat) (s : State) :
    (recordFree src n s).errpos = s.errpos := rfl
@[simp] theorem recordFree_op (src : Source) (n : Nat) (s : State) :
    (recordFree src n s).op = s.op := rfl
@[simp] theorem recordFree_phase (src : Source) (n : Nat) (s : State) :
    (recordFree src n s).phase = s.phase := rfl
@[simp] theorem recordFree_pos (src : Source) (n : Nat) (s : State) :
    (recordFree src n s).pos = s.pos := rfl
@[simp] theorem recordFree_cnt (src : Source) (n : Nat) (s : State) :
    (recordFree src n s).cnt = s.cnt := rfl
@[simp] theorem recordFree_acc (src : Source) (n : Nat) (s : State) :
    (recordFree src n s).acc = s.acc := rfl
@[simp] theorem recordFree_ibuf (src : Source) (n : Nat) (s : State) :
    (recordFree src n s).ibuf = s.ibuf := rfl
@[simp] theorem recordFree_obuf (src : Source) (n : Nat) (s : State) :
    (recordFree src n s).obuf = s.obuf := rfl
@[simp] theorem recordFree_agenda (src : Source) (n : Nat) (s : State) :
    (recordFree src n s).agenda = s.agenda := rfl
@[simp] theorem recordFree_readings (src : Source) (n : Nat) (s : State) :
    (recordFree src n s).readings = ⟨src, lowBits n (Config.freeValue s.freeIdx)⟩ :: s.readings := rfl
@[simp] theorem recordFree_freeIdx (src : Source) (n : Nat) (s : State) :
    (recordFree src n s).freeIdx = s.freeIdx + 1 := rfl

@[simp] theorem State.popEvent_cmd (s : State) :
    (s.popEvent).cmd = s.cmd := rfl
@[simp] theorem State.popEvent_err (s : State) :
    (s.popEvent).err = s.err := rfl
@[simp] theorem State.popEvent_val (s : State) :
    (s.popEvent).val = s.val := rfl
@[simp] theorem State.popEvent_ilen (s : State) :
    (s.popEvent).ilen = s.ilen := rfl
@[simp] theorem State.popEvent_olen (s : State) :
    (s.popEvent).olen = s.olen := rfl
@[simp] theorem State.popEvent_errpos (s : State) :
    (s.popEvent).errpos = s.errpos := rfl
@[simp] theorem State.popEvent_op (s : State) :
    (s.popEvent).op = s.op := rfl
@[simp] theorem State.popEvent_phase (s : State) :
    (s.popEvent).phase = s.phase := rfl
@[simp] theorem State.popEvent_pos (s : State) :
    (s.popEvent).pos = s.pos := rfl
@[simp] theorem State.popEvent_cnt (s : State) :
    (s.popEvent).cnt = s.cnt := rfl
@[simp] theorem State.popEvent_acc (s : State) :
    (s.popEvent).acc = s.acc := rfl
@[simp] theorem State.popEvent_ibuf (s : State) :
    (s.popEvent).ibuf = s.ibuf := rfl
@[simp] theorem State.popEvent_obuf (s : State) :
    (s.popEvent).obuf = s.obuf := rfl
@[simp] theorem State.popEvent_agenda (s : State) :
    (s.popEvent).agenda = s.agenda.tail := rfl
@[simp] theorem State.popEvent_readings (s : State) :
    (s.popEvent).readings = s.readings := rfl
@[simp] theorem State.popEvent_freeIdx (s : State) :
    (s.popEvent).freeIdx = s.freeIdx := rfl

@[simp] theorem withOutput_cmd (bs : List Byte) (s : State) :
    (withOutput bs s).cmd = s.cmd := rfl
@[simp] theorem withOutput_err (bs : List Byte) (s : State) :
    (withOutput bs s).err = s.err := rfl
@[simp] theorem withOutput_val (bs : List Byte) (s : State) :
    (withOutput bs s).val = s.val := rfl
@[simp] theorem withOutput_ilen (bs : List Byte) (s : State) :
    (withOutput bs s).ilen = s.ilen := rfl
@[simp] theorem withOutput_olen (bs : List Byte) (s : State) :
    (withOutput bs s).olen = BitVec.ofNat 32 bs.length := rfl
@[simp] theorem withOutput_errpos (bs : List Byte) (s : State) :
    (withOutput bs s).errpos = s.errpos := rfl
@[simp] theorem withOutput_op (bs : List Byte) (s : State) :
    (withOutput bs s).op = s.op := rfl
@[simp] theorem withOutput_phase (bs : List Byte) (s : State) :
    (withOutput bs s).phase = s.phase := rfl
@[simp] theorem withOutput_pos (bs : List Byte) (s : State) :
    (withOutput bs s).pos = s.pos := rfl
@[simp] theorem withOutput_cnt (bs : List Byte) (s : State) :
    (withOutput bs s).cnt = s.cnt := rfl
@[simp] theorem withOutput_acc (bs : List Byte) (s : State) :
    (withOutput bs s).acc = s.acc := rfl
@[simp] theorem withOutput_ibuf (bs : List Byte) (s : State) :
    (withOutput bs s).ibuf = s.ibuf := rfl
@[simp] theorem withOutput_obuf (bs : List Byte) (s : State) :
    (withOutput bs s).obuf = Memory.writeBytes s.obuf 0 bs := rfl
@[simp] theorem withOutput_agenda (bs : List Byte) (s : State) :
    (withOutput bs s).agenda = s.agenda := rfl
@[simp] theorem withOutput_readings (bs : List Byte) (s : State) :
    (withOutput bs s).readings = s.readings := rfl
@[simp] theorem withOutput_freeIdx (bs : List Byte) (s : State) :
    (withOutput bs s).freeIdx = s.freeIdx := rfl

end Sys2Proof.Machine
end

