-- ==== Sys2Proof/Laws/Ops.lean ====
section
/-! SUPPORT. What each shared operation can do, said once. -/

namespace Sys2Proof.Machine

theorem startCommand_of_idle {c : Byte} {d : State → State} {s : State} (h : s.phase = .idle) :
    startCommand c d s = d (initCommand c s) := by simp [startCommand, h]

theorem startCommand_of_busy {c : Byte} {d : State → State} {s : State} (h : s.phase ≠ .idle) :
    startCommand c d s = s := by simp [startCommand, h]

/-- A store of output answers exactly when the bytes have room. -/
theorem storeOut_eq_next {bs : List Byte} {s t : State} :
    storeOut bs s = .next t ↔ s.olen.toNat + bs.length ≤ Config.obufCap ∧
      t = { s with
        obuf := Memory.writeBytes s.obuf s.olen.toNat bs
        olen := s.olen + BitVec.ofNat 32 bs.length } := by
  unfold storeOut
  split <;> simp_all [eq_comm]

theorem storeOut_of_room {bs : List Byte} {s : State}
    (h : s.olen.toNat + bs.length ≤ Config.obufCap) :
    storeOut bs s = .next { s with
      obuf := Memory.writeBytes s.obuf s.olen.toNat bs
      olen := s.olen + BitVec.ofNat 32 bs.length } := storeOut_eq_next.2 ⟨h, rfl⟩

/-- `OLEN` does not wrap in a store. -/
theorem toNat_olen_add {n : Nat} {x : Len} (h : x.toNat + n ≤ Config.obufCap) :
    (x + BitVec.ofNat 32 n).toNat = x.toNat + n := by
  have := Config.obufCap_lt
  simp [BitVec.toNat_add]
  omega

theorem readIbuf_eq_next {s : State} {a : Nat} {b : Byte} :
    readIbuf s a = .next b ↔ a < Config.ibufCap ∧ Memory.read? s.ibuf a = some b := by
  unfold readIbuf
  split
  · split <;> simp_all
  · simp_all

theorem readIbuf_of_written {s : State} {a : Nat} {b : Byte} (ha : a < Config.ibufCap)
    (hb : Memory.read? s.ibuf a = some b) : readIbuf s a = .next b := readIbuf_eq_next.2 ⟨ha, hb⟩

/-- Inside the buffer a read that does not answer is the refusal of an unwritten byte. -/
theorem readIbuf_of_unwritten {s : State} {a : Nat} (ha : a < Config.ibufCap)
    (hb : Memory.read? s.ibuf a = none) : readIbuf s a = .refused (.ibufByteNotWritten a) := by
  simp [readIbuf, ha, hb]

theorem readIbufBytes_eq_next {s : State} {a n : Nat} {bs : List Byte} (h : a + n ≤ Config.ibufCap) :
    readIbufBytes s a n = .next bs ↔ Memory.readBytes? s.ibuf a n = some bs := by
  induction n generalizing a bs with
  | zero => simp [readIbufBytes, eq_comm]
  | succ n ih =>
    rw [Memory.readBytes?_succ_eq_some]
    have hn : (a + 1) + n ≤ Config.ibufCap := by omega
    cases hb : Memory.read? s.ibuf a with
    | none => simp [readIbufBytes, readIbuf_of_unwritten (show a < _ by omega) hb]
    | some b =>
      simp only [readIbufBytes, readIbuf_of_written (show a < _ by omega) hb]
      cases hr : readIbufBytes s (a + 1) n with
      | next cs =>
        have := (ih hn).1 hr
        simp [this, eq_comm]
      | fault f =>
        have : ∀ cs, Memory.readBytes? s.ibuf (a + 1) n ≠ some cs :=
          fun cs hc => by rw [(ih hn).2 hc] at hr; cases hr
        simp [this]
      | refused f =>
        have : ∀ cs, Memory.readBytes? s.ibuf (a + 1) n ≠ some cs :=
          fun cs hc => by rw [(ih hn).2 hc] at hr; cases hr
        simp [this]

/-- Inside the buffer a sequence that is not answered has an unwritten byte, which is refused. -/
theorem readIbufBytes_refused {s : State} {a n : Nat} (h : a + n ≤ Config.ibufCap)
    (hr : ∀ bs, readIbufBytes s a n ≠ .next bs) :
    ∃ x, a ≤ x ∧ x < a + n ∧ Memory.read? s.ibuf x = none ∧
      readIbufBytes s a n = .refused (.ibufByteNotWritten x) := by
  induction n generalizing a with
  | zero => exact absurd rfl (hr [])
  | succ n ih =>
    cases hb : Memory.read? s.ibuf a with
    | none =>
      exact ⟨a, Nat.le_refl _, by omega, hb, by
        simp [readIbufBytes, readIbuf_of_unwritten (show a < _ by omega) hb]⟩
    | some b =>
      have hrest : ∀ bs, readIbufBytes s (a + 1) n ≠ .next bs := fun bs hbs =>
        hr (b :: bs) (by
          simp [readIbufBytes, readIbuf_of_written (show a < _ by omega) hb, hbs])
      obtain ⟨x, h1, h2, h3, h4⟩ := ih (by omega) hrest
      exact ⟨x, by omega, by omega, h3, by
        simp [readIbufBytes, readIbuf_of_written (show a < _ by omega) hb, h4]⟩

theorem readIbufWord_of_written {s : State} {a : Nat} {bs : List Byte}
    (h : a + 8 ≤ Config.ibufCap) (hb : Memory.readBytes? s.ibuf a 8 = some bs) :
    readIbufWord s a = .next (fromBe64 bs) := by
  simp [readIbufWord, (readIbufBytes_eq_next h).2 hb]

end Sys2Proof.Machine
end

