-- ==== Sys2Proof/Laws/PerInstr.lean ====
section
/-! SUPPORT. One statement about every instruction as syntax: its byte is in the row of
spec/opcode_table.json that stands for it, and in no other row of its format (30_encoding.md R84). -/

namespace Sys2Proof.Laws.TableRow

/-- A row of spec/opcode_table.json: its format, `match` and `mask`. -/
structure Row where
  format : Format
  value : Byte
  mask : Byte
  deriving DecidableEq, Repr

/-- A byte is in a row. -/
def Row.has (r : Row) (b : Byte) : Bool := b &&& r.mask == r.value

/-- The eleven command rows (R77). -/
def cmdRows : List Row :=
  [⟨.cmd, 0x00#8, 0xFF#8⟩, ⟨.cmd, 0x01#8, 0xFF#8⟩, ⟨.cmd, 0x02#8, 0xFF#8⟩, ⟨.cmd, 0x03#8, 0xFF#8⟩,
   ⟨.cmd, 0x04#8, 0xFF#8⟩, ⟨.cmd, 0x05#8, 0xFF#8⟩, ⟨.cmd, 0x06#8, 0xFF#8⟩, ⟨.cmd, 0x08#8, 0xFF#8⟩,
   ⟨.cmd, 0x09#8, 0xFF#8⟩, ⟨.cmd, 0x0A#8, 0xFF#8⟩, ⟨.cmd, 0x0B#8, 0xFF#8⟩]

/-- The two rows of varint bytes (R71). -/
def vbRows : List Row := [⟨.vb, 0x80#8, 0x80#8⟩, ⟨.vb, 0x00#8, 0x80#8⟩]

/-- The row of an instruction. -/
def rowOf : Instr → Row
  | .uenc => ⟨.cmd, 0x00#8, 0xFF#8⟩
  | .senc => ⟨.cmd, 0x01#8, 0xFF#8⟩
  | .udec => ⟨.cmd, 0x02#8, 0xFF#8⟩
  | .sdec => ⟨.cmd, 0x03#8, 0xFF#8⟩
  | .zze => ⟨.cmd, 0x04#8, 0xFF#8⟩
  | .zzd => ⟨.cmd, 0x05#8, 0xFF#8⟩
  | .seg => ⟨.cmd, 0x06#8, 0xFF#8⟩
  | .uencs => ⟨.cmd, 0x08#8, 0xFF#8⟩
  | .sencs => ⟨.cmd, 0x09#8, 0xFF#8⟩
  | .udecs => ⟨.cmd, 0x0A#8, 0xFF#8⟩
  | .sdecs => ⟨.cmd, 0x0B#8, 0xFF#8⟩
  | .vbCont _ => ⟨.vb, 0x80#8, 0x80#8⟩
  | .vbLast _ => ⟨.vb, 0x00#8, 0x80#8⟩

/-- The instruction is one byte, read in its row's format, and its row is the only one of the table
that has the byte in that format. -/
def Statement (i : Instr) : Prop :=
  encode i = [encodeByte i] ∧ (rowOf i).format = formatOf i ∧ (rowOf i).has (encodeByte i) = true ∧
  ∀ r ∈ cmdRows ++ vbRows, r.format = formatOf i → r.has (encodeByte i) = true → r = rowOf i

theorem uenc : Statement .uenc := by unfold Statement; decide

theorem senc : Statement .senc := by unfold Statement; decide

theorem udec : Statement .udec := by unfold Statement; decide

theorem sdec : Statement .sdec := by unfold Statement; decide

theorem zze : Statement .zze := by unfold Statement; decide

theorem zzd : Statement .zzd := by unfold Statement; decide

theorem seg : Statement .seg := by unfold Statement; decide

theorem uencs : Statement .uencs := by unfold Statement; decide

theorem sencs : Statement .sencs := by unfold Statement; decide

theorem udecs : Statement .udecs := by unfold Statement; decide

theorem sdecs : Statement .sdecs := by unfold Statement; decide

theorem vbCont (p : BitVec 7) : Statement (.vbCont p) := by unfold Statement; revert p; decide

theorem vbLast (p : BitVec 7) : Statement (.vbLast p) := by unfold Statement; revert p; decide

end Sys2Proof.Laws.TableRow
end

