-- ==== Sys2Proof/Laws/Step.lean ====
section
/-! SUPPORT. What a step is for each first event of the agenda, and how runs compose. -/

namespace Sys2Proof.Machine

theorem step_of_nil {s : State} (h : s.agenda = []) : step s = coreStep s := by
  simp [step, advance, h]

theorem step_of_core {s : State} {rest : List Event} (h : s.agenda = .core :: rest) :
    step s = coreStep { s with agenda := rest } := by
  simp [step, advance, h, State.popEvent]

theorem step_of_reset {s : State} {rest : List Event} (h : s.agenda = .reset :: rest) :
    step s = .next (applyReset { s with agenda := rest }) := by
  simp [step, advance, h, State.popEvent]

theorem step_of_host {s : State} {a : HostAction} {rest : List Event}
    (h : s.agenda = .host a :: rest) (ha : a ≠ .wait) :
    step s = hostAct a { s with agenda := rest } := by
  cases a <;> simp_all [step, advance, State.popEvent]

theorem step_of_wait_idle {s : State} {rest : List Event} (h : s.agenda = .host .wait :: rest)
    (hi : s.phase = .idle) : step s = .next { s with agenda := rest } := by
  simp [step, advance, h, State.popEvent, State.busy, hi]

theorem step_of_wait_busy {s : State} {rest : List Event} (h : s.agenda = .host .wait :: rest)
    (hi : s.phase ≠ .idle) : step s = coreStep s := by
  simp [step, advance, h, State.busy, hi]

theorem step_of_wrCmd {s : State} {c : Byte} {rest : List Event}
    (h : s.agenda = .host (.wrCmd c) :: rest) :
    step s = writeCmd c { s with agenda := rest } := step_of_host h (by simp)

theorem coreStep_of_idle {s : State} (h : s.phase = .idle) : coreStep s = .next s := by
  simp [coreStep, h]

theorem coreStep_of_scan {s : State} (h : s.phase = .scan) : coreStep s = scanStep s := by
  simp [coreStep, h]

theorem coreStep_of_load {s : State} (h : s.phase = .load) : coreStep s = loadStep s := by
  simp [coreStep, h]

theorem coreStep_of_emit {s : State} (h : s.phase = .emit) : coreStep s = emitStep s := by
  simp [coreStep, h]

@[simp] theorem run_zero (s : State) : run 0 s = .next s := rfl

theorem run_succ_of_next {s t : State} (h : step s = .next t) (n : Nat) :
    run (n + 1) s = run n t := by simp [run, h]

theorem run_one_of_next {s t : State} (h : step s = .next t) : run 1 s = .next t := by
  simp [run, h]

/-- Runs compose. -/
theorem run_add {m n : Nat} {s t : State} (h : run m s = .next t) :
    run (m + n) s = run n t := by
  induction m generalizing s with
  | zero => simp at h; simp [h]
  | succ m ih =>
    rw [Nat.add_right_comm]
    simp only [run] at h ⊢
    split at h
    · exact ih h
    · cases h
    · cases h

/-- The host's runs are these runs. -/
theorem core_run_eq (n : Nat) (s : State) : Host.Core.run Sys2Proof.core n s = run n s := by
  induction n generalizing s with
  | zero => rfl
  | succ n ih =>
    cases h : step s with
    | next t =>
      have h' : Sys2Proof.core.step s = .next t := h
      simp only [Host.Core.run, h', run, h]
      exact ih t
    | fault f =>
      have h' : Sys2Proof.core.step s = .fault f := h
      simp only [Host.Core.run, h', run, h]
      rfl
    | refused r =>
      have h' : Sys2Proof.core.step s = .refused r := h
      simp only [Host.Core.run, h', run, h]
      rfl

theorem RunsTo.zero {s : State} (h : s.phase = .idle) : RunsTo s 0 s :=
  ⟨rfl, h, fun _ hk => absurd hk (Nat.not_lt_zero _)⟩

/-- A busy step in front of a run. -/
theorem RunsTo.step {s t u : State} {n : Nat} (hs : s.phase ≠ .idle) (h : step s = .next t)
    (hr : RunsTo t n u) : RunsTo s (n + 1) u := by
  obtain ⟨h1, h2, h3⟩ := hr
  refine ⟨by rw [run_succ_of_next h, h1], h2, fun k hk => ?_⟩
  cases k with
  | zero => exact ⟨s, rfl, hs⟩
  | succ k => rw [run_succ_of_next h]; exact h3 k (by omega)

end Sys2Proof.Machine
end

