-- ==== Sys2Proof/Laws/Sequencer.lean ====
section
/-! SUPPORT. What each core step can do, said once, in both directions, and that the core does not
see the outside world. -/

namespace Sys2Proof.Machine

@[simp] theorem length_be64 (v : Word) : (be64 v).length = 8 := rfl

/-- What a byte stores when it closes a group in a mode: nothing for a single decode, the length for
`SEG`, the word for a stream decode, seen from the state in which the byte is already counted. -/
def closedOutput (m : ScanMode) (s : State) : List Byte :=
  match m with
  | .single _ => []
  | .lengths => [s.cnt.setWidth 8]
  | .words signed => be64 (fromWire signed s.acc)

/-- Completing a group: unchanged for a single decode, else the output is stored and `ACC` and `CNT`
start over. -/
theorem finishGroup_eq_next {m : ScanMode} {s t : State} :
    finishGroup m s = .next t ↔
      ((∃ signed, m = .single signed) ∧ t = s) ∨
      ((∀ signed, m ≠ .single signed) ∧
        s.olen.toNat + (closedOutput m s).length ≤ Config.obufCap ∧
        t = { s with
          obuf := Memory.writeBytes s.obuf s.olen.toNat (closedOutput m s)
          olen := s.olen + BitVec.ofNat 32 (closedOutput m s).length
          acc := 0#64, cnt := 0#4 }) := by
  cases m with
  | single signed => simp [finishGroup, eq_comm]
  | lengths =>
    simp only [finishGroup]
    rw [storeOut_eq_next]
    simp [closedOutput, clearGroup]
  | words signed =>
    simp only [finishGroup]
    rw [storeOut_eq_next]
    simp [closedOutput, clearGroup]

/-- A varint byte in a scan: `Overflow` when the group is full, else it is accumulated and `finish`
goes on. -/
theorem scanByte_eq_next {f : ScanMode → State → Result State} {p : BitVec 7} {s t : State}
    {m : ScanMode} (hp : s.phase = .scan) (hm : scanMode s.op = some m) :
    scanByte f p s = .next t ↔
      (s.cnt = 10#4 ∧ t = raise .overflow s.pos s) ∨
      (s.cnt.toNat < 10 ∧ f m (acceptByte p s) = .next t) := by
  unfold scanByte
  rw [hp]
  simp only [hm]
  by_cases h : s.cnt = 10#4
  · have : ¬ s.cnt.toNat < 10 := by rw [h]; decide
    simp [h, eq_comm]
  · rw [if_neg h]
    split <;> simp_all

theorem scanByte_of_not_scan {f : ScanMode → State → Result State} {p : BitVec 7} {s : State}
    (hp : s.phase ≠ .scan) : scanByte f p s = .next s := by
  unfold scanByte
  cases h : s.phase <;> simp_all

/-- A scan step that reads a byte runs that byte. -/
theorem scanStep_of_read {s : State} {m : ScanMode} {b : Byte} (hp : s.phase = .scan)
    (hm : scanMode s.op = some m) (hl : s.pos.toNat < s.ilen.toNat)
    (hc : s.pos.toNat < Config.ibufCap) (hb : Memory.read? s.ibuf s.pos.toNat = some b) :
    scanStep s = exec (decodeVarintByte b) s := by
  have hne : s.pos ≠ s.ilen := by intro h; rw [h] at hl; omega
  simp only [scanStep, hm, hne, if_false, hl, if_true, readIbuf_of_written hc hb]
  split
  · next h10 =>
    unfold decodeVarintByte
    split <;> simp [exec, execVbCont, execVbLast, scanByte, hp, hm, h10]
  · rfl

/-- Everything a scan step can do when it answers. -/
theorem scanStep_eq_next {s t : State} (hp : s.phase = .scan) (h : scanStep s = .next t) :
    ∃ m, scanMode s.op = some m ∧
      ((s.pos = s.ilen ∧ t = closeScan m s) ∨
       (s.pos.toNat < s.ilen.toNat ∧ s.cnt = 10#4 ∧ t = raise .overflow s.pos s) ∨
       (s.pos.toNat < s.ilen.toNat ∧ s.cnt.toNat < 10 ∧ s.pos.toNat < Config.ibufCap ∧
        ∃ b, Memory.read? s.ibuf s.pos.toNat = some b ∧
          (((contBit b = true ∨ ∃ signed, m = .single signed) ∧ t = acceptByte (payload b) s) ∨
           (contBit b = false ∧ (∀ signed, m ≠ .single signed) ∧
            finishGroup m (acceptByte (payload b) s) = .next t)))) := by
  cases hm : scanMode s.op with
  | none => simp [scanStep, hm] at h
  | some m =>
    refine ⟨m, rfl, ?_⟩
    by_cases he : s.pos = s.ilen
    · simp [scanStep, hm, he] at h
      exact .inl ⟨he, h.symm⟩
    · by_cases hl : s.pos.toNat < s.ilen.toNat
      · by_cases h10 : s.cnt = 10#4
        · simp [scanStep, hm, he, hl, h10] at h
          exact .inr (.inl ⟨hl, h10, by rw [← h]⟩)
        · right; right
          simp only [scanStep, hm, if_neg he, if_pos hl, if_neg h10] at h
          cases hr : readIbuf s s.pos.toNat with
          | fault f => rw [hr] at h; cases h
          | refused r => rw [hr] at h; cases h
          | next b =>
            rw [hr] at h
            obtain ⟨hc, hb⟩ := readIbuf_eq_next.1 hr
            simp only [decodeVarintByte] at h
            cases hcb : contBit b with
            | true =>
              rw [hcb] at h
              simp only [if_true, exec, execVbCont, scanByte_eq_next hp hm] at h
              rcases h with h | ⟨h9, h⟩
              · exact absurd h.1 h10
              · exact ⟨hl, h9, hc, b, hb, .inl ⟨.inl hcb, by cases h; rfl⟩⟩
            | false =>
              rw [hcb] at h
              simp only [Bool.false_eq_true, if_false, exec, execVbLast,
                scanByte_eq_next hp hm] at h
              rcases h with h | ⟨h9, h⟩
              · exact absurd h.1 h10
              · refine ⟨hl, h9, hc, b, hb, ?_⟩
                cases m with
                | single signed => exact .inl ⟨.inr ⟨signed, rfl⟩, by cases h; rfl⟩
                | lengths => exact .inr ⟨hcb, by simp, h⟩
                | words signed => exact .inr ⟨hcb, by simp, h⟩
      · simp [scanStep, hm, he, hl] at h

/-- Everything a load step can do when it answers. -/
theorem loadStep_eq_next {s t : State} (h : loadStep s = .next t) :
    ∃ signed, loadSigned s.op = some signed ∧
      ((s.pos = s.ilen ∧ t = { s with phase := .idle }) ∨
       (s.pos ≠ s.ilen ∧ ∃ w, readIbufWord s s.pos.toNat = .next w ∧
        t = { s with acc := toWire signed w, pos := s.pos + 8#32, phase := .emit })) := by
  cases hm : loadSigned s.op with
  | none => simp [loadStep, hm] at h
  | some signed =>
    refine ⟨signed, rfl, ?_⟩
    by_cases he : s.pos = s.ilen
    · simp [loadStep, hm, he] at h
      exact .inl ⟨he, by rw [← h, he]⟩
    · simp only [loadStep, hm, if_neg he] at h
      cases hr : readIbufWord s s.pos.toNat with
      | fault f => rw [hr] at h; cases h
      | refused r => rw [hr] at h; cases h
      | next w => rw [hr] at h; cases h; exact .inr ⟨he, w, rfl, rfl⟩

/-- Everything an emit step can do when it answers. -/
theorem emitStep_eq_next {s t : State} (h : emitStep s = .next t) :
    ∃ after, phaseAfterGroup s.op = some after ∧ s.olen.toNat + 1 ≤ Config.obufCap ∧
      ((2 ^ 7 ≤ s.acc.toNat ∧ t = { s with
          obuf := Memory.write s.obuf s.olen.toNat (contByte (low7 s.acc))
          olen := s.olen + 1#32, acc := lsr64 s.acc 7, cnt := s.cnt + 1#4 }) ∨
       (s.acc.toNat < 2 ^ 7 ∧ t = { s with
          obuf := Memory.write s.obuf s.olen.toNat (lastByte (low7 s.acc))
          olen := s.olen + 1#32, acc := 0#64, cnt := 0#4, phase := after })) := by
  have hz : lsr64 s.acc 7 = 0#64 ↔ s.acc.toNat < 2 ^ 7 := by
    rw [← BitVec.toNat_inj]
    simp [lsr64, Nat.shiftRight_eq_div_pow]
  cases hm : phaseAfterGroup s.op with
  | none => simp [emitStep, hm] at h
  | some after =>
    simp only [emitStep, hm] at h
    by_cases hs : s.acc.toNat < 2 ^ 7
    · rw [if_neg (by simpa using hz.2 hs), storeOut_eq_next] at h
      exact ⟨after, rfl, by simpa using h.1, .inr ⟨hs, h.2⟩⟩
    · rw [if_pos (by rw [Ne, hz]; exact hs), storeOut_eq_next] at h
      exact ⟨after, rfl, by simpa using h.1, .inl ⟨by omega, h.2⟩⟩

/-- An emit step with room, the other way round. -/
theorem emitStep_of_large {s : State} {after : Phase} (hm : phaseAfterGroup s.op = some after)
    (hr : s.olen.toNat + 1 ≤ Config.obufCap) (hl : lsr64 s.acc 7 ≠ 0#64) :
    emitStep s = .next { s with
      obuf := Memory.write s.obuf s.olen.toNat (contByte (low7 s.acc))
      olen := s.olen + 1#32, acc := lsr64 s.acc 7, cnt := s.cnt + 1#4 } := by
  simp only [emitStep, hm]
  rw [if_pos hl, storeOut_of_room (by simpa using hr)]
  rfl

theorem emitStep_of_small {s : State} {after : Phase} (hm : phaseAfterGroup s.op = some after)
    (hr : s.olen.toNat + 1 ≤ Config.obufCap) (hl : lsr64 s.acc 7 = 0#64) :
    emitStep s = .next { s with
      obuf := Memory.write s.obuf s.olen.toNat (lastByte (low7 s.acc))
      olen := s.olen + 1#32, acc := 0#64, cnt := 0#4, phase := after } := by
  simp only [emitStep, hm]
  rw [if_neg (not_not.2 hl), storeOut_of_room (by simpa using hr)]
  rfl

/-- The closing scan step, in its three cases. -/
theorem closeScan_cases (m : ScanMode) (s : State) :
    (∃ signed, m = .single signed ∧
      closeScan m s = { s with val := fromWire signed s.acc, phase := .idle }) ∨
    ((∀ signed, m ≠ .single signed) ∧ s.cnt ≠ 0#4 ∧
      closeScan m s = raise .truncatedGroup (s.pos - s.cnt.setWidth 32) s) ∨
    ((∀ signed, m ≠ .single signed) ∧ s.cnt = 0#4 ∧
      closeScan m s = { s with phase := .idle }) := by
  cases m <;> simp [closeScan]
  all_goals (by_cases hz : s.cnt = 0#4 <;> simp [hz])

/-- A scan step at the end of the input. -/
theorem scanStep_of_end {s : State} {m : ScanMode} (hm : scanMode s.op = some m)
    (he : s.pos = s.ilen) : scanStep s = .next (closeScan m s) := by
  simp only [scanStep, hm, if_pos he]

/-- A scan step with a byte present and a full group. -/
theorem scanStep_of_full {s : State} {m : ScanMode} (hm : scanMode s.op = some m)
    (hl : s.pos.toNat < s.ilen.toNat) (h10 : s.cnt = 10#4) :
    scanStep s = .next (raise .overflow s.pos s) := by
  have hne : s.pos ≠ s.ilen := by intro h; rw [h] at hl; omega
  simp only [scanStep, hm, if_neg hne, if_pos hl, if_pos h10]

/-- A load step at the end of the input. -/
theorem loadStep_of_end {s : State} {signed : Bool} (hm : loadSigned s.op = some signed)
    (he : s.pos = s.ilen) : loadStep s = .next { s with phase := .idle } := by
  simp only [loadStep, hm, if_pos he]

/-- A load step that fetches. -/
theorem loadStep_of_word {s : State} {signed : Bool} {w : Word}
    (hm : loadSigned s.op = some signed) (hne : s.pos ≠ s.ilen)
    (hw : readIbufWord s s.pos.toNat = .next w) :
    loadStep s = .next { s with
      acc := toWire signed w, pos := s.pos + 8#32, phase := .emit } := by
  simp only [loadStep, hm, if_neg hne, hw]

theorem scanMode_eq_some {op : BitVec 4} {m : ScanMode} (h : scanMode op = some m) :
    (op = 0x2#4 ∧ m = .single false) ∨ (op = 0x3#4 ∧ m = .single true) ∨
    (op = 0x6#4 ∧ m = .lengths) ∨ (op = 0xA#4 ∧ m = .words false) ∨
    (op = 0xB#4 ∧ m = .words true) := by
  revert h
  revert op
  cases m with
  | lengths => decide
  | single signed => cases signed <;> decide
  | words signed => cases signed <;> decide

theorem phaseAfterGroup_eq_some {op : BitVec 4} {p : Phase} (h : phaseAfterGroup op = some p) :
    (p = .idle ∧ op ∈ [0x0#4, 0x1#4]) ∨ (p = .load ∧ op ∈ [0x8#4, 0x9#4]) := by
  revert h
  revert op
  cases p <;> decide

theorem phaseAfterGroup_of_loadSigned {op : BitVec 4} {signed : Bool}
    (h : loadSigned op = some signed) : phaseAfterGroup op = some .load := by
  revert h
  revert op
  cases signed <;> decide

/-! ### The core does not see the outside world -/

/-- The result with another agenda in the next state. -/
def Result.withAgenda (l : List Event) : Result State → Result State
  | .next t => .next { t with agenda := l }
  | .fault f => .fault f
  | .refused r => .refused r

theorem storeOut_withAgenda (bs : List Byte) (s : State) (l : List Event) :
    storeOut bs { s with agenda := l } = Result.withAgenda l (storeOut bs s) := by
  unfold storeOut
  dsimp only
  split <;> rfl

theorem readIbufBytes_withAgenda (s : State) (l : List Event) (a n : Nat) :
    readIbufBytes { s with agenda := l } a n = readIbufBytes s a n := by
  induction n generalizing a with
  | zero => rfl
  | succ n ih => simp only [readIbufBytes, ih]; rfl

theorem finishGroup_withAgenda (m : ScanMode) (s : State) (l : List Event) :
    finishGroup m { s with agenda := l } = Result.withAgenda l (finishGroup m s) := by
  cases m
  · rfl
  · exact storeOut_withAgenda _ (clearGroup s) l
  · exact storeOut_withAgenda _ (clearGroup s) l

theorem scanByte_withAgenda {f : ScanMode → State → Result State}
    (hf : ∀ m s l, f m { s with agenda := l } = Result.withAgenda l (f m s)) (p : BitVec 7)
    (s : State) (l : List Event) :
    scanByte f p { s with agenda := l } = Result.withAgenda l (scanByte f p s) := by
  unfold scanByte
  dsimp only
  split
  · split
    · rfl
    · split
      · rfl
      · split
        · exact hf _ (acceptByte p s) l
        · rfl
  all_goals rfl

/-- A step of the core commutes with changing the agenda. -/
theorem coreStep_withAgenda (s : State) (l : List Event) :
    coreStep { s with agenda := l } = Result.withAgenda l (coreStep s) := by
  unfold coreStep
  dsimp only
  split
  · rfl
  · unfold loadStep
    dsimp only
    split
    · rfl
    · split
      · rfl
      · have hw : readIbufWord { s with agenda := l } s.pos.toNat = readIbufWord s s.pos.toNat := by
          unfold readIbufWord
          rw [readIbufBytes_withAgenda]
        rw [hw]
        cases readIbufWord s s.pos.toNat <;> rfl
  · unfold emitStep
    dsimp only
    split
    · rfl
    · split
      · exact storeOut_withAgenda _ { s with acc := lsr64 s.acc 7, cnt := s.cnt + 1#4 } l
      · exact storeOut_withAgenda _ { s with acc := 0#64, cnt := 0#4, phase := _ } l
  · unfold scanStep
    dsimp only
    split
    · rfl
    · next m hm =>
      split
      · unfold closeScan
        cases m <;> dsimp only
        · rfl
        · split <;> rfl
        · split <;> rfl
      · split
        · split
          · rfl
          · have hr : readIbuf { s with agenda := l } s.pos.toNat = readIbuf s s.pos.toNat := rfl
            rw [hr]
            cases readIbuf s s.pos.toNat with
            | next b =>
              dsimp only
              unfold decodeVarintByte
              split
              · exact scanByte_withAgenda (fun _ _ _ => rfl) _ s l
              · exact scanByte_withAgenda finishGroup_withAgenda _ s l
            | fault => rfl
            | refused => rfl
        · rfl

end Sys2Proof.Machine
end

