-- ==== Sys2Proof/Laws/Streams.lean ====
section
/-! SUPPORT. The laws of the payload sum, of cutting a stream into groups, and of words. -/

namespace Sys2Proof.Machine

/-- The value of a group's payloads as a number without a bound: the first is the least
significant. -/
def payloadSum : List Byte → Nat
  | [] => 0
  | b :: bs => (payload b).toNat + 2 ^ 7 * payloadSum bs

theorem udecFrom_succ (i : Nat) (s : List Byte) :
    udecFrom (i + 1) 0#64 s = shl64 (udecFrom i 0#64 s) 7 := by
  induction s generalizing i with
  | nil => simp [udecFrom, shl64]
  | cons b s ih =>
    simp only [udecFrom, BitVec.zero_or]
    rw [udecFrom_acc, udecFrom_acc (i + 1), shl64_or, ← ih, shl64_shl64, Nat.mul_add]

/-- The first byte's payload below the rest. -/
theorem udec_cons (b : Byte) (s : List Byte) :
    udec (b :: s) = zext64 (payload b) ||| shl64 (udec s) 7 := by
  simp only [udec, udecFrom]
  rw [udecFrom_acc, udecFrom_succ]
  simp [shl64]

theorem toNat_or_shl_seven (p : BitVec 7) (x : Word) :
    (zext64 p ||| shl64 x 7).toNat = p.toNat + x.toNat * 2 ^ 7 % 2 ^ 64 := by
  rw [BitVec.toNat_or, toNat_zext64, toNat_shl64]
  have h1 : x.toNat * 2 ^ 7 % 2 ^ 64 = (x.toNat % 2 ^ 57) * 2 ^ 7 := by omega
  have h2 := p.isLt
  rw [h1, Nat.or_comm, ← Nat.shiftLeft_eq, ← Nat.shiftLeft_add_eq_or_of_lt h2, Nat.shiftLeft_eq]
  omega

/-- `udec` is the sum of the payloads at their places, cut to 64 bits. -/
theorem toNat_udec (s : List Byte) : (udec s).toNat = payloadSum s % 2 ^ 64 := by
  induction s with
  | nil => rfl
  | cons b s ih =>
    rw [udec_cons, toNat_or_shl_seven, ih, payloadSum]
    have := (payload b).isLt
    omega

theorem payloadSum_lt (s : List Byte) : payloadSum s < 2 ^ (7 * s.length) := by
  induction s with
  | nil => simp [payloadSum]
  | cons c s ih =>
    simp only [payloadSum, List.length_cons]
    rw [show 7 * (s.length + 1) = 7 + 7 * s.length by omega, Nat.pow_add]
    have := (payload c).isLt
    nlinarith

theorem length_uencTurns_le (n : Nat) (v : Word) : (uencTurns n v).length ≤ n := by
  induction n generalizing v with
  | zero => exact Nat.le_refl 0
  | succ n ih =>
    rw [uencTurns_succ]
    split
    · simpa using ih _
    · simp

theorem length_uenc_le (v : Word) : (uenc v).length ≤ 10 := length_uencTurns_le 10 v

theorem segFrom_of_cont {b : Byte} (h : contBit b = true) (cur rest : List Byte) :
    segFrom cur (b :: rest) = segFrom (cur ++ [b]) rest := by simp [segFrom, h]

theorem segFrom_of_last {b : Byte} (h : contBit b = false) (cur rest : List Byte) :
    segFrom cur (b :: rest) =
      ((cur ++ [b]) :: (segFrom [] rest).1, (segFrom [] rest).2) := by simp [segFrom, h]

/-- No byte is lost from any point of the loop on. -/
theorem segFrom_flatten (cur rest : List Byte) :
    (segFrom cur rest).1.flatten ++ (segFrom cur rest).2 = cur ++ rest := by
  induction rest generalizing cur with
  | nil => simp [segFrom]
  | cons b rest ih =>
    cases h : contBit b with
    | true => rw [segFrom_of_cont h, ih]; simp
    | false =>
      rw [segFrom_of_last h]
      have := ih []
      simp at this ⊢
      exact this

theorem length_segFrom_le (cur rest : List Byte) : (segFrom cur rest).1.length ≤ rest.length := by
  induction rest generalizing cur with
  | nil => simp [segFrom]
  | cons b rest ih =>
    cases h : contBit b with
    | true => rw [segFrom_of_cont h]; have := ih (cur ++ [b]); simp; omega
    | false => rw [segFrom_of_last h]; have := ih []; simp; omega

/-- A group that is already longer than ten bytes is an `Overflow`, whatever follows. -/
theorem scanGroups_of_long (cur rest : List Byte) (h : 10 < cur.length) (base : Nat) :
    scanGroups (segFrom cur rest).2 (segFrom cur rest).1 base = ([], .overflow, base + 10) := by
  induction rest generalizing cur with
  | nil => simp [segFrom, scanGroups, h]
  | cons b rest ih =>
    cases hb : contBit b with
    | true => rw [segFrom_of_cont hb]; exact ih _ (by simp; omega)
    | false =>
      rw [segFrom_of_last hb]
      simp [scanGroups]
      omega

/-- A group of at most ten bytes is accepted. -/
theorem scanGroups_of_short {g : List Byte} (h : g.length ≤ 10) (r : List Byte)
    (gs : List (List Byte)) (base : Nat) :
    scanGroups r (g :: gs) base =
      (g :: (scanGroups r gs (base + g.length)).1, (scanGroups r gs (base + g.length)).2) := by
  rw [scanGroups, if_pos h]

/-- The three outcomes of a scan from position `base` on, and where their positions lie. -/
theorem scanGroups_outcome (r : List Byte) (gs : List (List Byte)) (base : Nat) :
    ((scanGroups r gs base).2.1 = .ok ∧ (scanGroups r gs base).2.2 = 0) ∨
    ((scanGroups r gs base).2.1 = .truncatedGroup ∧ base ≤ (scanGroups r gs base).2.2 ∧
      (scanGroups r gs base).2.2 ≤ base + gs.flatten.length) ∨
    ((scanGroups r gs base).2.1 = .overflow ∧ base + 10 ≤ (scanGroups r gs base).2.2 ∧
      (scanGroups r gs base).2.2 ≤ base + gs.flatten.length + r.length) := by
  induction gs generalizing base with
  | nil =>
    simp only [scanGroups]
    split
    · simp; omega
    · split <;> simp
  | cons g gs ih =>
    simp only [scanGroups]
    split
    · rcases ih (base + g.length) with ⟨h, h'⟩ | ⟨h, h1, h2⟩ | ⟨h, h1, h2⟩
      · exact .inl ⟨h, h'⟩
      · exact .inr (.inl ⟨h, by dsimp only; omega, by simp at h2 ⊢; omega⟩)
      · exact .inr (.inr ⟨h, by dsimp only; omega, by simp at h2 ⊢; omega⟩)
    · exact .inr (.inr ⟨rfl, Nat.le_refl _, by simp; omega⟩)

theorem length_scanGroups_le (r : List Byte) (gs : List (List Byte)) (base : Nat) :
    (scanGroups r gs base).1.length ≤ gs.length := by
  induction gs generalizing base with
  | nil => simp only [scanGroups]; split <;> (try split) <;> simp
  | cons g gs ih =>
    simp only [scanGroups]
    split
    · simpa using ih _
    · simp

theorem length_flatMap_of_const {α : Type} (l : List α) (f : α → List Byte) (n : Nat)
    (h : ∀ x, (f x).length = n) : (l.flatMap f).length = n * l.length := by
  induction l with
  | nil => simp
  | cons x l ih => simp only [List.flatMap_cons, List.length_append, List.length_cons, h, ih]; ring

theorem length_flatMap_le {α : Type} (l : List α) (f : α → List Byte) (n : Nat)
    (h : ∀ x, (f x).length ≤ n) : (l.flatMap f).length ≤ n * l.length := by
  induction l with
  | nil => simp
  | cons x l ih =>
    simp only [List.flatMap_cons, List.length_append, List.length_cons, Nat.mul_add]
    have := h x
    omega

theorem wordsOf_append (a rest : List Byte) (h : a.length = 8) :
    wordsOf (a ++ rest) = fromBe64 a :: wordsOf rest := by
  match a, h with
  | [_, _, _, _, _, _, _, _], _ => rfl

theorem length_wordsOf (n : Nat) (l : List Byte) (h : l.length = 8 * n) :
    (wordsOf l).length = n := by
  induction n generalizing l with
  | zero =>
    obtain rfl : l = [] := List.eq_nil_of_length_eq_zero (by omega)
    rfl
  | succ n ih =>
    have hw := wordsOf_append (l.take 8) (l.drop 8) (by simp; omega)
    rw [List.take_append_drop] at hw
    rw [hw, List.length_cons, ih _ (by simp; omega)]

theorem length_batchOutput_le (n : Nat) (signed : Bool) (l : List Byte) (h : l.length = 8 * n) :
    (batchOutput signed l).length ≤ 10 * n := by
  have hl := length_flatMap_le (wordsOf l) (fun w => uenc (toWire signed w)) 10
    (fun w => length_uenc_le _)
  rw [length_wordsOf n l h] at hl
  exact hl

end Sys2Proof.Machine
end

