-- ==== Sys2Proof/Laws/Runs.lean ====
section
/-! SUPPORT. What each phase does over many steps: emitting one group, scanning one group, scanning
a stream, encoding a batch, and waiting. Each lemma starts at any point of its phase. -/

namespace Sys2Proof.Machine

/-- `n` steps from `s` to `t`, the core busy before each of them. -/
def BusyRun (s : State) (n : Nat) (t : State) : Prop :=
  run n s = .next t ∧ ∀ k, k < n → ∃ v, run k s = .next v ∧ v.phase ≠ .idle

theorem BusyRun.zero (s : State) : BusyRun s 0 s := ⟨rfl, fun _ hk => absurd hk (Nat.not_lt_zero _)⟩

theorem BusyRun.step {s t u : State} {n : Nat} (hs : s.phase ≠ .idle) (h : step s = .next t)
    (hr : BusyRun t n u) : BusyRun s (n + 1) u := by
  refine ⟨by rw [run_succ_of_next h, hr.1], fun k hk => ?_⟩
  cases k with
  | zero => exact ⟨s, rfl, hs⟩
  | succ k => rw [run_succ_of_next h]; exact hr.2 k (by omega)

theorem BusyRun.one {s t : State} (hs : s.phase ≠ .idle) (h : Machine.step s = .next t) :
    BusyRun s 1 t := .step hs h (.zero t)

theorem BusyRun.trans {s t u : State} {m n : Nat} (h : BusyRun s m t) (h' : BusyRun t n u) :
    BusyRun s (m + n) u := by
  refine ⟨by rw [run_add h.1, h'.1], fun k hk => ?_⟩
  by_cases hm : k < m
  · exact h.2 k hm
  · obtain ⟨j, rfl⟩ : ∃ j, k = m + j := ⟨k - m, by omega⟩
    rw [run_add h.1]
    exact h'.2 j (by omega)

theorem BusyRun.runsTo {s t : State} {n : Nat} (h : BusyRun s n t) (hp : t.phase = .idle) :
    RunsTo s n t := ⟨h.1, hp, h.2⟩

theorem RunsTo.busyRun {s t : State} {n : Nat} (h : RunsTo s n t) : BusyRun s n t := ⟨h.1, h.2.2⟩

theorem ofNat_add_ofNat (x : Len) (a b : Nat) :
    x + BitVec.ofNat 32 a + BitVec.ofNat 32 b = x + BitVec.ofNat 32 (a + b) := by
  rw [BitVec.add_assoc, ← BitVec.ofNat_add]

theorem toNat_add_one {x : Len} {n : Nat} (h : x.toNat < n) (hn : n < 2 ^ 32) :
    (x + 1#32).toNat = x.toNat + 1 := by
  simp [BitVec.toNat_add]
  omega

theorem toNat_cnt_add_one {x : BitVec 4} (h : x.toNat < 10) : (x + 1#4).toNat = x.toNat + 1 := by
  simp [BitVec.toNat_add]
  omega

theorem toNat_lt_ten_of_ne {x : BitVec 4} (h : x ≠ 10#4) (hle : x.toNat ≤ 10) : x.toNat < 10 := by
  have : x.toNat ≠ 10 := fun h' => h (BitVec.eq_of_toNat_eq h')
  omega

/-- The accumulator holds `udec` of one byte more. -/
theorem acc_acceptByte {s : State} {g : List Byte} {b : Byte} (hl : s.cnt.toNat = g.length)
    (ha : s.acc = udec g) : (acceptByte (payload b) s).acc = udec (g ++ [b]) := by
  simp only [acceptByte]
  rw [hl, ha, udec_snoc]

/-- Emitting the rest of one group: the bytes of `uencTurns` are stored, then the phase of R172. -/
theorem emit_run (n : Nat) (s : State) (after : Phase) (ha : s.agenda = []) (hp : s.phase = .emit)
    (hm : phaseAfterGroup s.op = some after) (hv : s.acc.toNat < 2 ^ (7 * (n + 1)))
    (hr : s.olen.toNat + (uencTurns (n + 1) s.acc).length ≤ Config.obufCap) :
    BusyRun s (uencTurns (n + 1) s.acc).length { s with
      obuf := Memory.writeBytes s.obuf s.olen.toNat (uencTurns (n + 1) s.acc)
      olen := s.olen + BitVec.ofNat 32 (uencTurns (n + 1) s.acc).length
      acc := 0#64, cnt := 0#4, phase := after } := by
  have last : ∀ (k : Nat) (s : State), s.agenda = [] → s.phase = .emit →
      phaseAfterGroup s.op = some after → s.acc.toNat < 2 ^ 7 →
      s.olen.toNat + (uencTurns (k + 1) s.acc).length ≤ Config.obufCap →
      BusyRun s (uencTurns (k + 1) s.acc).length { s with
        obuf := Memory.writeBytes s.obuf s.olen.toNat (uencTurns (k + 1) s.acc)
        olen := s.olen + BitVec.ofNat 32 (uencTurns (k + 1) s.acc).length
        acc := 0#64, cnt := 0#4, phase := after } := by
    intro k s ha hp hm hs hr
    rw [uencTurns_small hs] at hr ⊢
    refine BusyRun.one (by rw [hp]; simp) ?_
    rw [step_of_nil ha, coreStep_of_emit hp,
      emitStep_of_small hm (by simpa using hr) ((lsr64_seven_eq_zero_iff _).2 hs)]
    rfl
  induction n generalizing s with
  | zero => exact last 0 s ha hp hm (by simpa using hv) hr
  | succ n ih =>
    by_cases hs : s.acc.toNat < 2 ^ 7
    · exact last (n + 1) s ha hp hm hs hr
    · have hl : (lsr64 s.acc 7).toNat < 2 ^ (7 * (n + 1)) := by
        rw [toNat_lsr64]
        rw [show 7 * (n + 1 + 1) = 7 * (n + 1) + 7 by omega, Nat.pow_add] at hv
        exact Nat.div_lt_of_lt_mul (by omega)
      rw [uencTurns_large (by omega)] at hr ⊢
      simp only [List.length_cons] at hr ⊢
      have h1 : s.olen.toNat + 1 ≤ Config.obufCap := by omega
      have ho : (s.olen + 1#32).toNat = s.olen.toNat + 1 := toNat_olen_add (n := 1) h1
      have hne : lsr64 s.acc 7 ≠ 0#64 := by rw [Ne, lsr64_seven_eq_zero_iff]; exact hs
      refine BusyRun.step (by rw [hp]; simp)
        (by rw [step_of_nil ha, coreStep_of_emit hp, emitStep_of_large hm h1 hne]) ?_
      have hrun := ih { s with
        obuf := Memory.write s.obuf s.olen.toNat (contByte (low7 s.acc))
        olen := s.olen + 1#32, acc := lsr64 s.acc 7, cnt := s.cnt + 1#4 } ha hp hm hl
        (by simp only [ho]; omega)
      simp only [ho] at hrun
      have hadd : s.olen + 1#32 + BitVec.ofNat 32 (uencTurns (n + 1) (lsr64 s.acc 7)).length =
          s.olen + BitVec.ofNat 32 ((uencTurns (n + 1) (lsr64 s.acc 7)).length + 1) := by
        rw [show (1#32 : Len) = BitVec.ofNat 32 1 from rfl, ofNat_add_ofNat, Nat.add_comm]
      rw [hadd] at hrun
      exact hrun

/-- A scan step that reads a byte in a single decode. -/
theorem step_single {s : State} {signed : Bool} {b : Byte} (ha : s.agenda = [])
    (hp : s.phase = .scan) (hm : scanMode s.op = some (.single signed))
    (hl : s.pos.toNat < s.ilen.toNat) (hc : s.pos.toNat < Config.ibufCap)
    (hb : Memory.read? s.ibuf s.pos.toNat = some b) (h9 : s.cnt.toNat < 10) :
    step s = .next (acceptByte (payload b) s) := by
  rw [step_of_nil ha, coreStep_of_scan hp, scanStep_of_read hp hm hl hc hb, decodeVarintByte]
  split
  · exact (scanByte_eq_next hp hm).2 (.inr ⟨h9, rfl⟩)
  · exact (scanByte_eq_next hp hm).2 (.inr ⟨h9, rfl⟩)

/-- A scan step that reads a continuation byte. -/
theorem step_cont {s : State} {m : ScanMode} {b : Byte} (ha : s.agenda = [])
    (hp : s.phase = .scan) (hm : scanMode s.op = some m) (hl : s.pos.toNat < s.ilen.toNat)
    (hc : s.pos.toNat < Config.ibufCap) (hb : Memory.read? s.ibuf s.pos.toNat = some b)
    (h9 : s.cnt.toNat < 10) (hcb : contBit b = true) :
    step s = .next (acceptByte (payload b) s) := by
  rw [step_of_nil ha, coreStep_of_scan hp, scanStep_of_read hp hm hl hc hb, decodeVarintByte, hcb]
  exact (scanByte_eq_next hp hm).2 (.inr ⟨h9, rfl⟩)

/-- A scan step that reads a final byte of a stream. -/
theorem step_last {s : State} {m : ScanMode} {b : Byte} (hns : ∀ signed, m ≠ .single signed)
    (ha : s.agenda = []) (hp : s.phase = .scan) (hm : scanMode s.op = some m)
    (hl : s.pos.toNat < s.ilen.toNat) (hc : s.pos.toNat < Config.ibufCap)
    (hb : Memory.read? s.ibuf s.pos.toNat = some b) (h9 : s.cnt.toNat < 10)
    (hcb : contBit b = false)
    (hr : s.olen.toNat + (closedOutput m (acceptByte (payload b) s)).length ≤ Config.obufCap) :
    step s = .next { acceptByte (payload b) s with
      obuf := Memory.writeBytes s.obuf s.olen.toNat (closedOutput m (acceptByte (payload b) s))
      olen := s.olen + BitVec.ofNat 32 (closedOutput m (acceptByte (payload b) s)).length
      acc := 0#64, cnt := 0#4 } := by
  rw [step_of_nil ha, coreStep_of_scan hp, scanStep_of_read hp hm hl hc hb, decodeVarintByte, hcb]
  exact (scanByte_eq_next hp hm).2 (.inr ⟨h9, finishGroup_eq_next.2 (.inr ⟨hns, hr, rfl⟩)⟩)

/-- The rest of a single decode of which the bytes `cur` are done and `rest` is to come. -/
theorem single_run (rest cur : List Byte) (s : State) (signed : Bool) (ha : s.agenda = [])
    (hp : s.phase = .scan) (hm : scanMode s.op = some (.single signed))
    (hil : s.ilen.toNat ≤ Config.ibufCap) (hlen : s.pos.toNat + rest.length = s.ilen.toNat)
    (hr : Memory.readBytes? s.ibuf s.pos.toNat rest.length = some rest)
    (hpos : s.pos.toNat = cur.length) (hcnt : s.cnt.toNat = cur.length) (hc : cur.length ≤ 10)
    (hacc : s.acc = udec cur) :
    (s.ilen.toNat ≤ 10 → RunsTo s (rest.length + 1) { s with
      val := fromWire signed (udec (cur ++ rest)), pos := s.ilen, cnt := s.ilen.setWidth 4
      acc := udec (cur ++ rest), phase := .idle }) ∧
    (10 < s.ilen.toNat → RunsTo s (10 - cur.length + 1) (raise .overflow 10#32
      { s with pos := 10#32, cnt := 10#4, acc := udec ((cur ++ rest).take 10) })) := by
  have hb : s.phase ≠ .idle := by rw [hp]; simp
  have hcap := Config.ibufCap_lt
  induction rest generalizing s cur with
  | nil =>
    simp at hlen
    have he : s.pos = s.ilen := BitVec.eq_of_toNat_eq hlen
    refine ⟨fun _ => ?_, fun h => by omega⟩
    refine RunsTo.step hb (by rw [step_of_nil ha, coreStep_of_scan hp, scanStep_of_end hm he]) ?_
    have hcw : s.pos.setWidth 4 = s.cnt := by
      apply BitVec.eq_of_toNat_eq
      simp
      omega
    simp only [closeScan, List.append_nil, hcw, ← hacc, ← he]
    exact RunsTo.zero rfl
  | cons b rest ih =>
    simp only [List.length_cons] at hlen hr
    have hl : s.pos.toNat < s.ilen.toNat := by omega
    obtain ⟨_, _, hb1, hb2, h⟩ := Memory.readBytes?_succ_eq_some.1 hr
    cases h
    by_cases h10 : s.cnt = 10#4
    · have hcl : cur.length = 10 := by rw [← hcnt, h10]; rfl
      refine ⟨fun h => by omega, fun _ => ?_⟩
      have hp10 : s.pos = 10#32 := by apply BitVec.eq_of_toNat_eq; rw [hpos, hcl]; rfl
      have htake : (cur ++ b :: rest).take 10 = cur := by rw [← hcl]; simp
      rw [htake, hcl]
      refine RunsTo.step hb
        (by rw [step_of_nil ha, coreStep_of_scan hp, scanStep_of_full hm hl h10]) ?_
      have hsame : raise .overflow s.pos s = raise .overflow 10#32
          { s with pos := 10#32, cnt := 10#4, acc := udec cur } := by
        rw [← hacc, ← h10, ← hp10]
      rw [hsame]
      exact RunsTo.zero rfl
    · have h9 := toNat_lt_ten_of_ne h10 (by omega)
      have hstep := step_single ha hp hm hl (by omega) hb1 h9
      have hp1 : (s.pos + 1#32).toNat = s.pos.toNat + 1 := toNat_add_one hl (by omega)
      have hc1 := toNat_cnt_add_one h9
      have hrun := ih (cur ++ [b]) (acceptByte (payload b) s) ha hp hm hil
        (by show (s.pos + 1#32).toNat + _ = s.ilen.toNat; omega)
        (by show Memory.readBytes? s.ibuf (s.pos + 1#32).toNat _ = _; rw [hp1]; exact hb2)
        (by show (s.pos + 1#32).toNat = _; simp; omega)
        (by show (s.cnt + 1#4).toNat = _; simp; omega) (by simp; omega)
        (acc_acceptByte hcnt hacc) hb
      rw [List.append_assoc] at hrun
      refine ⟨fun h => RunsTo.step hb hstep (hrun.1 h), fun h => ?_⟩
      have hn : 10 - cur.length + 1 = (10 - (cur ++ [b]).length + 1) + 1 := by simp; omega
      rw [hn]
      exact RunsTo.step hb hstep (hrun.2 h)

/-- Where a stream scan ends, from a state whose open group starts at `base`, when `tot` are the
bytes from `base` on and the scan of `tot` gives the triple. -/
def scanEnd (m : ScanMode) (s : State) (tot : List Byte) (base : Nat) :
    List (List Byte) × ErrCode × Nat → State
  | (gs, .ok, _) => { s with
      obuf := Memory.writeBytes s.obuf s.olen.toNat (gs.flatMap (groupOutput m))
      olen := s.olen + BitVec.ofNat 32 (gs.flatMap (groupOutput m)).length
      pos := s.ilen, cnt := 0#4, acc := 0#64, phase := .idle }
  | (gs, .truncatedGroup, p) => { s with
      obuf := Memory.writeBytes s.obuf s.olen.toNat (gs.flatMap (groupOutput m))
      olen := s.olen + BitVec.ofNat 32 (gs.flatMap (groupOutput m)).length
      pos := s.ilen, cnt := BitVec.ofNat 4 (s.ilen.toNat - p), acc := udec (tot.drop (p - base))
      phase := .idle, err := .truncatedGroup, errpos := BitVec.ofNat 32 p }
  | (gs, e, p) => { s with
      obuf := Memory.writeBytes s.obuf s.olen.toNat (gs.flatMap (groupOutput m))
      olen := s.olen + BitVec.ofNat 32 (gs.flatMap (groupOutput m)).length
      pos := BitVec.ofNat 32 p, cnt := 10#4, acc := udec ((tot.drop (p - 10 - base)).take 10)
      phase := .idle, err := e, errpos := BitVec.ofNat 32 p }

/-- How many steps that takes when `n` bytes are left from `pos` on. -/
def scanEndSteps (n pos : Nat) : List (List Byte) × ErrCode × Nat → Nat
  | (_, .overflow, p) => p - pos + 1
  | _ => n + 1

/-- The rest of a stream scan whose open group is `cur`, starting at `base`, with `rest` to come. -/
theorem scan_run (m : ScanMode) (hns : ∀ signed, m ≠ .single signed) (rest cur : List Byte)
    (s : State) (base : Nat) (ha : s.agenda = []) (hp : s.phase = .scan)
    (hm : scanMode s.op = some m) (hil : s.ilen.toNat ≤ Config.ibufCap)
    (hlen : s.pos.toNat + rest.length = s.ilen.toNat)
    (hr : Memory.readBytes? s.ibuf s.pos.toNat rest.length = some rest)
    (hpos : s.pos.toNat = base + cur.length) (hcnt : s.cnt.toNat = cur.length)
    (hc : cur.length ≤ 10) (hacc : s.acc = udec cur) (hol : s.olen.toNat ≤ 8 * base) :
    RunsTo s
      (scanEndSteps rest.length s.pos.toNat
        (scanGroups (segFrom cur rest).2 (segFrom cur rest).1 base))
      (scanEnd m s (cur ++ rest) base
        (scanGroups (segFrom cur rest).2 (segFrom cur rest).1 base)) := by
  have hb : s.phase ≠ .idle := by rw [hp]; simp
  have hcap := Config.ibufCap_lt
  have hcap8 := Config.eight_ibufCap_le_obufCap
  induction rest generalizing s cur base with
  | nil =>
    simp at hlen
    have he : s.pos = s.ilen := BitVec.eq_of_toNat_eq hlen
    simp only [segFrom, scanGroups]
    rw [if_neg (by omega)]
    have hstep : step s = .next (closeScan m s) := by
      rw [step_of_nil ha, coreStep_of_scan hp, scanStep_of_end hm he]
    by_cases hz : cur.length = 0
    · obtain rfl : cur = [] := List.eq_nil_of_length_eq_zero hz
      have hc0 : s.cnt = 0#4 := BitVec.eq_of_toNat_eq hcnt
      have ha0 : s.acc = 0#64 := hacc
      rw [if_neg (by simp)]
      refine RunsTo.step hb hstep ?_
      rcases closeScan_cases m s with ⟨g, hg, _⟩ | ⟨_, hc, _⟩ | ⟨_, _, h⟩
      · exact absurd hg (hns g)
      · exact absurd hc0 hc
      · rw [h]
        simp only [scanEnd, List.flatMap_nil, Memory.writeBytes_nil, List.length_nil,
          BitVec.add_zero, ← hc0, ← ha0, ← he]
        exact RunsTo.zero rfl
    · rw [if_pos (by omega)]
      have hc0 : s.cnt ≠ 0#4 := by
        intro h
        rw [h] at hcnt
        simp at hcnt
        omega
      refine RunsTo.step hb hstep ?_
      rcases closeScan_cases m s with ⟨g, hg, _⟩ | ⟨_, _, h⟩ | ⟨_, hc, _⟩
      · exact absurd hg (hns g)
      · rw [h]
        have h1 : BitVec.ofNat 4 (s.pos.toNat - base) = s.cnt := by
          apply BitVec.eq_of_toNat_eq
          simp
          omega
        have h2 : s.pos - s.cnt.setWidth 32 = BitVec.ofNat 32 base := by
          apply BitVec.eq_of_toNat_eq
          rw [BitVec.toNat_sub]
          simp
          omega
        simp only [scanEnd, raise, List.flatMap_nil, Memory.writeBytes_nil, List.length_nil,
          BitVec.add_zero, h1, Nat.sub_self, List.drop_zero, List.append_nil, ← hacc, ← he, h2]
        exact RunsTo.zero rfl
      · exact absurd hc hc0
  | cons b rest ih =>
    simp only [List.length_cons] at hlen hr
    have hl : s.pos.toNat < s.ilen.toNat := by omega
    obtain ⟨_, _, hb1, hb2, h⟩ := Memory.readBytes?_succ_eq_some.1 hr
    cases h
    by_cases h10 : s.cnt = 10#4
    · have hcl : cur.length = 10 := by rw [← hcnt, h10]; rfl
      have hseg : scanGroups (segFrom cur (b :: rest)).2 (segFrom cur (b :: rest)).1 base =
          ([], .overflow, base + 10) := by
        cases hcb : contBit b with
        | true => rw [segFrom_of_cont hcb]; exact scanGroups_of_long _ _ (by simp; omega) _
        | false => rw [segFrom_of_last hcb]; simp [scanGroups]; omega
      have hsp : s.pos = BitVec.ofNat 32 (base + 10) := by
        apply BitVec.eq_of_toNat_eq
        simp
        omega
      have htake : (cur ++ b :: rest).take 10 = cur := by rw [← hcl]; simp
      rw [hseg]
      simp only [scanEndSteps, scanEnd]
      rw [show base + 10 - s.pos.toNat = 0 by omega]
      refine RunsTo.step hb
        (by rw [step_of_nil ha, coreStep_of_scan hp, scanStep_of_full hm hl h10]) ?_
      simp only [List.flatMap_nil, Memory.writeBytes_nil, List.length_nil, BitVec.add_zero,
        Nat.add_sub_cancel, Nat.sub_self, List.drop_zero, htake, ← hacc, ← h10, ← hsp]
      exact RunsTo.zero rfl
    · have h9 := toNat_lt_ten_of_ne h10 (by omega)
      have hp1 : (s.pos + 1#32).toNat = s.pos.toNat + 1 := toNat_add_one hl (by omega)
      have hc1 := toNat_cnt_add_one h9
      have hacc' := acc_acceptByte (b := b) hcnt hacc
      cases hcb : contBit b with
      | true =>
        have hrun := ih (cur ++ [b]) (acceptByte (payload b) s) base ha hp hm hil
          (by show (s.pos + 1#32).toNat + _ = s.ilen.toNat; omega)
          (by show Memory.readBytes? s.ibuf (s.pos + 1#32).toNat _ = _; rw [hp1]; exact hb2)
          (by show (s.pos + 1#32).toNat = _; simp; omega)
          (by show (s.cnt + 1#4).toNat = _; simp; omega) (by simp; omega) hacc' hol hb
        rw [List.append_assoc] at hrun
        rw [segFrom_of_cont hcb]
        have hP := scanGroups_outcome (segFrom (cur ++ [b]) rest).2 (segFrom (cur ++ [b]) rest).1 base
        generalize scanGroups (segFrom (cur ++ [b]) rest).2 (segFrom (cur ++ [b]) rest).1 base = res
          at *
        obtain ⟨gs, e, p⟩ := res
        have hcount : scanEndSteps (b :: rest).length s.pos.toNat (gs, e, p) =
            scanEndSteps rest.length (acceptByte (payload b) s).pos.toNat (gs, e, p) + 1 := by
          cases e <;> simp only [scanEndSteps, List.length_cons, acceptByte, hp1]
          simp at hP
          omega
        have hfin : scanEnd m s (cur ++ b :: rest) base (gs, e, p) =
            scanEnd m (acceptByte (payload b) s) (cur ++ ([b] ++ rest)) base (gs, e, p) := by
          cases e <;> rfl
        rw [hcount, hfin]
        exact RunsTo.step hb (step_cont ha hp hm hl (by omega) hb1 h9 hcb) hrun
      | false =>
        have hout : closedOutput m (acceptByte (payload b) s) = groupOutput m (cur ++ [b]) := by
          cases m with
          | single g => exact absurd rfl (hns g)
          | lengths =>
            simp only [closedOutput, groupOutput, List.cons.injEq, and_true, acceptByte]
            apply BitVec.eq_of_toNat_eq
            simp
            omega
          | words g => simp only [closedOutput, groupOutput, hacc']
        have hlen8 : (groupOutput m (cur ++ [b])).length ≤ 8 := by
          cases m <;> simp [groupOutput]
        have hroom : s.olen.toNat + (groupOutput m (cur ++ [b])).length ≤ Config.obufCap := by omega
        have ho := toNat_olen_add hroom
        have hstep := step_last hns ha hp hm hl (by omega) hb1 h9 hcb (by rw [hout]; exact hroom)
        rw [hout] at hstep
        have hrun := ih [] { acceptByte (payload b) s with
            obuf := Memory.writeBytes s.obuf s.olen.toNat (groupOutput m (cur ++ [b]))
            olen := s.olen + BitVec.ofNat 32 (groupOutput m (cur ++ [b])).length
            acc := 0#64, cnt := 0#4 } (base + (cur ++ [b]).length) ha hp hm hil
          (by show (s.pos + 1#32).toNat + _ = s.ilen.toNat; omega)
          (by show Memory.readBytes? s.ibuf (s.pos + 1#32).toNat _ = _; rw [hp1]; exact hb2)
          (by show (s.pos + 1#32).toNat = _; simp; omega) rfl (by simp) rfl
          (by show (s.olen + _).toNat ≤ _; rw [ho]; simp; omega) hb
        rw [segFrom_of_last hcb]
        simp only [scanGroups_of_short (show (cur ++ [b]).length ≤ 10 by simp; omega)]
        have hP := scanGroups_outcome (segFrom [] rest).2 (segFrom [] rest).1
          (base + (cur ++ [b]).length)
        generalize scanGroups (segFrom [] rest).2 (segFrom [] rest).1
          (base + (cur ++ [b]).length) = res at *
        obtain ⟨gs, e, p⟩ := res
        have hcount : scanEndSteps (b :: rest).length s.pos.toNat ((cur ++ [b]) :: gs, e, p) =
            scanEndSteps rest.length (s.pos + 1#32).toNat (gs, e, p) + 1 := by
          cases e <;> simp only [scanEndSteps, List.length_cons, hp1]
          simp at hP
          omega
        have hd : ∀ j, base + (cur ++ [b]).length ≤ j →
            (cur ++ b :: rest).drop (j - base) = rest.drop (j - (base + (cur ++ [b]).length)) := by
          intro j hj
          rw [show j - base = (cur ++ [b]).length + (j - (base + (cur ++ [b]).length)) by omega,
            ← List.drop_drop, show cur ++ b :: rest = (cur ++ [b]) ++ rest by simp, List.drop_left]
        have hfin : scanEnd m s (cur ++ b :: rest) base ((cur ++ [b]) :: gs, e, p) =
            scanEnd m { acceptByte (payload b) s with
              obuf := Memory.writeBytes s.obuf s.olen.toNat (groupOutput m (cur ++ [b]))
              olen := s.olen + BitVec.ofNat 32 (groupOutput m (cur ++ [b])).length
              acc := 0#64, cnt := 0#4 } ([] ++ rest) (base + (cur ++ [b]).length) (gs, e, p) := by
          cases e <;> simp at hP <;> simp only [scanEnd, List.flatMap_cons,
            Memory.writeBytes_append, ho, ofNat_add_ofNat, List.length_append, acceptByte,
            List.nil_append]
          · rw [hd _ (by simp; omega)]; simp
          · rw [hd _ (by simp; omega)]; simp
        simp only
        rw [hcount, hfin]
        exact RunsTo.step hb hstep hrun

/-- A prefix and the rest of what is read. -/
theorem Memory.readBytes?_split {m : Memory} {a i j : Nat} {s : List Byte}
    (h : Memory.readBytes? m a (i + j) = some s) :
    Memory.readBytes? m a i = some (s.take i) ∧
      Memory.readBytes? m (a + i) j = some (s.drop i) := by
  have hl := Memory.readBytes?_length h
  have h1 := Memory.readBytes?_sub h 0 i (by omega)
  have h2 := Memory.readBytes?_sub h i j (by omega)
  simp at h1
  rw [List.take_of_length_le (by simp; omega)] at h2
  exact ⟨h1, h2⟩

/-- The rest of a batch encoding, from a `LOAD` state with `n` words to come. -/
theorem batch_run (n : Nat) (rest : List Byte) (s : State) (signed : Bool) (ha : s.agenda = [])
    (hp : s.phase = .load) (hm : loadSigned s.op = some signed)
    (hil : s.ilen.toNat ≤ Config.ibufCap) (hn : rest.length = 8 * n)
    (hlen : s.pos.toNat + 8 * n = s.ilen.toNat)
    (hr : Memory.readBytes? s.ibuf s.pos.toNat (8 * n) = some rest) (hcnt : s.cnt = 0#4)
    (hacc : s.acc = 0#64) (hol : 8 * s.olen.toNat ≤ 10 * s.pos.toNat) :
    RunsTo s (n + 1 + (batchOutput signed rest).length) { s with
      obuf := Memory.writeBytes s.obuf s.olen.toNat (batchOutput signed rest)
      olen := s.olen + BitVec.ofNat 32 (batchOutput signed rest).length
      pos := s.ilen, phase := .idle } := by
  have hb : s.phase ≠ .idle := by rw [hp]; simp
  have hcap := Config.ibufCap_lt
  have hcap8 := Config.eight_ibufCap_le_obufCap
  induction n generalizing rest s with
  | zero =>
    obtain rfl : rest = [] := List.eq_nil_of_length_eq_zero (by omega)
    have he : s.pos = s.ilen := BitVec.eq_of_toNat_eq (by omega)
    refine RunsTo.step hb (by rw [step_of_nil ha, coreStep_of_load hp, loadStep_of_end hm he]) ?_
    simp only [batchOutput, wordsOf, List.flatMap_nil, Memory.writeBytes_nil, List.length_nil,
      BitVec.add_zero, ← he]
    exact RunsTo.zero rfl
  | succ n ih =>
    have hne : s.pos ≠ s.ilen := by intro h; rw [h] at hlen; omega
    rw [show 8 * (n + 1) = 8 + 8 * n by omega] at hr
    obtain ⟨hr1, hr2⟩ := Memory.readBytes?_split hr
    have hl8 : (rest.take 8).length = 8 := by simp; omega
    have hout : batchOutput signed rest =
        uenc (toWire signed (fromBe64 (rest.take 8))) ++ batchOutput signed (rest.drop 8) := by
      conv_lhs => rw [← List.take_append_drop 8 rest]
      simp only [batchOutput, wordsOf_append _ _ hl8, List.flatMap_cons]
    have hp8 : (s.pos + 8#32).toNat = s.pos.toNat + 8 := by
      simp [BitVec.toNat_add]
      omega
    have hw := readIbufWord_of_written (s := s) (a := s.pos.toNat) (by omega) hr1
    have hstep : step s = .next { s with
        acc := toWire signed (fromBe64 (rest.take 8)), pos := s.pos + 8#32, phase := .emit } := by
      rw [step_of_nil ha, coreStep_of_load hp, loadStep_of_word hm hne hw]
    have hul := length_uenc_le (toWire signed (fromBe64 (rest.take 8)))
    have hroom : s.olen.toNat + (uenc (toWire signed (fromBe64 (rest.take 8)))).length ≤
        Config.obufCap := by omega
    have hv : (toWire signed (fromBe64 (rest.take 8))).toNat < 2 ^ (7 * (9 + 1)) := by omega
    have he := emit_run 9 { s with
      acc := toWire signed (fromBe64 (rest.take 8)), pos := s.pos + 8#32, phase := .emit } .load ha
      rfl (phaseAfterGroup_of_loadSigned hm) hv hroom
    have ho := toNat_olen_add hroom
    have h3 := ih (rest.drop 8) { s with
        obuf := Memory.writeBytes s.obuf s.olen.toNat
          (uenc (toWire signed (fromBe64 (rest.take 8))))
        olen := s.olen +
          BitVec.ofNat 32 (uenc (toWire signed (fromBe64 (rest.take 8)))).length
        acc := 0#64, cnt := 0#4, pos := s.pos + 8#32, phase := .load } ha rfl hm hil
      (by simp; omega) (by simp only [hp8]; omega) (by simp only [hp8]; exact hr2) rfl rfl
      (by simp only [hp8, ho]; omega) (by simp)
    simp only at h3
    rw [ho] at h3
    have h5 := ((BusyRun.step hb hstep he).trans h3.busyRun).runsTo h3.2.1
    have hcount : n + 1 + 1 + (batchOutput signed rest).length =
        (uencTurns (9 + 1) (toWire signed (fromBe64 (List.take 8 rest)))).length + 1 +
          (n + 1 + (batchOutput signed (List.drop 8 rest)).length) := by
      rw [hout, List.length_append]
      show _ = (uenc _).length + 1 + _
      omega
    rw [hcount, hout, Memory.writeBytes_append, List.length_append, hcnt, hacc]
    simp only [ofNat_add_ofNat] at h5
    exact h5

/-- A waiting host sees the run of the core, and goes on when it is over. -/
theorem wait_run (n : Nat) (t u : State) (rest : List Event) (ha : t.agenda = [])
    (h : RunsTo t n u) :
    run (n + 1) { t with agenda := .host .wait :: rest } = .next { u with agenda := rest } := by
  induction n generalizing t with
  | zero =>
    obtain ⟨h1, h2, _⟩ := h
    cases h1
    exact run_one_of_next
      (step_of_wait_idle (s := { u with agenda := .host .wait :: rest }) rfl h2)
  | succ n ih =>
    obtain ⟨h1, h2, h3⟩ := h
    obtain ⟨v, hv, hb⟩ := h3 0 (by omega)
    cases hv
    simp only [run] at h1
    cases hs : step t with
    | fault f => rw [hs] at h1; cases h1
    | refused f => rw [hs] at h1; cases h1
    | next w =>
      rw [hs] at h1
      have hc : coreStep t = .next w := by rw [← step_of_nil ha]; exact hs
      have hw : w.agenda = [] := by
        have h4 := coreStep_withAgenda t []
        have h5 : ({ t with agenda := [] } : State) = t := by rw [← ha]
        rw [h5, hc] at h4
        exact congrArg (fun r => match r with | Host.Outcome.next u => u.agenda | _ => []) h4
      have hst : step { t with agenda := .host .wait :: rest } =
          .next { w with agenda := .host .wait :: rest } := by
        rw [step_of_wait_busy (s := { t with agenda := .host .wait :: rest }) rfl hb,
          coreStep_withAgenda, hc]
        rfl
      rw [run_succ_of_next hst]
      refine ih w hw ⟨h1, h2, fun k hk => ?_⟩
      obtain ⟨v, hv, hvb⟩ := h3 (k + 1) (by omega)
      rw [run_succ_of_next hs] at hv
      exact ⟨v, hv, hvb⟩

end Sys2Proof.Machine
end

