-- ==== Sys2Proof/Tests/Slice0.lean ====
section
/-! SUPPORT. Tests with expected results from the spec (30_encoding.md, 45_sequencer.md R178,
95_test_vectors.md), the smoke tests of WellFormed, and for each obligation with hypotheses a state
and operands that meet them. -/

namespace Sys2Proof.Tests

open Sys2Proof Sys2Proof.Machine

/-! ### Helpers -/

/-- The result is a next state with the property. -/
def nextIs (r : Result State) (p : State → Bool) : Bool :=
  match r with
  | .next t => p t
  | .fault _ => false
  | .refused _ => false

/-- A memory whose first bytes are given. -/
def bytes (bs : List Byte) : Memory := Memory.writeBytes [] 0 bs

/-- An idle state with an input buffer, `ILEN` and `VAL`. -/
def idle (input : List Byte) (v : Word) : State :=
  { State.reset with ibuf := bytes input, ilen := BitVec.ofNat 32 input.length, val := v }

/-- A busy state of the operation `op`. -/
def busy (op : BitVec 4) (phase : Phase) (input : List Byte) (pos cnt : Nat) (acc : Word) : State :=
  { idle input 0 with
    cmd := op.setWidth 8, op := op, phase := phase
    pos := BitVec.ofNat 32 pos, cnt := BitVec.ofNat 4 cnt, acc := acc }

/-- The state with one event to come. -/
def before (e : Event) (s : State) : State := { s with agenda := [e] }

/-! ### Decoding: words written out from the spec's encodings (R71, R77) -/

theorem test_decode_uenc : decodeTableWord 8 0b00000000 = some .uenc := by decide
theorem test_decode_senc : decodeTableWord 8 0b00000001 = some .senc := by decide
theorem test_decode_udec : decodeTableWord 8 0b00000010 = some .udec := by decide
theorem test_decode_sdec : decodeTableWord 8 0b00000011 = some .sdec := by decide
theorem test_decode_zze : decodeTableWord 8 0b00000100 = some .zze := by decide
theorem test_decode_zzd : decodeTableWord 8 0b00000101 = some .zzd := by decide
theorem test_decode_seg : decodeTableWord 8 0b00000110 = some .seg := by decide
theorem test_decode_uencs : decodeTableWord 8 0b00001000 = some .uencs := by decide
theorem test_decode_sencs : decodeTableWord 8 0b00001001 = some .sencs := by decide
theorem test_decode_udecs : decodeTableWord 8 0b00001010 = some .udecs := by decide
theorem test_decode_sdecs : decodeTableWord 8 0b00001011 = some .sdecs := by decide
theorem test_decode_vbCont : decodeTableWord 8 0b10101100 = some (.vbCont 0x2C#7) := by decide
theorem test_decode_vbLast : decodeTableWord 8 0b01111111 = some (.vbLast 0x7F#7) := by decide
/-- The byte `02` is `UDEC` as a command and a final byte as data (R71, R77). -/
theorem test_decode_vbLast_two : decodeVarintByte 0x02#8 = .vbLast 0x02#7 := by decide
/-- Reserved codes and non-zero high bits are no commands, each by its name (R80). -/
theorem test_decode_reserved :
    (match decodeCommand 0x07#8, decodeCommand 0x0C#8, decodeCommand 0x10#8, decode .cmd [] with
      | .error .reservedCode, .error .reservedCode, .error .highBitsSet, .error .noByte => true
      | _, _, _, _ => false) = true := by decide
theorem test_encode_vbCont : encode (.vbCont 0x2C#7) = [0xAC#8] := by decide
theorem test_encode_vbLast : encode (.vbLast 0x02#7) = [0x02#8] := by decide

/-! ### WellFormed: each check refuses an ill-formed term -/

theorem test_wellFormed_instruction : (Instr.vbLast 0x7F#7).wellFormed = true := by decide
/-- Ends in a continuation byte. -/
theorem test_completeGroup_refuses : completeGroup [0xAC#8, 0x82#8] = false := by decide
/-- A final byte inside. -/
theorem test_completeGroup_refuses_inside : completeGroup [0x2C#8, 0x02#8] = false := by decide
theorem test_completeGroup_refuses_empty : completeGroup [] = false := by decide
/-- Eleven bytes. -/
theorem test_wellFormedGroup_refuses :
    wellFormedGroup (List.replicate 10 0x80#8 ++ [0x01#8]) = false := by decide
/-- T2.3: padded with a zero byte. -/
theorem test_minimalGroup_refuses : minimalGroup [0x80#8, 0x00#8] = false := by decide
/-- T2.6: high payload bits in a tenth byte. -/
theorem test_minimalGroup_refuses_tenth :
    minimalGroup (List.replicate 9 0xFF#8 ++ [0x7F#8]) = false := by decide
/-- A dangling group. -/
theorem test_wellFormedStream_refuses :
    wellFormedStream [0xAC#8, 0x02#8, 0x80#8] = false := by decide
theorem test_wellFormedStream_accepts :
    wellFormedStream [0xAC#8, 0x02#8, 0x95#8, 0x01#8, 0x00#8] = true := by decide

/-- `ILEN` above every possible capacity. -/
theorem test_wrIlen_refused : (HostAction.wrIlen 0xFFFFFFFF#32).wellFormed = false := by
  have h := Config.ibufCap_lt
  simp [HostAction.wellFormed]
  omega

/-- An `IBUF` address above every possible capacity. -/
theorem test_wrIbuf_refused : (HostAction.wrIbuf (2 ^ 29) 0).wellFormed = false := by
  have h := Config.ibufCap_lt
  simp [HostAction.wellFormed]
  omega

theorem test_rdIbuf_refused : (HostAction.rdIbuf (2 ^ 29)).wellFormed = false := by
  have h := Config.ibufCap_lt
  simp [HostAction.wellFormed]
  omega

/-- An `OBUF` address above every possible capacity. -/
theorem test_rdObuf_refused : (HostAction.rdObuf (2 ^ 32)).wellFormed = false := by
  have h := Config.obufCap_lt
  simp [HostAction.wellFormed]
  omega

theorem test_wrObuf_refused : (HostAction.wrObuf (2 ^ 32) 0).wellFormed = false := by
  have h := Config.obufCap_lt
  simp [HostAction.wellFormed]
  omega

/-! ### The functions, on the spec's vectors (95_test_vectors.md) -/

/-- S1 to S4, T1.27. -/
theorem test_uenc :
    uenc 0#64 = [0x00#8] ∧ uenc 127#64 = [0x7F#8] ∧ uenc 128#64 = [0x80#8, 0x01#8] ∧
    uenc 300#64 = [0xAC#8, 0x02#8] ∧
    uenc 0x8000000000000000#64 = List.replicate 9 0x80#8 ++ [0x01#8] := by decide

/-- T2.8, T2.9, T2.13. -/
theorem test_udec :
    udec (List.replicate 9 0x80#8 ++ [0x03#8]) = 0x8000000000000000#64 ∧
    udec (List.replicate 9 0x80#8 ++ [0x7E#8]) = 0#64 ∧
    udec [0xAC#8, 0x02#8, 0x05#8] = 82220#64 := by decide

/-- T3.11, T3.20, T3.16. -/
theorem test_zz :
    zz (-75#64) = 149#64 ∧ zz 0x8000000000000000#64 = 0xFFFFFFFFFFFFFFFF#64 ∧
    unzz 149#64 = -75#64 ∧ unzz 0x7FFFFFFFFFFFFFFF#64 = 0xC000000000000000#64 := by decide

/-- 60_exceptions.md R195: eleven and ten bytes `80`. -/
theorem test_scan :
    scan (List.replicate 11 0x80#8) = ([], .overflow, 10) ∧
    scan (List.replicate 10 0x80#8) = ([], .truncatedGroup, 0) ∧
    scan [0xAC#8, 0x02#8, 0x80#8] = ([[0xAC#8, 0x02#8]], .truncatedGroup, 2) := by decide

/-- The example of 44_stream.md R144. -/
theorem test_wordsOf :
    wordsOf [0#8, 0#8, 0#8, 0#8, 0#8, 0#8, 0x01#8, 0x2C#8, 0#8, 0#8, 0#8, 0#8, 0#8, 0#8, 0#8,
      0x80#8] = [300#64, 128#64] := by decide

/-! ### One step of each instruction -/

/-- R162: the value goes to `ACC` unmapped. -/
theorem test_uenc_start : nextIs (exec .uenc (idle [] (-75#64))) (fun t =>
    t.acc == -75#64 && t.phase == .emit && t.status == 0x80#8) = true := by decide
/-- R162 with S5. -/
theorem test_senc_start : nextIs (exec .senc (idle [] (-75#64))) (fun t =>
    t.acc == 149#64 && t.val == -75#64 && t.phase == .emit) = true := by decide
/-- T2.15. -/
theorem test_udec_empty : nextIs (exec .udec (idle [] 7)) (fun t =>
    t.status == 0x01#8 && t.val == 7#64) = true := by decide
theorem test_udec_start : nextIs (exec .udec (idle [0xAC#8, 0x02#8] 7)) (fun t =>
    t.status == 0x80#8 && t.cmd == 0x02#8 && t.val == 7#64) = true := by decide
theorem test_sdec_start : nextIs (exec .sdec (idle [0x95#8, 0x01#8] 7)) (fun t =>
    t.phase == .scan && t.op == 0x3#4) = true := by decide
/-- T3.2. -/
theorem test_zze : nextIs (exec .zze (idle [] (-1#64))) (fun t =>
    t.val == 1#64 && t.status == 0#8) = true := by decide
/-- T3.20, right to left. -/
theorem test_zzd : nextIs (exec .zzd (idle [] (-1#64))) (fun t =>
    t.val == 0x8000000000000000#64 && t.status == 0#8) = true := by decide
/-- R162: the scan starts also when `ILEN = 0`. -/
theorem test_seg_start : nextIs (exec .seg (idle [] 0)) (fun t =>
    t.phase == .scan && t.err == .ok) = true := by decide
/-- R146: nine bytes are no words. -/
theorem test_uencs_odd : nextIs (exec .uencs (idle (List.replicate 9 0#8) 0)) (fun t =>
    t.status == 0x01#8 && t.errpos == 0#32) = true := by decide
theorem test_uencs_start : nextIs (exec .uencs (idle (List.replicate 8 0#8) 0)) (fun t =>
    t.phase == .load) = true := by decide
theorem test_sencs_start : nextIs (exec .sencs (idle [] 0)) (fun t =>
    t.phase == .load && t.op == 0x9#4) = true := by decide
theorem test_udecs_start : nextIs (exec .udecs (idle [] 0)) (fun t =>
    t.phase == .scan && t.op == 0xA#4) = true := by decide
theorem test_sdecs_start : nextIs (exec .sdecs (idle [] 0)) (fun t =>
    t.phase == .scan && t.cmd == 0x0B#8) = true := by decide
/-- R178, step 1. -/
theorem test_vbCont : nextIs (exec (.vbCont 0x15#7) (busy 0xB#4 .scan [0x95#8, 0x01#8, 0x80#8] 0 0 0))
    (fun t => t.acc == 0x15#64 && t.cnt == 1#4 && t.pos == 1#32 && t.olen == 0#32) = true := by
  decide
/-- R165: the eleventh byte. -/
theorem test_vbCont_full : nextIs (exec (.vbCont 0#7)
    (busy 0x6#4 .scan (List.replicate 11 0x80#8) 10 10 0))
    (fun t => t.status == 0x03#8 && t.errpos == 10#32 && t.cnt == 10#4) = true := by decide
/-- R178, step 2. -/
theorem test_vbLast : nextIs (exec (.vbLast 0x01#7)
    (busy 0xB#4 .scan [0x95#8, 0x01#8, 0x80#8] 1 1 0x15))
    (fun t => t.olen == 8#32 && t.cnt == 0#4 && t.acc == 0#64 && t.pos == 2#32 &&
      Memory.readBytes? t.obuf 0 8 ==
        some [0xFF#8, 0xFF#8, 0xFF#8, 0xFF#8, 0xFF#8, 0xFF#8, 0xFF#8, 0xB5#8]) = true := by decide
/-- R127's example: the first group of `AC 02 95 01 00` has two bytes. -/
theorem test_vbLast_seg : nextIs (exec (.vbLast 0x02#7)
    (busy 0x6#4 .scan [0xAC#8, 0x02#8, 0x95#8, 0x01#8, 0x00#8] 1 1 0x2C))
    (fun t => t.olen == 1#32 && Memory.read? t.obuf 0 == some 0x02#8) = true := by decide

/-! ### Core steps that read no byte, host actions, reset -/

/-- R178, step 4. -/
theorem test_close_truncated : nextIs (step (busy 0xB#4 .scan [0x95#8, 0x01#8, 0x80#8] 3 1 0))
    (fun t => t.status == 0x02#8 && t.errpos == 2#32) = true := by decide
/-- R169 with S5: `SDEC` hands over the mapped value. -/
theorem test_close_single : nextIs (step (busy 0x3#4 .scan [0x95#8, 0x01#8] 2 2 149))
    (fun t => t.val == -75#64 && t.status == 0#8) = true := by decide
/-- R170 with the first word of R145's example. -/
theorem test_load : nextIs (step (busy 0x9#4 .load
    [0xFF#8, 0xFF#8, 0xFF#8, 0xFF#8, 0xFF#8, 0xFF#8, 0xFF#8, 0xB5#8] 0 0 0))
    (fun t => t.acc == 149#64 && t.pos == 8#32 && t.phase == .emit) = true := by decide
/-- R171 with R94: the first byte of 300. -/
theorem test_emit_cont : nextIs (step (busy 0x0#4 .emit [] 0 0 300))
    (fun t => Memory.read? t.obuf 0 == some 0xAC#8 && t.acc == 2#64 && t.phase == .emit) = true := by
  decide
/-- R172 with R94: the last byte of 300. -/
theorem test_emit_last : nextIs (step (busy 0x8#4 .emit (List.replicate 8 0#8) 8 1 2))
    (fun t => Memory.read? t.obuf 0 == some 0x02#8 && t.acc == 0#64 && t.phase == .load) = true := by
  decide
/-- R80. -/
theorem test_illegal : nextIs (step (before (.host (.wrCmd 0x07#8)) (idle [] 5)))
    (fun t => t.status == 0x04#8 && t.cmd == 0x07#8 && t.val == 5#64) = true := by decide
/-- R35: a write while busy is ignored. -/
theorem test_busy_write : nextIs
    (step (before (.host (.wrVal 9)) (busy 0x0#4 .emit [] 0 0 300)))
    (fun t => t.val == 0#64 && t.agenda == []) = true := by decide
/-- R35: `STATUS` reads true while busy. -/
theorem test_busy_status : nextIs
    (step (before (.host (.rd .status)) (busy 0x0#4 .emit [] 0 0 300)))
    (fun t => t.readings == [⟨.reg .status, 0x80#64⟩]) = true := by decide
/-- R220: reset in the middle of an operation. -/
theorem test_reset_event : nextIs (step (before .reset (busy 0x0#4 .emit [0x01#8] 0 3 300)))
    (fun t => t == State.reset) = true := by decide
/-- U5: the core's read of a byte nobody wrote is refused. -/
theorem test_unwritten :
    (match step (busy 0xA#4 .scan [] 0 0 0 |> fun s => { s with ilen := 1#32 }) with
      | .refused (.ibufByteNotWritten 0) => true
      | _ => false) = true := by decide
/-- The first step after reset runs the placed word. -/
theorem test_placed_word :
    nextIs (step (State.reset.withFetchWord 8 0x04)) (fun t => t.cmd == 0x04#8) = true ∧
    nextIs (step (State.reset.withFetchWord 8 0x80)) (fun t => t.cnt == 1#4) = true := by decide

/-! ### Witnesses: each obligation's hypotheses can be met

Each theorem gives concrete states and operands that meet all the hypotheses of the obligation of its
name together, for a statement of several clauses one for each clause, at a boundary of its range. -/

/-- An input and the state that holds it. -/
theorem inputIs_idle (input : List Byte) (v : Word) (h : input.length ≤ 10) :
    InputIs (idle input v) input := by
  have hc := Config.ten_le_ibufCap
  have hn : (BitVec.ofNat 32 input.length).toNat = input.length := by simp; omega
  refine ⟨?_, ?_⟩
  · show (BitVec.ofNat 32 input.length).toNat ≤ _
    omega
  · show Memory.readBytes? (bytes input) 0 (BitVec.ofNat 32 input.length).toNat = _
    rw [hn]
    exact Memory.readBytes?_writeBytes _ _ _

theorem witness_DecodeAndEncodeAgree :
    (match decode .cmd [0x0B#8, 0xFF#8], decode .vb [0xFF#8], decode .vb [0x00#8, 0x01#8] with
      | .ok (.sdecs, [0xFF#8]), .ok (.vbCont 0x7F#7, []), .ok (.vbLast 0#7, [0x01#8]) => true
      | _, _, _ => false) = true := by decide

theorem witness_ExactlyElevenBytesAreCommands :
    (decodeCommand 0x0B#8).isOk = true ∧ (decodeCommand 0x0C#8).isOk = false := by decide

theorem witness_UencIsMinimalWellFormedAndInvertible :
    (127#64).toNat < 2 ^ 7 ∧
    (2 ≤ 2 ∧ 2 ^ (7 * (2 - 1)) ≤ (128#64).toNat ∧ (128#64).toNat < 2 ^ (7 * 2)) ∧
    (2 ≤ 10 ∧ 2 ^ (7 * (10 - 1)) ≤ (0x8000000000000000#64).toNat ∧
      (0xFFFFFFFFFFFFFFFF#64).toNat < 2 ^ (7 * 10)) ∧
    (1#64 ≠ 0#64) ∧ uenc 300#64 = uenc 300#64 := by decide

theorem witness_GroupByteCarriesItsSevenValueBits :
    (uenc 0xFFFFFFFFFFFFFFFF#64)[9]? = some 0x01#8 ∧ (uenc 0#64)[0]? = some 0x00#8 := by decide

theorem witness_MinimalGroupsAreTheEncodings :
    (List.replicate 9 0x80#8 ++ [0x01#8]).length ≤ 10 ∧ ([] : List Byte).length ≤ 10 := by decide

theorem witness_UdecReadsPayloadsOnly :
    ([0xAC#8, 0x02#8].length ≤ 10 ∧
      [0xAC#8, 0x02#8].map payload = [0x2C#8, 0x82#8].map payload) ∧
    (List.replicate 9 0x80#8).length = 9 ∧
    ((List.replicate 9 0x80#8).length ≤ 9 ∧ payload 0x80#8 = 0#7) := by decide

theorem witness_ZigzagMapsInClosedForm : zz (-1#64) = zz (-1#64) ∧ ¬ 0 ≤ (-1#64).toInt := by decide

theorem witness_SegCutsWithoutLoss :
    [0xAC#8, 0x02#8] ∈ (seg [0xAC#8, 0x02#8, 0x80#8]).1 ∧
    [0xAC#8, 0x02#8].map contBit = [0x80#8, 0x00#8].map contBit := by decide

/-- All three outcomes occur. -/
theorem witness_ScanEndsAtTheFirstError :
    scan [0x00#8] = ([[0x00#8]], .ok, 0) ∧
    scan (List.replicate 10 0x80#8) = ([], .truncatedGroup, 0) ∧
    scan (0x00#8 :: List.replicate 11 0x80#8) = ([[0x00#8]], .overflow, 11) := by decide

theorem witness_ResetEventAbandonsTheOperation :
    (before .reset (busy 0x6#4 .scan [0x80#8] 0 0 0)).agenda = [.reset] := by decide

/-- An idle state: all four kinds of operand the start looks at, and illegal bytes of both forms. -/
theorem witness_CommandStartInitialisesAndDispatches :
    (idle [] 5).phase = .idle ∧ (idle [] 5).ilen = 0#32 ∧ (idle [0x01#8] 5).ilen ≠ 0#32 ∧
    (idle (List.replicate 8 0#8) 5).ilen.toNat % 8 = 0 ∧
    ((0x10#8).extractLsb' 4 4 ≠ 0#4 ∧ 0x0F#8 ∈ [0x07#8, 0x0C#8, 0x0D#8, 0x0E#8, 0x0F#8]) := by
  decide

theorem witness_IllegalByteIsRecordedAndRunsNothing :
    (before (.host (.wrCmd 0xFF#8)) (idle [] 5)).phase = .idle ∧
    (before (.host (.wrCmd 0xFF#8)) (idle [] 5)).agenda = .host (.wrCmd 0xFF#8) :: [] ∧
    (0xFF#8).extractLsb' 4 4 ≠ 0#4 ∧ 0x07#8 ∈ [0x07#8, 0x0C#8, 0x0D#8, 0x0E#8, 0x0F#8] := by decide

theorem witness_CommandWhileBusyIsIgnored :
    (before (.host (.wrCmd 0x04#8)) (busy 0x0#4 .emit [] 0 0 300)).phase ≠ .idle ∧
    formatOf .zze = .cmd ∧
    (before (.host (.wrCmd 0x04#8)) (busy 0x0#4 .emit [] 0 0 300)).agenda =
      .host (.wrCmd 0x04#8) :: [] := by decide

theorem witness_ZigzagCommandsCompleteAtOnce : (idle [0x01#8] (-1#64)).phase = .idle := by decide

theorem witness_StepRunsTheDecodedInstruction_command :
    (before (.host (.wrCmd 0x0B#8)) (idle [] 5)).agenda = .host (.wrCmd 0x0B#8) :: [] ∧
    decodeCommand 0x0B#8 = .ok .sdecs := ⟨rfl, rfl⟩

/-- The last byte of the buffer. -/
theorem witness_StepRunsTheDecodedInstruction_byte :
    (busy 0xA#4 .scan [0xAC#8, 0x02#8] 1 1 0x2C).agenda = [] ∧
    (busy 0xA#4 .scan [0xAC#8, 0x02#8] 1 1 0x2C).phase = .scan ∧
    scanMode (busy 0xA#4 .scan [0xAC#8, 0x02#8] 1 1 0x2C).op = some (.words false) ∧
    (busy 0xA#4 .scan [0xAC#8, 0x02#8] 1 1 0x2C).pos.toNat <
      (busy 0xA#4 .scan [0xAC#8, 0x02#8] 1 1 0x2C).ilen.toNat ∧
    (busy 0xA#4 .scan [0xAC#8, 0x02#8] 1 1 0x2C).pos.toNat < Config.ibufCap ∧
    Memory.read? (busy 0xA#4 .scan [0xAC#8, 0x02#8] 1 1 0x2C).ibuf 1 = some 0x02#8 := by decide

theorem witness_StepRunsTheDecodedInstruction_core :
    (before .core (idle [] 5)).agenda = .core :: [] ∧
    step { before .core (idle [] 5) with agenda := [] } = .next (idle [] 5) := ⟨rfl, rfl⟩

theorem witness_PlacedWordRunsNext :
    decodeTableWord 8 0x0B = some .sdecs ∧ decodeTableWord 8 0xFF = some (.vbCont 0x7F#7) := by
  decide

/-- A full group, and a group with room for one byte, in each mode. -/
theorem witness_ScannedByteIsAccumulatedAndClosesItsGroup :
    ((busy 0x6#4 .scan (List.replicate 11 0x80#8) 10 10 0).phase = .scan ∧
      scanMode 0x6#4 = some .lengths ∧
      (busy 0x6#4 .scan (List.replicate 11 0x80#8) 10 10 0).cnt = 10#4) ∧
    ((busy 0x6#4 .scan (List.replicate 10 0x80#8) 9 9 0).cnt.toNat < 10 ∧
      (busy 0x6#4 .scan (List.replicate 10 0x80#8) 9 9 0).olen.toNat + 1 ≤ Config.obufCap) ∧
    ((busy 0xB#4 .scan (List.replicate 10 0x80#8) 9 9 0).phase = .scan ∧
      scanMode 0xB#4 = some (.words true) ∧
      (busy 0xB#4 .scan (List.replicate 10 0x80#8) 9 9 0).olen.toNat + 8 ≤ Config.obufCap) ∧
    scanMode 0x3#4 = some (.single true) := by decide

theorem witness_VarintByteOutsideScanDoesNothing : (idle [0x80#8] 0).phase ≠ .scan := by decide

/-- At the end of the input: each kind of operation, and for a stream both with and without an open
group. -/
theorem witness_ScanClosesAtTheEndOfInput :
    ((busy 0x2#4 .scan [0x05#8] 1 1 5).agenda = [] ∧ (busy 0x2#4 .scan [0x05#8] 1 1 5).phase = .scan ∧
      (busy 0x2#4 .scan [0x05#8] 1 1 5).pos = (busy 0x2#4 .scan [0x05#8] 1 1 5).ilen ∧
      (busy 0x2#4 .scan [0x05#8] 1 1 5).op = 0x2#4) ∧
    ((busy 0x3#4 .scan [0x05#8] 1 1 5).pos = (busy 0x3#4 .scan [0x05#8] 1 1 5).ilen ∧
      (busy 0x3#4 .scan [0x05#8] 1 1 5).op = 0x3#4) ∧
    ((busy 0xB#4 .scan [0x80#8] 1 1 0).pos = (busy 0xB#4 .scan [0x80#8] 1 1 0).ilen ∧
      (busy 0xB#4 .scan [0x80#8] 1 1 0).op ∈ [0x6#4, 0xA#4, 0xB#4] ∧
      (busy 0xB#4 .scan [0x80#8] 1 1 0).cnt ≠ 0#4) ∧
    ((busy 0x6#4 .scan [] 0 0 0).pos = (busy 0x6#4 .scan [] 0 0 0).ilen ∧
      (busy 0x6#4 .scan [] 0 0 0).cnt = 0#4) := by decide

/-- The eleventh byte is there and nobody wrote it. -/
theorem witness_FullGroupOverflowsUnread :
    let s : State := { busy 0x2#4 .scan (List.replicate 10 0x80#8) 10 10 0 with ilen := 11#32 }
    s.agenda = [] ∧ s.phase = .scan ∧ s.op ∈ [0x2#4, 0x3#4, 0x6#4, 0xA#4, 0xB#4] ∧
    s.pos.toNat < s.ilen.toNat ∧ s.cnt = 10#4 ∧ Memory.read? s.ibuf 10 = none := by decide

theorem witness_LoadFetchesTheNextWord :
    ((busy 0x8#4 .load [] 0 0 0).agenda = [] ∧ (busy 0x8#4 .load [] 0 0 0).phase = .load ∧
      (busy 0x8#4 .load [] 0 0 0).op = (if false = true then 0x9#4 else 0x8#4) ∧
      (busy 0x8#4 .load [] 0 0 0).pos = (busy 0x8#4 .load [] 0 0 0).ilen) ∧
    ((busy 0x9#4 .load (List.replicate 8 0xFF#8) 0 0 0).pos ≠
        (busy 0x9#4 .load (List.replicate 8 0xFF#8) 0 0 0).ilen ∧
      (busy 0x9#4 .load (List.replicate 8 0xFF#8) 0 0 0).pos.toNat + 8 ≤ Config.ibufCap ∧
      Memory.readBytes? (busy 0x9#4 .load (List.replicate 8 0xFF#8) 0 0 0).ibuf 0 8 =
        some (List.replicate 8 0xFF#8)) := by decide

/-- The least value with a continuation byte and the greatest without. -/
theorem witness_EmitStoresOneByte :
    ((busy 0x1#4 .emit [] 0 0 128).agenda = [] ∧ (busy 0x1#4 .emit [] 0 0 128).phase = .emit ∧
      (busy 0x1#4 .emit [] 0 0 128).op ∈ [0x0#4, 0x1#4, 0x8#4, 0x9#4] ∧
      (busy 0x1#4 .emit [] 0 0 128).olen.toNat + 1 ≤ Config.obufCap ∧
      lsr64 (busy 0x1#4 .emit [] 0 0 128).acc 7 ≠ 0#64) ∧
    lsr64 (busy 0x9#4 .emit [] 0 0 127).acc 7 = 0#64 := by decide

theorem witness_WaitLastsWhileBusy :
    (before (.host .wait) (idle [] 5)).agenda = .host .wait :: [] ∧
    (before (.host .wait) (idle [] 5)).phase = .idle ∧
    (before (.host .wait) (busy 0x2#4 .scan [0x05#8] 1 1 5)).phase ≠ .idle ∧
    nextIs (step (before (.host .wait) (busy 0x2#4 .scan [0x05#8] 1 1 5)))
      (fun t => t.val == 5#64) = true := by decide

/-- `UDECS` about to read an input byte nobody has written. -/
def oneUnwritten : State := { busy 0xA#4 .scan [] 0 0 0 with ilen := 1#32 }

theorem witness_StopsAreWhereTheSpecRefuses :
    (oneUnwritten.agenda = [] ∧ oneUnwritten.phase = .scan ∧
      (scanMode oneUnwritten.op).isSome = true ∧
      oneUnwritten.pos.toNat < oneUnwritten.ilen.toNat ∧
      oneUnwritten.pos.toNat < Config.ibufCap ∧ oneUnwritten.cnt ≠ 10#4 ∧
      Memory.read? oneUnwritten.ibuf oneUnwritten.pos.toNat = none) ∧
    ((before (.host (.wrIlen 0xFFFFFFFF#32)) (idle [] 0)).phase = .idle ∧
      Config.ibufCap < (0xFFFFFFFF#32).toNat) ∧
    ((before (.host (.wrIbuf Config.ibufCap 0)) (idle [] 0)).agenda =
      .host (.wrIbuf Config.ibufCap 0) :: [] ∧ Config.ibufCap ≤ Config.ibufCap) ∧
    ((before (.host (.rdObuf Config.obufCap)) (idle [] 0)).agenda =
      .host (.rdObuf Config.obufCap) :: [] ∧ Config.obufCap ≤ Config.obufCap) := by
  have h := Config.ibufCap_lt
  refine ⟨by decide, ⟨rfl, ?_⟩, ⟨rfl, Nat.le_refl _⟩, ⟨rfl, Nat.le_refl _⟩⟩
  show Config.ibufCap < 4294967295
  omega

/-- The clauses with a bound, at the last address and the greatest length, idle and busy. -/
theorem witness_HostWritesStoreOnlyWhileIdle :
    ((before (.host (.wrVal 7)) (idle [] 5)).agenda = .host (.wrVal 7) :: []) ∧
    ((before (.host (.wrIlen (BitVec.ofNat 32 Config.ibufCap))) (idle [] 5)).agenda =
      .host (.wrIlen (BitVec.ofNat 32 Config.ibufCap)) :: [] ∧
      (BitVec.ofNat 32 Config.ibufCap).toNat ≤ Config.ibufCap) ∧
    ((before (.host (.wrIlen 0xFFFFFFFF#32)) (busy 0x0#4 .emit [] 0 0 0)).phase ≠ .idle) ∧
    ((before (.host (.wrIbuf (Config.ibufCap - 1) 7)) (idle [] 5)).agenda =
      .host (.wrIbuf (Config.ibufCap - 1) 7) :: [] ∧ Config.ibufCap - 1 < Config.ibufCap) ∧
    ((before (.host (.wrStatus 7)) (idle [] 5)).agenda = .host (.wrStatus 7) :: []) ∧
    ((before (.host (.wrOlen 7)) (idle [] 5)).agenda = .host (.wrOlen 7) :: []) ∧
    ((before (.host (.wrErrpos 7)) (idle [] 5)).agenda = .host (.wrErrpos 7) :: []) ∧
    ((before (.host (.wrObuf (Config.obufCap - 1) 7)) (idle [] 5)).agenda =
      .host (.wrObuf (Config.obufCap - 1) 7) :: [] ∧ Config.obufCap - 1 < Config.obufCap) := by
  have h1 := Config.ten_le_ibufCap
  have h2 := Config.ibufCap_lt
  have h3 := Config.eighty_le_obufCap
  refine ⟨rfl, ⟨rfl, ?_⟩, by decide, ⟨rfl, by omega⟩, rfl, rfl, rfl, ⟨rfl, by omega⟩⟩
  simp
  omega

/-- An idle state whose output has one byte, and which reads as `idle` does otherwise. -/
def withOneOut : State := { idle [0x01#8] 5 with obuf := bytes [0x07#8], olen := 1#32 }

theorem witness_HostReadsReturnStoredOrFreeValues :
    ((before (.host (.rd .status)) withOneOut).agenda = .host (.rd .status) :: []) ∧
    (withOneOut.phase = .idle ∧
      (before (.host (.rd .cmd)) withOneOut).agenda = .host (.rd .cmd) :: [] ∧
      (before (.host (.rd .val)) withOneOut).agenda = .host (.rd .val) :: [] ∧
      (before (.host (.rd .ilen)) withOneOut).agenda = .host (.rd .ilen) :: [] ∧
      (before (.host (.rd .olen)) withOneOut).agenda = .host (.rd .olen) :: [] ∧
      (before (.host (.rd .errpos)) withOneOut).agenda = .host (.rd .errpos) :: [] ∧
      (0 < Config.ibufCap ∧ Memory.read? withOneOut.ibuf 0 = some 0x01#8) ∧
      (0 < Config.obufCap ∧ 0 < withOneOut.olen.toNat ∧
        Memory.read? withOneOut.obuf 0 = some 0x07#8) ∧
      (1 < Config.ibufCap ∧ Memory.read? withOneOut.ibuf 1 = none) ∧
      (1 < Config.obufCap ∧ withOneOut.olen.toNat ≤ 1)) ∧
    ((busy 0x0#4 .emit [] 0 0 0).phase ≠ .idle ∧ Reg.errpos ≠ .status ∧
      9 < Config.ibufCap ∧ 79 < Config.obufCap) := by decide

theorem witness_BusyBlockIsNotTheHosts :
    (before (.host (.wrVal 9)) (busy 0x0#4 .emit [] 0 0 300)).phase ≠ .idle ∧
    HostAction.wrVal 9 ≠ .wait ∧
    (before (.host (.wrVal 9)) (busy 0x0#4 .emit [] 0 0 300)).agenda = .host (.wrVal 9) :: [] ∧
    step (before (.host (.wrVal 9)) (busy 0x0#4 .emit [] 0 0 300)) =
      .next (busy 0x0#4 .emit [] 0 0 300) := ⟨by decide, by decide, rfl, rfl⟩

theorem witness_CommandStartFrame :
    formatOf .uencs = .cmd ∧
    exec .uencs (idle [0x01#8] 5) =
      .next (raise .invalidInput 0#32 (initCommand 0x08#8 (idle [0x01#8] 5))) := ⟨rfl, rfl⟩

/-- Both classes, the second storing eight bytes. -/
theorem witness_VarintByteFrame :
    formatOf (.vbCont 0x15#7) = .vb ∧
    exec (.vbCont 0x15#7) (busy 0xB#4 .scan [0x95#8, 0x01#8] 0 0 0) =
      .next (acceptByte 0x15#7 (busy 0xB#4 .scan [0x95#8, 0x01#8] 0 0 0)) ∧
    nextIs (exec (.vbLast 0x01#7) (busy 0xB#4 .scan [0x95#8, 0x01#8] 1 1 0x15))
      (fun t => t.olen == 8#32) = true := ⟨rfl, rfl, by decide⟩

/-- A core step, of each phase. -/
theorem witness_coreStep :
    (busy 0x2#4 .scan [0x05#8] 1 1 5).agenda = [] ∧
    nextIs (step (busy 0x2#4 .scan [0x05#8] 1 1 5)) (fun t => t.val == 5#64) = true ∧
    nextIs (step (busy 0x8#4 .load [] 0 0 0)) (fun t => t.phase == .idle) = true ∧
    nextIs (step (busy 0x0#4 .emit [] 0 0 127)) (fun t => t.phase == .idle) = true ∧
    nextIs (step (busy 0x9#4 .emit [] 0 0 127)) (fun t => t.phase == .load) = true ∧
    nextIs (step (idle [] 5)) (fun t => t == idle [] 5) = true := by decide

theorem witness_CoreStepsReadForwardAndAppend :
    (idle [] 5).agenda = [] ∧ step (idle [] 5) = .next (idle [] 5) := ⟨rfl, rfl⟩

theorem witness_PhaseChangesAreTheTables :
    (busy 0x8#4 .load [] 0 0 0).agenda = [] ∧
    step (busy 0x8#4 .load [] 0 0 0) = .next { busy 0x8#4 .load [] 0 0 0 with phase := .idle } :=
  ⟨rfl, rfl⟩

theorem witness_CoreErrorsArePrecise :
    (busy 0xB#4 .scan [0x80#8] 1 1 0).agenda = [] ∧ (busy 0xB#4 .scan [0x80#8] 1 1 0).err = .ok ∧
    step (busy 0xB#4 .scan [0x80#8] 1 1 0) =
      .next (raise .truncatedGroup 0#32 (busy 0xB#4 .scan [0x80#8] 1 1 0)) ∧
    (raise .truncatedGroup 0#32 (busy 0xB#4 .scan [0x80#8] 1 1 0)).err ≠ .ok :=
  ⟨rfl, rfl, rfl, by decide⟩

theorem witness_OutcomeStaysUntilTheNextStart :
    let s : State := before (.host (.wrVal 9)) { idle [] 5 with err := .overflow, errpos := 10#32 }
    s.phase = .idle ∧ step s = .next { s with agenda := [], val := 9 } ∧
    (∀ c rest, s.agenda ≠ .host (.wrCmd c) :: rest) ∧ (∀ rest, s.agenda ≠ .reset :: rest) :=
  ⟨rfl, rfl, by simp [before], by simp [before]⟩

/-- `AC 02 80` in the middle of its first group, met by `UDECS`. -/
def midGroup : State := busy 0xA#4 .scan [0xAC#8, 0x02#8, 0x80#8] 1 1 0x2C

theorem inv_midGroup : midGroup.Inv where
  ibufWf := by decide
  obufWf := by decide
  ilenLe := by decide
  olenLe := by decide
  outputWritten := fun a h => absurd h (by show ¬ a < 0; omega)
  cntLe := by decide
  opIsCmd := by decide
  busyOk := fun _ => rfl
  errposZero := fun _ _ => rfl
  phaseInv := ⟨.words false, rfl,
    { posLe := by decide
      cntLe := by decide
      olenLe := by decide
      group := ⟨[0xAC#8], rfl, by decide, fun _ b hb => by
        obtain rfl : b = 0xAC#8 := by simpa using hb
        decide⟩
      single := fun _ h => by cases h }⟩

theorem inputIs_midGroup : InputIs midGroup [0xAC#8, 0x02#8, 0x80#8] := ⟨by decide, by decide⟩

theorem witness_EveryStepKeepsTheInvariant :
    ∃ t, midGroup.Inv ∧ step midGroup = .next t := by
  have hr : nextIs (step midGroup) (fun _ => true) = true := by decide
  cases h : step midGroup with
  | next t => exact ⟨t, inv_midGroup, rfl⟩
  | fault f => rw [h] at hr; cases hr
  | refused r => rw [h] at hr; cases hr

theorem witness_CoreNeverSticksNorLeavesABuffer : midGroup.Inv ∧ midGroup.agenda = [] :=
  ⟨inv_midGroup, rfl⟩

theorem witness_EveryRunEnds :
    midGroup.Inv ∧ midGroup.agenda = [] ∧ InputIs midGroup [0xAC#8, 0x02#8, 0x80#8] :=
  ⟨inv_midGroup, rfl, inputIs_midGroup⟩

theorem witness_UencAndSencWriteTheGroup :
    (idle [] (-75#64)).phase = .idle ∧ (idle [] (-75#64)).agenda = [] := ⟨rfl, rfl⟩

theorem witness_EncodeStepsReachTheOperationRule :
    (idle [] (-75#64)).phase = .idle ∧ (idle [] (-75#64)).agenda = [] := ⟨rfl, rfl⟩

/-- Eleven bytes fit some input buffers only, so the state says that they are the first eleven of a
buffer that has room for them. -/
theorem inputIs_eleven (h : 11 ≤ Config.ibufCap) :
    InputIs (idle (List.replicate 11 0x80#8) 0) (List.replicate 11 0x80#8) := ⟨h, by decide⟩

/-- The clauses `ILEN = 0`, `1 ≤ ILEN ≤ 10` at both ends, and `ILEN > 10`. -/
theorem witness_UdecAndSdecDecodeTheGroup :
    ((idle [] 0).phase = .idle ∧ (idle [] 0).agenda = [] ∧ InputIs (idle [] 0) [] ∧
      (idle [] 0).ilen.toNat = 0) ∧
    (InputIs (idle [0x05#8] 0) [0x05#8] ∧ 1 ≤ (idle [0x05#8] 0).ilen.toNat) ∧
    (InputIs (idle (List.replicate 10 0x80#8) 0) (List.replicate 10 0x80#8) ∧
      (idle (List.replicate 10 0x80#8) 0).ilen.toNat ≤ 10) ∧
    (11 ≤ Config.ibufCap →
      InputIs (idle (List.replicate 11 0x80#8) 0) (List.replicate 11 0x80#8) ∧
        10 < (idle (List.replicate 11 0x80#8) 0).ilen.toNat) :=
  ⟨⟨rfl, rfl, inputIs_idle [] 0 (by decide), rfl⟩, ⟨inputIs_idle _ 0 (by decide), by decide⟩,
    ⟨inputIs_idle _ 0 (by decide), by decide⟩, fun h => ⟨inputIs_eleven h, by decide⟩⟩

theorem witness_DecodeStepsReachTheOperationRule :
    (idle [0x05#8] 0).phase = .idle ∧ (idle [0x05#8] 0).agenda = [] ∧
    InputIs (idle [0x05#8] 0) [0x05#8] := ⟨rfl, rfl, inputIs_idle _ 0 (by decide)⟩

/-- A scan of each outcome: `OK`, and `TruncatedGroup` after an accepted group. -/
theorem witness_SegWritesTheGroupLengths :
    ((idle [0xAC#8, 0x02#8, 0x00#8] 0).phase = .idle ∧ (idle [0xAC#8, 0x02#8, 0x00#8] 0).agenda = [] ∧
      InputIs (idle [0xAC#8, 0x02#8, 0x00#8] 0) [0xAC#8, 0x02#8, 0x00#8] ∧
      scan [0xAC#8, 0x02#8, 0x00#8] = ([[0xAC#8, 0x02#8], [0x00#8]], .ok, 0)) ∧
    (InputIs (idle [0xAC#8, 0x02#8, 0x80#8] 0) [0xAC#8, 0x02#8, 0x80#8] ∧
      scan [0xAC#8, 0x02#8, 0x80#8] = ([[0xAC#8, 0x02#8]], .truncatedGroup, 2)) :=
  ⟨⟨rfl, rfl, inputIs_idle _ 0 (by decide), by decide⟩, inputIs_idle _ 0 (by decide), by decide⟩

theorem witness_UdecsAndSdecsWriteTheWords :
    (idle [0x95#8, 0x01#8, 0x80#8] 0).phase = .idle ∧ (idle [0x95#8, 0x01#8, 0x80#8] 0).agenda = [] ∧
    InputIs (idle [0x95#8, 0x01#8, 0x80#8] 0) [0x95#8, 0x01#8, 0x80#8] ∧
    scan [0x95#8, 0x01#8, 0x80#8] = ([[0x95#8, 0x01#8]], .truncatedGroup, 2) :=
  ⟨rfl, rfl, inputIs_idle _ 0 (by decide), by decide⟩

theorem witness_ScanStepsReachTheOperationRule :
    (idle [] 0).phase = .idle ∧ (idle [] 0).agenda = [] ∧ InputIs (idle [] 0) [] :=
  ⟨rfl, rfl, inputIs_idle _ 0 (by decide)⟩

/-- A length that is and one that is not a multiple of eight. -/
theorem witness_UencsAndSencsWriteTheStream :
    ((idle (List.replicate 8 0xFF#8) 0).phase = .idle ∧
      (idle (List.replicate 8 0xFF#8) 0).agenda = [] ∧
      InputIs (idle (List.replicate 8 0xFF#8) 0) (List.replicate 8 0xFF#8) ∧
      (idle (List.replicate 8 0xFF#8) 0).ilen.toNat % 8 = 0) ∧
    (InputIs (idle (List.replicate 9 0xFF#8) 0) (List.replicate 9 0xFF#8) ∧
      (idle (List.replicate 9 0xFF#8) 0).ilen.toNat % 8 ≠ 0) :=
  ⟨⟨rfl, rfl, inputIs_idle _ 0 (by decide), by decide⟩, inputIs_idle _ 0 (by decide), by decide⟩

theorem witness_BatchStepsReachTheOperationRule :
    (idle (List.replicate 8 0xFF#8) 0).phase = .idle ∧
    (idle (List.replicate 8 0xFF#8) 0).agenda = [] ∧
    InputIs (idle (List.replicate 8 0xFF#8) 0) (List.replicate 8 0xFF#8) :=
  ⟨rfl, rfl, inputIs_idle _ 0 (by decide)⟩

/-- Two states that differ in every register an earlier operation leaves behind. -/
theorem witness_EarlierOperationsLeaveNoTrace :
    let s₁ : State := idle [0x05#8] 7
    let s₂ : State := { idle [0x05#8] 7 with
      cmd := 0x0B#8, op := 0xB#4, err := .overflow, errpos := 10#32, olen := 8#32, pos := 10#32
      cnt := 10#4, acc := 99#64, obuf := bytes [0x01#8, 0x02#8] }
    s₁.phase = .idle ∧ s₂.phase = .idle ∧ s₁.agenda = [] ∧ s₂.agenda = [] ∧ s₁.val = s₂.val ∧
    InputIs s₁ [0x05#8] ∧ InputIs s₂ [0x05#8] ∧
    ∃ t₁, writeCmd 0x04#8 s₁ = .next t₁ ∧ run 3 t₁ = .next t₁ :=
  ⟨rfl, rfl, rfl, rfl, rfl, inputIs_idle _ 7 (by decide), ⟨by decide, by decide⟩, _, rfl, rfl⟩

theorem witness_SignedRoundTripOnTheBlock :
    ((idle [] (-75#64)).withProgram [.wrCmd 0x01#8, .wait]).phase = .idle ∧
    ((idle [] (-75#64)).withProgram [.wrCmd 0x01#8, .wait]).agenda =
      [.host (.wrCmd 0x01#8), .host .wait] := ⟨rfl, rfl⟩

/-- Both signednesses; the outputs, one byte and one byte, fit every input buffer. -/
theorem witness_StreamRoundTripOnTheBlock :
    ((idle (List.replicate 8 0#8) 0).withProgram [.wrCmd 0x09#8, .wait]).phase = .idle ∧
    ((idle (List.replicate 8 0#8) 0).withProgram [.wrCmd 0x09#8, .wait]).agenda =
      [.host (.wrCmd (if true = true then 0x09#8 else 0x08#8)), .host .wait] ∧
    InputIs ((idle (List.replicate 8 0#8) 0).withProgram [.wrCmd 0x09#8, .wait])
      (List.replicate 8 0#8) ∧
    ((idle (List.replicate 8 0#8) 0).withProgram [.wrCmd 0x09#8, .wait]).ilen.toNat % 8 = 0 ∧
    (uenc (zz 0#64)).length ≤ Config.ibufCap :=
  ⟨rfl, rfl, inputIs_idle _ 0 (by decide), by decide, by decide⟩

theorem witness_FillPlacesTheInput :
    ((idle [] 5).withProgram (fillLines (List.replicate 10 0x80#8))).phase = .idle ∧
    (List.replicate 10 0x80#8).length ≤ Config.ibufCap ∧
    ((idle [] 5).withProgram (fillLines (List.replicate 10 0x80#8))).agenda =
      program (fillLines (List.replicate 10 0x80#8)) := ⟨rfl, by decide, rfl⟩

end Sys2Proof.Tests
end

/-! The minimal groups (00_scope.md R18) are the encodings. Read through the payload sum, a minimal
group is a complete group without a superfluous last byte whose value fits 64 bits; the encoder makes
exactly these. -/

namespace Sys2Proof.Machine

/-! ### Complete groups, byte by byte (00_scope.md R18) -/

/-- A byte with `C = 1` in front neither makes nor breaks a complete group. -/
theorem completeGroup_cons_of_cont {b : Byte} (h : contBit b = true) (s : List Byte) :
    completeGroup (b :: s) = completeGroup s := by
  cases s <;> simp [completeGroup, h]

/-- A byte with `C = 0` ends its group. -/
theorem completeGroup_cons_of_last {b : Byte} (h : contBit b = false) (s : List Byte) :
    completeGroup (b :: s) = s.isEmpty := by
  cases s <;> simp [completeGroup, h]

theorem completeGroup_snoc (s : List Byte) (b : Byte) :
    completeGroup (s ++ [b]) = (s.all contBit && !contBit b) := by
  induction s with
  | nil => simp [completeGroup]
  | cons c s ih =>
    rw [List.cons_append]
    cases h : contBit c with
    | true => simp [completeGroup_cons_of_cont h, ih, h]
    | false => simp [completeGroup_cons_of_last h, h]

/-- A byte with `C = 1` in front does not change whether a sequence ends in a zero byte. -/
theorem getLast?_cons_eq_zero_of_cont {b : Byte} (h : contBit b = true) (s : List Byte) :
    (b :: s).getLast? = some 0#8 ↔ s.getLast? = some 0#8 := by
  cases s with
  | nil =>
    have hb : b ≠ 0#8 := by rintro rfl; exact absurd h (by decide)
    simp [hb]
  | cons c s => rw [List.getLast?_cons_cons]

/-! ### The payload sum of a group -/

theorem payloadSum_snoc (s : List Byte) (b : Byte) :
    payloadSum (s ++ [b]) = payloadSum s + 2 ^ (7 * s.length) * (payload b).toNat := by
  induction s with
  | nil => simp [payloadSum]
  | cons c s ih => simp only [List.cons_append, payloadSum, ih, List.length_cons]; ring

theorem toNat_payload_of_last {b : Byte} (h : contBit b = false) :
    (payload b).toNat = b.toNat := by
  conv_rhs => rw [← lastByte_payload h]
  have := (payload b).isLt
  rw [lastByte, BitVec.toNat_setWidth, Nat.mod_eq_of_lt (by omega)]

/-- A final byte other than zero adds to the payload sum. -/
theorem payloadSum_pos {s : List Byte} (hc : completeGroup s = true)
    (hl : s.getLast? ≠ some 0#8) : 0 < payloadSum s := by
  induction s with
  | nil => simp [completeGroup] at hc
  | cons b s ih =>
    rw [payloadSum]
    cases h : contBit b with
    | true =>
      rw [completeGroup_cons_of_cont h] at hc
      rw [Ne, getLast?_cons_eq_zero_of_cont h] at hl
      have := ih hc hl
      omega
    | false =>
      obtain rfl : s = [] := by simpa [completeGroup_cons_of_last h] using hc
      have hb : b.toNat ≠ 0 := BitVec.toNat_ne_iff_ne.2 (by simpa using hl)
      rw [toNat_payload_of_last h]
      omega

/-- A tenth byte carries value bit 63 only: in a group that does not end in zero it is 1 exactly
when the payload sum fits 64 bits (30_encoding.md R72, log entry 20). -/
theorem tenth_byte_eq_one_iff {s : List Byte} {b : Byte} (hs : s.length = 9)
    (hb : contBit b = false) (h0 : b ≠ 0#8) :
    b = 1#8 ↔ payloadSum (s ++ [b]) < 2 ^ 64 := by
  have hlt : payloadSum s < 2 ^ 63 := by simpa [hs] using payloadSum_lt s
  have hpos : b.toNat ≠ 0 := BitVec.toNat_ne_iff_ne.2 h0
  rw [payloadSum_snoc, hs, toNat_payload_of_last hb, ← BitVec.toNat_inj, BitVec.toNat_ofNat]
  omega

/-- In a complete group that does not end in a superfluous zero, the tenth byte is 1, or absent,
exactly when the payload sum fits 64 bits. -/
theorem tenth_byte_rule_iff {s : List Byte} (hc : completeGroup s = true) (hlen : s.length ≤ 10)
    (hl : s.length = 1 ∨ s.getLast? ≠ some 0#8) :
    (s.length ≠ 10 ∨ s.getLast? = some 1#8) ↔ payloadSum s < 2 ^ 64 := by
  by_cases h10 : s.length = 10
  · obtain rfl | ⟨l, b, rfl⟩ := s.eq_nil_or_concat'
    · simp at h10
    · have hl9 : l.length = 9 := by simpa using h10
      have hb : contBit b = false := by
        rw [completeGroup_snoc, Bool.and_eq_true, Bool.not_eq_true'] at hc
        exact hc.right
      have h0 : b ≠ 0#8 := by simpa [hl9] using hl
      simpa [hl9] using tenth_byte_eq_one_iff hl9 hb h0
  · have hfits : payloadSum s < 2 ^ 64 :=
      calc payloadSum s < 2 ^ (7 * s.length) := payloadSum_lt s
        _ ≤ 2 ^ 64 := Nat.pow_le_pow_right (by omega) (by omega)
    exact iff_of_true (.inl h10) hfits

/-- A minimal group is a complete group of at most ten bytes without a superfluous last byte whose
value fits 64 bits. -/
theorem minimalGroup_iff (s : List Byte) :
    minimalGroup s = true ↔ completeGroup s = true ∧ s.length ≤ 10 ∧
      (s.length = 1 ∨ s.getLast? ≠ some 0#8) ∧ payloadSum s < 2 ^ 64 := by
  simp only [minimalGroup, wellFormedGroup, Bool.and_eq_true, Bool.or_eq_true,
    decide_eq_true_eq, bne_iff_ne, beq_iff_eq, and_assoc]
  exact and_congr_right fun hc => and_congr_right fun hlen => and_congr_right fun hl =>
    tenth_byte_rule_iff hc hlen hl

/-! ### What the encoder makes -/

/-- Shifting out seven bits takes one slice off a value. -/
theorem lsr64_seven_lt {n : Nat} {v : Word} (h : v.toNat < 2 ^ (7 * (n + 2))) :
    (lsr64 v 7).toNat < 2 ^ (7 * (n + 1)) := by
  rw [toNat_lsr64]
  exact Nat.div_lt_of_lt_mul (by rw [← Nat.pow_add]; convert h using 2; ring)

/-- What holds of a one-byte group, and of a group with one slice more in front of it, holds of the
bytes of every value that the turns suffice for. -/
theorem uencTurns_induction {P : Word → List Byte → Prop}
    (small : ∀ v, v.toNat < 2 ^ 7 → P v [lastByte (low7 v)])
    (large : ∀ v s, 2 ^ 7 ≤ v.toNat → P (lsr64 v 7) s → P v (contByte (low7 v) :: s))
    (n : Nat) (v : Word) (h : v.toNat < 2 ^ (7 * (n + 1))) : P v (uencTurns (n + 1) v) := by
  induction n generalizing v with
  | zero => rw [uencTurns_small (by simpa using h)]; exact small v (by simpa using h)
  | succ n ih =>
    by_cases hs : v.toNat < 2 ^ 7
    · rw [uencTurns_small hs]; exact small v hs
    · rw [uencTurns_large (by omega)]
      exact large v _ (by omega) (ih _ (lsr64_seven_lt h))

/-- Ten turns suffice for every value. -/
theorem uenc_induction {P : Word → List Byte → Prop}
    (small : ∀ v, v.toNat < 2 ^ 7 → P v [lastByte (low7 v)])
    (large : ∀ v s, 2 ^ 7 ≤ v.toNat → P (lsr64 v 7) s → P v (contByte (low7 v) :: s))
    (v : Word) : P v (uenc v) :=
  uencTurns_induction small large 9 v (by omega)

theorem completeGroup_uenc (v : Word) : completeGroup (uenc v) = true := by
  refine uenc_induction (P := fun _ s => completeGroup s = true) ?_ ?_ v
  · intro v _
    simp [completeGroup]
  · intro v s _ ih
    rw [completeGroup_cons_of_cont (contBit_contByte _), ih]

theorem payloadSum_uenc (v : Word) : payloadSum (uenc v) = v.toNat := by
  refine uenc_induction (P := fun v s => payloadSum s = v.toNat) ?_ ?_ v
  · intro v hv
    simp only [payloadSum, payload_lastByte, toNat_low7]
    omega
  · intro v s _ ih
    simp only [payloadSum, payload_contByte, toNat_low7, ih, toNat_lsr64]
    omega

/-- Only the encoding of 0 ends in a zero byte (30_encoding.md R74). -/
theorem getLast?_uenc_ne_zero {v : Word} (hv : v ≠ 0#64) : (uenc v).getLast? ≠ some 0#8 := by
  refine uenc_induction (P := fun v s => v.toNat ≠ 0 → s.getLast? ≠ some 0#8) ?_ ?_ v
    (BitVec.toNat_ne_iff_ne.2 hv)
  · intro v hs hv h0
    have hb : lastByte (low7 v) = 0#8 := by simpa using h0
    have hlow : v.toNat % 2 ^ 7 = 0 := by
      rw [← toNat_low7, ← payload_lastByte (low7 v), hb]
      rfl
    omega
  · intro v s hv ih _
    rw [Ne, getLast?_cons_eq_zero_of_cont (contBit_contByte _)]
    exact ih (by rw [toNat_lsr64]; omega)

/-- Every encoding is a minimal group. -/
theorem minimalGroup_uenc (v : Word) : minimalGroup (uenc v) = true := by
  refine (minimalGroup_iff _).2 ⟨completeGroup_uenc v, length_uenc_le v, ?_, ?_⟩
  · by_cases hv : v = 0#64
    · exact .inl (by rw [hv]; rfl)
    · exact .inr (getLast?_uenc_ne_zero hv)
  · rw [payloadSum_uenc]
    exact v.isLt

/-! ### Encoding what was decoded -/

theorem low7_udec_cons (b : Byte) (s : List Byte) : low7 (udec (b :: s)) = payload b := by
  apply BitVec.eq_of_toNat_eq
  have := (payload b).isLt
  rw [toNat_low7, toNat_udec, payloadSum]
  omega

theorem lsr64_udec_cons {b : Byte} {s : List Byte} (h : payloadSum (b :: s) < 2 ^ 64) :
    lsr64 (udec (b :: s)) 7 = udec s := by
  apply BitVec.eq_of_toNat_eq
  have := (payload b).isLt
  rw [toNat_lsr64, toNat_udec, toNat_udec]
  rw [payloadSum] at h ⊢
  omega

/-- The encoder's loop gives back a complete group whose value fits and whose last byte is needed. -/
theorem uencTurns_udec {n : Nat} {s : List Byte} (hc : completeGroup s = true)
    (hl : s.length = 1 ∨ s.getLast? ≠ some 0#8) (hv : payloadSum s < 2 ^ 64)
    (hn : s.length ≤ n) : uencTurns n (udec s) = s := by
  induction s generalizing n with
  | nil => simp [completeGroup] at hc
  | cons b s ih =>
    obtain ⟨n, rfl⟩ : ∃ k, n = k + 1 := ⟨n - 1, by rw [List.length_cons] at hn; omega⟩
    have hval : (udec (b :: s)).toNat = (payload b).toNat + 2 ^ 7 * payloadSum s := by
      rw [toNat_udec, Nat.mod_eq_of_lt hv, payloadSum]
    cases h : contBit b with
    | true =>
      rw [completeGroup_cons_of_cont h] at hc
      have hne : s ≠ [] := by rintro rfl; simp [completeGroup] at hc
      have hs : s.getLast? ≠ some 0#8 := by
        simpa [getLast?_cons_eq_zero_of_cont h, hne] using hl
      have hpos := payloadSum_pos hc hs
      rw [uencTurns_large (by omega), low7_udec_cons, contByte_payload h, lsr64_udec_cons hv,
        ih hc (.inr hs) (by rw [payloadSum] at hv; omega) (by simpa using hn)]
    | false =>
      obtain rfl : s = [] := by simpa [completeGroup_cons_of_last h] using hc
      have := (payload b).isLt
      rw [uencTurns_small (by rw [hval, payloadSum]; omega), low7_udec_cons, lastByte_payload h]

/-- A minimal group is the encoding of its value. -/
theorem uenc_udec_of_minimalGroup {s : List Byte} (h : minimalGroup s = true) :
    uenc (udec s) = s := by
  obtain ⟨hc, hlen, hl, hv⟩ := (minimalGroup_iff s).1 h
  exact uencTurns_udec hc hl hv hlen

/-- Settles O6: every encoding is a minimal group, and a minimal group is the encoding of the value
it decodes to. -/
theorem minimalGroupsAreTheEncodings : Obligations.MinimalGroupsAreTheEncodings := by
  unfold Obligations.MinimalGroupsAreTheEncodings
  intro s _
  have of_encoding : ∀ v, uenc v = s → minimalGroup s = true := by
    rintro v rfl
    exact minimalGroup_uenc v
  exact ⟨⟨fun h => ⟨udec s, uenc_udec_of_minimalGroup h⟩, fun ⟨v, hv⟩ => of_encoding v hv⟩,
    uenc_udec_of_minimalGroup, of_encoding (udec s)⟩

end Sys2Proof.Machine

/-! The state (10_state.md): what a command byte does, said once for all eleven commands and for a
byte that is none (45_sequencer.md R160 to R162); that a run depends on the command's inputs alone
(R34); reset and `STATUS` (R23, R37); and one rule for each kind of host access (R35). -/

namespace Sys2Proof.Machine

/-! ### A command is its start -/

/-- The dispatch line of each command (45_sequencer.md R162); a varint byte has none. -/
def dispatchOf : Instr → State → State
  | .uenc => beginEncode false
  | .senc => beginEncode true
  | .udec | .sdec => beginDecode
  | .zze => fun s => { s with val := zz s.val }
  | .zzd => fun s => { s with val := unzz s.val }
  | .seg | .udecs | .sdecs => beginScan
  | .uencs | .sencs => beginBatch
  | .vbCont _ | .vbLast _ => id

/-- Every command is the common start with its own byte and its dispatch line. -/
theorem exec_of_command {i : Instr} (h : formatOf i = .cmd) (s : State) :
    exec i s = .next (startCommand (encodeByte i) (dispatchOf i) s) := by
  cases i with
  | vbCont | vbLast => cases h
  | _ => rfl

/-- A byte that decodes as a command gives an instruction of the command format (30_encoding.md
R77). -/
theorem formatOf_of_decodeCommand {c : Byte} {i : Instr} (h : decodeCommand c = .ok i) :
    formatOf i = .cmd := by
  have opcodes : ∀ opc : BitVec 4, ∀ j ∈ decodeOpc opc, formatOf j = .cmd := by decide
  simp only [decodeCommand] at h
  split at h
  · cases h
  · split at h
    · next j hj =>
      cases h
      exact opcodes _ _ hj
    · cases h

/-- A `CMD` write is a command start, of a command or of the error of R80. -/
theorem writeCmd_eq_start (c : Byte) :
    (∃ i, formatOf i = .cmd ∧
      ∀ s, writeCmd c s = .next (startCommand (encodeByte i) (dispatchOf i) s)) ∨
    (∀ s, writeCmd c s = .next (startCommand c (raise .illegalCommand 0#32) s)) := by
  cases h : decodeCommand c with
  | ok i =>
    have hi := formatOf_of_decodeCommand h
    exact .inl ⟨i, hi, fun s => by simp only [writeCmd, h]; exact exec_of_command hi s⟩
  | error e => exact .inr fun s => by simp only [writeCmd, h]; rfl

/-- The dispatch line of a single decode is a change of phase or an error. -/
theorem beginDecode_cases (s : State) :
    (s.ilen = 0#32 ∧ beginDecode s = raise .invalidInput 0#32 s) ∨
    (s.ilen ≠ 0#32 ∧ beginDecode s = { s with phase := .scan }) := by
  unfold beginDecode
  split <;> simp_all

/-- The dispatch line of a batch encoding is a change of phase or an error. -/
theorem beginBatch_cases (s : State) :
    (s.ilen.toNat % 8 ≠ 0 ∧ beginBatch s = raise .invalidInput 0#32 s) ∨
    (s.ilen.toNat % 8 = 0 ∧ beginBatch s = { s with phase := .load }) := by
  unfold beginBatch
  split <;> simp_all

/-- A dispatch line writes nothing but `ERR`, `ERRPOS`, `PHASE`, `ACC` and, for `ZZE` and `ZZD`,
`VAL`. -/
theorem dispatchOf_writes (i : Instr) (s : State) :
    ∃ e p ph a v,
      dispatchOf i s = { s with err := e, errpos := p, phase := ph, acc := a, val := v } ∧
      (i ≠ .zze → i ≠ .zzd → v = s.val) := by
  cases i with
  | udec | sdec =>
    obtain ⟨-, h⟩ | ⟨-, h⟩ := beginDecode_cases s
    all_goals exact ⟨_, _, _, _, _, h, fun _ _ => rfl⟩
  | uencs | sencs =>
    obtain ⟨-, h⟩ | ⟨-, h⟩ := beginBatch_cases s
    all_goals exact ⟨_, _, _, _, _, h, fun _ _ => rfl⟩
  | zze => exact ⟨_, _, _, _, _, rfl, fun h _ => absurd rfl h⟩
  | zzd => exact ⟨_, _, _, _, _, rfl, fun _ h => absurd rfl h⟩
  | _ => exact ⟨_, _, _, _, _, rfl, fun _ _ => rfl⟩

/-- Settles O32: the common initialisation and the dispatch line write none of these fields. -/
theorem commandStartFrame : Obligations.CommandStartFrame := by
  unfold Obligations.CommandStartFrame
  intro i s t hi hexec
  rw [exec_of_command hi] at hexec
  cases hexec
  by_cases hp : s.phase = .idle
  · rw [startCommand_of_idle hp]
    obtain ⟨e, p, ph, a, v, hd, hv⟩ := dispatchOf_writes i (initCommand (encodeByte i) s)
    rw [hd]
    exact ⟨rfl, hv, fun _ => rfl, fun _ => rfl, rfl, rfl, rfl⟩
  · rw [startCommand_of_busy hp]
    exact ⟨rfl, fun _ _ => rfl, fun _ => rfl, fun _ => rfl, rfl, rfl, rfl⟩

/-! ### Two runs over different buffers (10_state.md R34) -/

/-- The state with the same registers over other buffers and another record of host reads: all in
which two states can differ once a command has started, when they agree on its inputs. -/
def State.withOutside (s : State) (ibuf obuf : Memory) (readings : List Reading) (freeIdx : Nat) :
    State :=
  { s with ibuf := ibuf, obuf := obuf, readings := readings, freeIdx := freeIdx }

/-- Two memories hold the same bytes below an address. -/
def Memory.SameBelow (n : Nat) (m m' : Memory) : Prop :=
  ∀ a, a < n → Memory.read? m' a = Memory.read? m a

/-- Storing the same bytes at the end of the common part makes the common part longer. -/
theorem Memory.SameBelow.writeBytes {n : Nat} {m m' : Memory} (h : Memory.SameBelow n m m')
    (bs : List Byte) :
    Memory.SameBelow (n + bs.length) (Memory.writeBytes m n bs) (Memory.writeBytes m' n bs) := by
  intro a ha
  simp only [Memory.read?_writeBytes]
  split
  · rfl
  · exact h a (by omega)

/-- Two memories from which the same input is read hold the same bytes below its length. -/
theorem Memory.SameBelow.of_readBytes? {n : Nat} {m m' : Memory} {s : List Byte}
    (h : Memory.readBytes? m 0 n = some s) (h' : Memory.readBytes? m' 0 n = some s) :
    Memory.SameBelow n m m' := by
  intro a ha
  have := (Memory.readBytes?_eq_some.1 h).2 a ha
  have := (Memory.readBytes?_eq_some.1 h').2 a ha
  simp_all

/-- The core's read of a sequence looks at nothing but the bytes it reads. -/
theorem readIbufBytes_congr {s t : State} {a n : Nat}
    (h : ∀ x, a ≤ x → x < a + n → Memory.read? t.ibuf x = Memory.read? s.ibuf x) :
    readIbufBytes t a n = readIbufBytes s a n := by
  induction n generalizing a with
  | zero => rfl
  | succ n ih =>
    have hfirst : readIbuf t a = readIbuf s a := by
      simp only [readIbuf, h a (Nat.le_refl a) (by omega)]
    have hrest : readIbufBytes t (a + 1) n = readIbufBytes s (a + 1) n :=
      ih fun x h1 h2 => h x (by omega) (by omega)
    simp only [readIbufBytes, hfirst, hrest]

/-- A word inside the common part of two input buffers is the same word. -/
theorem readIbufWord_congr {s t : State} {n a : Nat} (h : Memory.SameBelow n s.ibuf t.ibuf)
    (ha : a + 8 ≤ n) : readIbufWord t a = readIbufWord s a := by
  have hbytes : readIbufBytes t a 8 = readIbufBytes s a 8 :=
    readIbufBytes_congr fun x _ hx => h x (by omega)
  simp only [readIbufWord, hbytes]

/-- A busy batch encoding is at the start of a word or at the end of the input (45_sequencer.md
R162, R170). So it reads no byte at or beyond `ILEN`. -/
def AtWord (s : State) : Prop :=
  s.phase ≠ .idle → (loadSigned s.op).isSome = true →
    s.ilen.toNat % 8 = 0 ∧ s.pos.toNat % 8 = 0 ∧ s.pos.toNat ≤ s.ilen.toNat

/-- No operation both scans and loads. -/
theorem loadSigned_of_scanMode {op : BitVec 4} {m : ScanMode} (h : scanMode op = some m) :
    (loadSigned op).isSome = false := by
  obtain ⟨rfl, -⟩ | ⟨rfl, -⟩ | ⟨rfl, -⟩ | ⟨rfl, -⟩ | ⟨rfl, -⟩ := scanMode_eq_some h
  all_goals rfl

/-- A load that finds a word leaves room for the eight bytes it reads. -/
theorem AtWord.pos_add_eight_le {s : State} (h : AtWord s) (hp : s.phase = .load)
    {signed : Bool} (hm : loadSigned s.op = some signed) (hne : s.pos ≠ s.ilen) :
    s.pos.toNat + 8 ≤ s.ilen.toNat := by
  obtain ⟨h1, h2, h3⟩ := h (by simp [hp]) (by simp [hm])
  have : s.pos.toNat ≠ s.ilen.toNat := fun he => hne (BitVec.eq_of_toNat_eq he)
  omega

/-- A scan step never changes `OP`. -/
theorem scanStep_op {s t : State} (hp : s.phase = .scan) (h : scanStep s = .next t) :
    t.op = s.op := by
  obtain ⟨m, -, ⟨-, rfl⟩ | ⟨-, -, rfl⟩ | ⟨-, -, -, b, -, ⟨-, rfl⟩ | ⟨-, -, hf⟩⟩⟩ :=
    scanStep_eq_next hp h
  · obtain ⟨g, -, hc⟩ | ⟨-, -, hc⟩ | ⟨-, -, hc⟩ := closeScan_cases m s
    all_goals simp [hc]
  · rfl
  · rfl
  · obtain ⟨-, rfl⟩ | ⟨-, -, rfl⟩ := finishGroup_eq_next.1 hf
    all_goals rfl

/-- Every step of the core keeps a batch encoding at a word. -/
theorem coreStep_keeps_atWord {s t : State} (h : AtWord s) (hs : coreStep s = .next t) :
    AtWord t := by
  intro hbusy hload
  cases hp : s.phase with
  | idle =>
    rw [coreStep_of_idle hp] at hs
    cases hs
    exact absurd hp hbusy
  | load =>
    rw [coreStep_of_load hp] at hs
    obtain ⟨signed, hm, ⟨-, rfl⟩ | ⟨hne, w, -, rfl⟩⟩ := loadStep_eq_next hs
    · exact absurd rfl hbusy
    · have h8 := h.pos_add_eight_le hp hm hne
      obtain ⟨h1, h2, -⟩ := h (by simp [hp]) hload
      have hpos : (s.pos + 8#32).toNat = s.pos.toNat + 8 := by
        have := s.ilen.isLt
        simp [BitVec.toNat_add]
        omega
      simp only [hpos]
      omega
  | emit =>
    rw [coreStep_of_emit hp] at hs
    obtain ⟨after, -, -, ⟨-, rfl⟩ | ⟨-, rfl⟩⟩ := emitStep_eq_next hs
    all_goals exact h (by simp [hp]) hload
  | scan =>
    rw [coreStep_of_scan hp] at hs
    obtain ⟨m, hm, -⟩ := scanStep_eq_next hp hs
    rw [scanStep_op hp hs, loadSigned_of_scanMode hm] at hload
    cases hload

/-- The state and the buffers `ibuf` and `obuf` agree on the input and on the output so far. -/
structure Agrees (s : State) (ibuf obuf : Memory) : Prop where
  input : Memory.SameBelow s.ilen.toNat s.ibuf ibuf
  output : Memory.SameBelow s.olen.toNat s.obuf obuf

/-- Storing the same bytes at `OLEN` keeps the agreement. -/
theorem Agrees.output_store {s : State} {ibuf obuf : Memory} (h : Agrees s ibuf obuf)
    {bs : List Byte} (hroom : s.olen.toNat + bs.length ≤ Config.obufCap) :
    Memory.SameBelow (s.olen + BitVec.ofNat 32 bs.length).toNat
      (Memory.writeBytes s.obuf s.olen.toNat bs) (Memory.writeBytes obuf s.olen.toNat bs) := by
  rw [toNat_olen_add hroom]
  exact h.output.writeBytes bs

section OverOtherBuffers

variable {s s' : State} {ibuf obuf : Memory} {readings : List Reading} {freeIdx : Nat}

/-- A load step over other buffers that hold the same input. -/
theorem loadStep_withOutside (hp : s.phase = .load) (h : Agrees s ibuf obuf) (hw : AtWord s)
    (hs : loadStep s = .next s') :
    loadStep (s.withOutside ibuf obuf readings freeIdx) =
        .next (s'.withOutside ibuf obuf readings freeIdx) ∧ Agrees s' ibuf obuf := by
  obtain ⟨signed, hm, ⟨he, rfl⟩ | ⟨hne, w, hread, rfl⟩⟩ := loadStep_eq_next hs
  · exact ⟨loadStep_of_end (s := s.withOutside ibuf obuf readings freeIdx) hm he, h.input, h.output⟩
  · have hread' : readIbufWord (s.withOutside ibuf obuf readings freeIdx) s.pos.toNat = .next w :=
      (readIbufWord_congr h.input (hw.pos_add_eight_le hp hm hne)).trans hread
    exact ⟨loadStep_of_word (s := s.withOutside ibuf obuf readings freeIdx) hm hne hread',
      h.input, h.output⟩

/-- An emit step over other buffers stores the same byte. -/
theorem emitStep_withOutside (h : Agrees s ibuf obuf) (hs : emitStep s = .next s') :
    ∃ obuf', emitStep (s.withOutside ibuf obuf readings freeIdx) =
        .next (s'.withOutside ibuf obuf' readings freeIdx) ∧ Agrees s' ibuf obuf' := by
  obtain ⟨after, hm, hroom, ⟨hl, rfl⟩ | ⟨hl, rfl⟩⟩ := emitStep_eq_next hs
  · refine ⟨_, emitStep_of_large (s := s.withOutside ibuf obuf readings freeIdx) hm hroom ?_,
      h.input, h.output_store (bs := [contByte (low7 s.acc)]) hroom⟩
    exact fun hz => absurd ((lsr64_seven_eq_zero_iff _).1 hz) (Nat.not_lt.2 hl)
  · exact ⟨_, emitStep_of_small (s := s.withOutside ibuf obuf readings freeIdx) hm hroom
      ((lsr64_seven_eq_zero_iff _).2 hl), h.input,
      h.output_store (bs := [lastByte (low7 s.acc)]) hroom⟩

/-- Closing a scan looks at no buffer. -/
theorem closeScan_withOutside (m : ScanMode) :
    closeScan m (s.withOutside ibuf obuf readings freeIdx) =
      (closeScan m s).withOutside ibuf obuf readings freeIdx := by
  cases m with
  | single => rfl
  | lengths | words =>
    by_cases hz : s.cnt = 0#4 <;> simp [Machine.closeScan, State.withOutside, raise, hz]

/-- Closing a scan keeps the agreement: it stores nothing. -/
theorem Agrees.closeScan (h : Agrees s ibuf obuf) (m : ScanMode) :
    Agrees (closeScan m s) ibuf obuf := by
  obtain ⟨g, -, hc⟩ | ⟨-, -, hc⟩ | ⟨-, -, hc⟩ := closeScan_cases m s
  all_goals
    rw [hc]
    exact ⟨h.input, h.output⟩

/-- A scan step over other buffers reads the same byte and stores the same output. -/
theorem step_withOutside_of_scan (ha : s.agenda = []) (hp : s.phase = .scan) (h : Agrees s ibuf obuf)
    (hs : scanStep s = .next s') :
    ∃ obuf', step (s.withOutside ibuf obuf readings freeIdx) =
        .next (s'.withOutside ibuf obuf' readings freeIdx) ∧ Agrees s' ibuf obuf' := by
  obtain ⟨m, hm, ⟨he, rfl⟩ | ⟨hl, h10, rfl⟩ | ⟨hl, h9, hcap, b, hb, hbyte⟩⟩ :=
    scanStep_eq_next hp hs
  · refine ⟨obuf, ?_, h.closeScan m⟩
    rw [step_of_nil (by exact ha), coreStep_of_scan (by exact hp),
      scanStep_of_end (by exact hm) (by exact he), closeScan_withOutside]
  · refine ⟨obuf, ?_, h.input, h.output⟩
    rw [step_of_nil (by exact ha), coreStep_of_scan (by exact hp),
      scanStep_of_full (by exact hm) (by exact hl) (by exact h10)]
    rfl
  · have hb' : Memory.read? ibuf s.pos.toNat = some b := (h.input _ hl).trans hb
    obtain ⟨hcont | ⟨signed, rfl⟩, rfl⟩ | ⟨hlast, hns, hf⟩ := hbyte
    · exact ⟨obuf, step_cont (by exact ha) hp hm hl hcap hb' h9 hcont, h.input, h.output⟩
    · exact ⟨obuf, step_single (by exact ha) hp hm hl hcap hb' h9, h.input, h.output⟩
    · obtain ⟨⟨signed, rfl⟩, -⟩ | ⟨-, hroom, rfl⟩ := finishGroup_eq_next.1 hf
      · exact absurd rfl (hns signed)
      · have hout : closedOutput m (acceptByte (payload b)
            (s.withOutside ibuf obuf readings freeIdx)) =
            closedOutput m (acceptByte (payload b) s) := by cases m <;> rfl
        refine ⟨_, ?_, h.input, h.output_store hroom⟩
        rw [step_last hns (by exact ha) (by exact hp) (by exact hm) (by exact hl) (by exact hcap)
          (by exact hb') (by exact h9) hlast (by rw [hout]; exact hroom), hout]
        rfl

/-- A step of the core over other buffers that hold the same input. -/
theorem step_withOutside (ha : s.agenda = []) (h : Agrees s ibuf obuf) (hw : AtWord s)
    (hs : step s = .next s') :
    ∃ obuf', step (s.withOutside ibuf obuf readings freeIdx) =
        .next (s'.withOutside ibuf obuf' readings freeIdx) ∧ Agrees s' ibuf obuf' := by
  rw [step_of_nil ha] at hs
  have hcore : step (s.withOutside ibuf obuf readings freeIdx) =
      coreStep (s.withOutside ibuf obuf readings freeIdx) := step_of_nil ha
  cases hp : s.phase with
  | idle =>
    rw [coreStep_of_idle hp] at hs
    cases hs
    exact ⟨obuf, by rw [hcore, coreStep_of_idle (by exact hp)], h⟩
  | load =>
    rw [coreStep_of_load hp] at hs
    obtain ⟨hstep, h'⟩ := loadStep_withOutside hp h hw hs
    exact ⟨obuf, by rw [hcore, coreStep_of_load (by exact hp), hstep], h'⟩
  | emit =>
    rw [coreStep_of_emit hp] at hs
    obtain ⟨obuf', hstep, h'⟩ := emitStep_withOutside h hs
    exact ⟨obuf', by rw [hcore, coreStep_of_emit (by exact hp), hstep], h'⟩
  | scan =>
    rw [coreStep_of_scan hp] at hs
    exact step_withOutside_of_scan ha hp h hs

end OverOtherBuffers

/-- A step of the core leaves the agenda alone. -/
theorem coreStep_agenda {s t : State} (h : coreStep s = .next t) : t.agenda = s.agenda := by
  have hcomm := coreStep_withAgenda s s.agenda
  rw [show ({ s with agenda := s.agenda } : State) = s from rfl, h] at hcomm
  have ht : t = { t with agenda := s.agenda } := Host.Outcome.next.inj hcomm
  rw [ht]

/-- A run of the core over other buffers that hold the same input. -/
theorem run_withOutside {n : Nat} {s s' : State} {ibuf obuf : Memory} {readings : List Reading}
    {freeIdx : Nat} (ha : s.agenda = []) (h : Agrees s ibuf obuf) (hw : AtWord s)
    (hr : run n s = .next s') :
    ∃ obuf', run n (s.withOutside ibuf obuf readings freeIdx) =
        .next (s'.withOutside ibuf obuf' readings freeIdx) ∧ Agrees s' ibuf obuf' := by
  induction n generalizing s obuf with
  | zero =>
    cases hr
    exact ⟨obuf, rfl, h⟩
  | succ n ih =>
    cases hs : step s with
    | fault f => simp [run, hs] at hr
    | refused r => simp [run, hs] at hr
    | next t =>
      rw [run_succ_of_next hs] at hr
      obtain ⟨obuf₁, hs', h'⟩ := step_withOutside ha h hw hs
      rw [step_of_nil ha] at hs
      rw [run_succ_of_next hs']
      exact ih ((coreStep_agenda hs).trans ha) h' (coreStep_keeps_atWord hw hs) hr

/-- What the argument needs of a dispatch line after the common start with byte `c`: it writes only
the fields of `dispatchOf_writes`, looks at nothing outside the registers, and starts a batch
encoding at a word. -/
structure IsDispatch (c : Byte) (d : State → State) : Prop where
  writes : ∀ s, ∃ e p ph a v,
    d s = { s with err := e, errpos := p, phase := ph, acc := a, val := v }
  withOutside : ∀ s ibuf obuf readings freeIdx,
    d (s.withOutside ibuf obuf readings freeIdx) = (d s).withOutside ibuf obuf readings freeIdx
  atWord : ∀ s, AtWord (d (initCommand c s))

/-- The dispatch line of the error of 30_encoding.md R80: the core stays idle. -/
theorem isDispatch_raise (c : Byte) (e : ErrCode) (p : Len) : IsDispatch c (raise e p) where
  writes _ := ⟨_, _, _, _, _, rfl⟩
  withOutside _ _ _ _ _ := rfl
  atWord _ hbusy := absurd rfl hbusy

/-- A dispatch line looks at the registers alone. -/
theorem dispatchOf_withOutside (i : Instr) (s : State) (ibuf obuf : Memory)
    (readings : List Reading) (freeIdx : Nat) :
    dispatchOf i (s.withOutside ibuf obuf readings freeIdx) =
      (dispatchOf i s).withOutside ibuf obuf readings freeIdx := by
  cases i with
  | udec | sdec =>
    by_cases hz : s.ilen = 0#32 <;>
      simp [dispatchOf, beginDecode, State.withOutside, raise, hz]
  | uencs | sencs =>
    by_cases hz : s.ilen.toNat % 8 = 0 <;>
      simp [dispatchOf, beginBatch, State.withOutside, raise, hz]
  | _ => rfl

/-- A batch encoding that starts has a whole number of words before it; no other command loads. -/
theorem atWord_dispatchOf {i : Instr} (hi : formatOf i = .cmd) (s : State) :
    AtWord (dispatchOf i (initCommand (encodeByte i) s)) := by
  intro hbusy hload
  obtain ⟨_, _, _, _, _, hd, -⟩ := dispatchOf_writes i (initCommand (encodeByte i) s)
  have hop : (dispatchOf i (initCommand (encodeByte i) s)).op = (encodeByte i).extractLsb' 0 4 := by
    rw [hd]
    rfl
  rw [hop] at hload
  cases i with
  | uencs | sencs =>
    obtain ⟨-, h⟩ | ⟨h8, h⟩ := beginBatch_cases (initCommand (encodeByte _) s)
    · exact absurd (congrArg State.phase h) hbusy
    · simp only [dispatchOf, h]
      exact ⟨h8, rfl, Nat.zero_le _⟩
  | vbCont | vbLast => cases hi
  | _ => cases hload

theorem isDispatch_dispatchOf {i : Instr} (hi : formatOf i = .cmd) :
    IsDispatch (encodeByte i) (dispatchOf i) where
  writes s := by
    obtain ⟨e, p, ph, a, v, h, -⟩ := dispatchOf_writes i s
    exact ⟨e, p, ph, a, v, h⟩
  withOutside := dispatchOf_withOutside i
  atWord := atWord_dispatchOf hi

/-- What any `CMD` write does to an idle core: the common start and a dispatch line. -/
theorem writeCmd_of_idle (c : Byte) :
    ∃ b d, IsDispatch b d ∧ ∀ s, s.phase = .idle → writeCmd c s = .next (d (initCommand b s)) := by
  obtain ⟨i, hi, h⟩ | h := writeCmd_eq_start c
  · exact ⟨_, _, isDispatch_dispatchOf hi, fun s hp => by rw [h, startCommand_of_idle hp]⟩
  · exact ⟨_, _, isDispatch_raise c _ _, fun s hp => by rw [h, startCommand_of_idle hp]⟩

/-- The state just after a command start agrees with any buffer that holds its input: its output is
empty. -/
theorem IsDispatch.agrees {c : Byte} {d : State → State} (hd : IsDispatch c d) {s : State}
    {ibuf : Memory} (h : Memory.SameBelow s.ilen.toNat s.ibuf ibuf) (obuf : Memory) :
    Agrees (d (initCommand c s)) ibuf obuf := by
  obtain ⟨_, _, _, _, _, hw⟩ := hd.writes (initCommand c s)
  rw [hw]
  exact ⟨h, fun a ha => absurd ha (Nat.not_lt_zero a)⟩

theorem IsDispatch.agenda {c : Byte} {d : State → State} (hd : IsDispatch c d) (s : State) :
    (d (initCommand c s)).agenda = s.agenda := by
  obtain ⟨_, _, _, _, _, hw⟩ := hd.writes (initCommand c s)
  rw [hw]
  rfl

/-- The common start overwrites every register but `VAL`, `ILEN` and `PHASE` (45_sequencer.md R161):
two states that agree on these and on the agenda differ outside the registers at most. -/
theorem initCommand_eq_withOutside {s t : State} (hval : t.val = s.val) (hilen : t.ilen = s.ilen)
    (hphase : t.phase = s.phase) (hagenda : t.agenda = s.agenda) (c : Byte) :
    initCommand c t = (initCommand c s).withOutside t.ibuf t.obuf t.readings t.freeIdx := by
  simp only [initCommand, State.withOutside, hval, hilen, hphase, hagenda]

/-- The launch premise gives the length of the input. -/
theorem InputIs.toNat_ilen {s : State} {input : List Byte} (h : InputIs s input) :
    s.ilen.toNat = input.length := (Memory.readBytes?_length h.2).symm

/-- Settles O51: after the common start the two states differ in their buffers at most, these agree
on the input and, at every later moment, on the output so far. -/
theorem earlierOperationsLeaveNoTrace : Obligations.EarlierOperationsLeaveNoTrace := by
  unfold Obligations.EarlierOperationsLeaveNoTrace
  intro s₁ s₂ c input n t₁ u₁ hp₁ hp₂ ha₁ ha₂ hval hin₁ hin₂ hcmd hrun
  obtain ⟨b, d, hd, hstart⟩ := writeCmd_of_idle c
  obtain rfl : d (initCommand b s₁) = t₁ := by simpa [hstart s₁ hp₁] using hcmd
  have hilen : s₂.ilen = s₁.ilen :=
    BitVec.eq_of_toNat_eq (hin₂.toNat_ilen.trans hin₁.toNat_ilen.symm)
  have hread₂ : Memory.readBytes? s₂.ibuf 0 s₁.ilen.toNat = some input := hilen ▸ hin₂.2
  have hsame := Memory.SameBelow.of_readBytes? hin₁.2 hread₂
  have hinit := initCommand_eq_withOutside hval.symm hilen (hp₂.trans hp₁.symm)
    (ha₂.trans ha₁.symm) b
  obtain ⟨obuf', hrun₂, hagree⟩ := run_withOutside (readings := s₂.readings)
    (freeIdx := s₂.freeIdx) ((hd.agenda s₁).trans ha₁) (hd.agrees hsame s₂.obuf) (hd.atWord s₁) hrun
  have hstart₂ : writeCmd c s₂ = .next ((d (initCommand b s₁)).withOutside s₂.ibuf s₂.obuf
      s₂.readings s₂.freeIdx) := by rw [hstart s₂ hp₂, hinit, hd.withOutside]
  exact ⟨_, _, hstart₂, hrun₂, rfl, rfl, rfl, rfl, rfl, rfl, rfl, rfl, rfl, rfl, rfl,
    hagree.output⟩

/-! ### Reset and status -/

/-- Settles O12: the reset state is idle with nothing on the agenda, so its step is the core's idle
step. -/
theorem resetLeavesRegistersZero : Obligations.ResetLeavesRegistersZero := by
  unfold Obligations.ResetLeavesRegistersZero
  have hstep : step State.reset = .next State.reset :=
    (step_of_nil rfl).trans (coreStep_of_idle rfl)
  exact ⟨rfl, rfl, rfl, rfl, rfl, rfl, rfl, rfl, rfl, rfl, rfl, rfl, Memory.read?_nil,
    Memory.read?_nil, hstep⟩

/-- Settles O38: both memories are empty, every length is zero and the core is idle. -/
theorem resetMeetsTheInvariant : Obligations.ResetMeetsTheInvariant where
  ibufWf := Memory.wf_nil _
  obufWf := Memory.wf_nil _
  ilenLe := Nat.zero_le _
  olenLe := Nat.zero_le _
  outputWritten a ha := absurd ha (Nat.not_lt_zero a)
  cntLe := Nat.zero_le _
  opIsCmd := rfl
  busyOk _ := rfl
  errposZero _ _ := rfl
  phaseInv := trivial

/-- The layout of `STATUS` (10_state.md R23): one bit over four zeros over three bits. -/
theorem statusLayout_fields (busy : Bool) (code : BitVec 3) :
    ((if busy then 0x80#8 else 0x00#8) ||| code.setWidth 8).getLsbD 7 = busy ∧
    ((if busy then 0x80#8 else 0x00#8) ||| code.setWidth 8).extractLsb' 3 4 = 0#4 ∧
    ((if busy then 0x80#8 else 0x00#8) ||| code.setWidth 8).extractLsb' 0 3 = code := by
  revert busy code
  decide

/-- Settles O14: the three fields of the layout, with `BUSY` and the number of the outcome in
them. -/
theorem statusShowsBusyAndErr : Obligations.StatusShowsBusyAndErr := by
  unfold Obligations.StatusShowsBusyAndErr
  intro s
  obtain ⟨hbusy, hzero, hcode⟩ := statusLayout_fields s.busy s.err.code
  refine ⟨?_, hzero, hcode.trans ?_⟩
  · rw [State.status, hbusy, State.busy, decide_eq_true_iff]
  · cases s.err <;> rfl

/-! ### Host access, one rule for each kind of access (10_state.md R35) -/

theorem writeIlen_of_legal {n : Len} (h : n.toNat ≤ Config.ibufCap) (s : State) :
    writeIlen n s = .next (if s.phase = .idle then { s with ilen := n } else s) := by
  by_cases hp : s.phase = .idle
  · rw [writeIlen, if_pos hp, if_pos h, if_pos hp]
  · rw [writeIlen, if_neg hp, if_neg hp]

theorem writeIlen_of_busy {s : State} (h : s.phase ≠ .idle) (n : Len) :
    writeIlen n s = .next s := if_neg h

theorem writeIbufByHost_of_lt {a : Nat} (h : a < Config.ibufCap) (b : Byte) (s : State) :
    writeIbufByHost a b s =
      .next (if s.phase = .idle then { s with ibuf := Memory.write s.ibuf a b } else s) := if_pos h

theorem readRegister_of_shown {r : Reg} {s : State} (h : s.phase = .idle ∨ r = .status) :
    readRegister r s = recordReading (.reg r) (registerValue r s) s := if_pos h

theorem readRegister_of_hidden {r : Reg} {s : State} (hp : s.phase ≠ .idle) (hr : r ≠ .status) :
    readRegister r s = recordFree (.reg r) r.width s := if_neg (not_or.2 ⟨hp, hr⟩)

theorem readIbufByHost_of_shown {a : Nat} {b : Byte} {s : State} (ha : a < Config.ibufCap)
    (hp : s.phase = .idle) (hb : Memory.read? s.ibuf a = some b) :
    readIbufByHost a s = .next (recordReading (.ibuf a) (b.setWidth 64) s) := by
  simp only [readIbufByHost, if_pos ha, hp, hb]

theorem readIbufByHost_of_hidden {a : Nat} {s : State} (ha : a < Config.ibufCap)
    (h : s.phase ≠ .idle ∨ Memory.read? s.ibuf a = none) :
    readIbufByHost a s = .next (recordFree (.ibuf a) 8 s) := by
  rw [readIbufByHost, if_pos ha]
  split
  · next hp hb => simp [hp, hb] at h
  · rfl

theorem readObufByHost_of_shown {a : Nat} {b : Byte} {s : State} (ha : a < Config.obufCap)
    (hp : s.phase = .idle) (hl : a < s.olen.toNat) (hb : Memory.read? s.obuf a = some b) :
    readObufByHost a s = .next (recordReading (.obuf a) (b.setWidth 64) s) := by
  simp only [readObufByHost, if_pos ha, hp, hb, if_pos hl]

theorem readObufByHost_of_hidden {a : Nat} {s : State} (ha : a < Config.obufCap)
    (h : s.phase ≠ .idle ∨ s.olen.toNat ≤ a) :
    readObufByHost a s = .next (recordFree (.obuf a) 8 s) := by
  rw [readObufByHost, if_pos ha]
  split
  · next hp hb => rw [if_neg (by simp [hp] at h; omega)]
  · rfl

/-- Settles O29: each clause is the rule of its write. -/
theorem hostWritesStoreOnlyWhileIdle : Obligations.HostWritesStoreOnlyWhileIdle := by
  unfold Obligations.HostWritesStoreOnlyWhileIdle
  intro s rest
  refine ⟨fun v h => step_of_host h (by simp), fun n h hn => ?_, fun n h hp => ?_,
    fun a b h ha => ?_, fun v h => step_of_host h (by simp), fun n h => step_of_host h (by simp),
    fun n h => step_of_host h (by simp), fun a b h ha => ?_⟩
  · rw [step_of_host h (by simp)]
    exact writeIlen_of_legal hn _
  · rw [step_of_host h (by simp)]
    exact writeIlen_of_busy (by exact hp) n
  · rw [step_of_host h (by simp)]
    exact writeIbufByHost_of_lt ha b _
  · rw [step_of_host h (by simp)]
    exact if_pos ha

/-- Settles O30: each clause is the rule of its read, in the case its premises choose. -/
theorem hostReadsReturnStoredOrFreeValues : Obligations.HostReadsReturnStoredOrFreeValues := by
  unfold Obligations.HostReadsReturnStoredOrFreeValues
  intro s rest s' free
  have hreg : ∀ r, s.agenda = .host (.rd r) :: rest → step s = .next (readRegister r s') :=
    fun r h => step_of_host h (by simp)
  have hibuf : ∀ a, s.agenda = .host (.rdIbuf a) :: rest → step s = readIbufByHost a s' :=
    fun a h => step_of_host h (by simp)
  have hobuf : ∀ a, s.agenda = .host (.rdObuf a) :: rest → step s = readObufByHost a s' :=
    fun a h => step_of_host h (by simp)
  refine ⟨fun h => ?status, fun hp => ?idle, fun hp => ?busy⟩
  case status =>
    rw [hreg _ h, readRegister_of_shown (.inr rfl)]
    rfl
  case idle =>
    have hshown : ∀ r, s.agenda = .host (.rd r) :: rest →
        step s = .next (recordReading (.reg r) (registerValue r s') s') := fun r h => by
      rw [hreg r h, readRegister_of_shown (.inl (by exact hp))]
    exact ⟨hshown .cmd, hshown .val, hshown .ilen, hshown .olen, hshown .errpos,
      fun a b h ha hb => (hibuf a h).trans (readIbufByHost_of_shown ha hp hb),
      fun a b h ha hl hb => (hobuf a h).trans (readObufByHost_of_shown ha hp hl hb),
      fun a h ha hb => (hibuf a h).trans (readIbufByHost_of_hidden ha (.inr hb)),
      fun a h ha hl => (hobuf a h).trans (readObufByHost_of_hidden ha (.inr hl))⟩
  case busy =>
    exact ⟨fun r hr h => by rw [hreg r h, readRegister_of_hidden (by exact hp) hr]; rfl,
      fun a h ha => (hibuf a h).trans (readIbufByHost_of_hidden ha (.inl hp)),
      fun a h ha => (hobuf a h).trans (readObufByHost_of_hidden ha (.inl hp))⟩

/-- While the core is busy, a host action that answers changes at most the record of the reads: its
writes are ignored, and its reads give the stored `STATUS` or a free value. -/
theorem hostAct_of_busy {a : HostAction} {s t : State} (hp : s.phase ≠ .idle)
    (h : hostAct a s = .next t) : ∃ r k, t = { s with readings := r, freeIdx := k } := by
  have hsame : .next s = (.next t : Result State) →
      ∃ r k, t = { s with readings := r, freeIdx := k } := fun h =>
    ⟨s.readings, s.freeIdx, (Host.Outcome.next.inj h).symm⟩
  cases a with
  | wrCmd c =>
    obtain ⟨i, -, hc⟩ | hc := writeCmd_eq_start c
    all_goals exact hsame (by rw [← h, hostAct, hc, startCommand_of_busy hp])
  | wrVal v => exact hsame (by rw [← h, hostAct, if_neg hp])
  | wrIlen n => exact hsame (by rw [← h, hostAct, writeIlen_of_busy hp])
  | wrIbuf a b =>
    by_cases ha : a < Config.ibufCap
    · exact hsame (by rw [← h, hostAct, writeIbufByHost_of_lt ha, if_neg hp])
    · simp [hostAct, writeIbufByHost, ha] at h
  | wrObuf a b =>
    by_cases ha : a < Config.obufCap
    · exact hsame (by rw [← h, hostAct, if_pos ha])
    · simp [hostAct, ha] at h
  | rd r =>
    cases h
    by_cases hr : r = .status
    · exact ⟨_, _, readRegister_of_shown (.inr hr)⟩
    · exact ⟨_, _, readRegister_of_hidden hp hr⟩
  | rdIbuf a =>
    by_cases ha : a < Config.ibufCap
    · rw [hostAct, readIbufByHost_of_hidden ha (.inl hp)] at h
      exact ⟨_, _, (Host.Outcome.next.inj h).symm⟩
    · simp [hostAct, readIbufByHost, ha] at h
  | rdObuf a =>
    by_cases ha : a < Config.obufCap
    · rw [hostAct, readObufByHost_of_hidden ha (.inl hp)] at h
      exact ⟨_, _, (Host.Outcome.next.inj h).symm⟩
    · simp [hostAct, readObufByHost, ha] at h
  | wrStatus | wrOlen | wrErrpos | wait => exact hsame h

/-- Settles O31: the step is the host's action, which keeps the block of a busy core. -/
theorem busyBlockIsNotTheHosts : Obligations.BusyBlockIsNotTheHosts := by
  unfold Obligations.BusyBlockIsNotTheHosts
  intro s t a rest hp ha h hs
  rw [step_of_host h ha] at hs
  obtain ⟨r, k, rfl⟩ := hostAct_of_busy (by exact hp) hs
  exact ⟨rfl, rfl⟩

end Sys2Proof.Machine

/-! The memory (20_memory.md): where a step stops (R60, 10_state.md R25); what a core step reads and
appends (R57, R62); and that every step keeps the invariant, phase by phase for the core and then
for the host's actions (R58, R59). -/

namespace Sys2Proof.Machine

/-! ### Where a step stops -/

theorem scanStep_of_unwritten {s : State} {m : ScanMode} (hm : scanMode s.op = some m)
    (hl : s.pos.toNat < s.ilen.toNat) (hc : s.pos.toNat < Config.ibufCap) (h10 : s.cnt ≠ 10#4)
    (hb : Memory.read? s.ibuf s.pos.toNat = none) :
    scanStep s = .refused (.ibufByteNotWritten s.pos.toNat) := by
  have hne : s.pos ≠ s.ilen := fun h => absurd hl (by simp [h])
  simp only [scanStep, hm, if_neg hne, if_pos hl, if_neg h10, readIbuf_of_unwritten hc hb]

theorem writeIlen_of_above {s : State} {n : Len} (hp : s.phase = .idle)
    (h : Config.ibufCap < n.toNat) : writeIlen n s = .refused .ilenAboveCapacity := by
  rw [writeIlen, if_pos hp, if_neg (Nat.not_le.2 h)]

theorem writeIbufByHost_of_ge {a : Nat} (h : Config.ibufCap ≤ a) (b : Byte) (s : State) :
    writeIbufByHost a b s = .fault .noSuchAddress := if_neg (Nat.not_lt.2 h)

theorem readObufByHost_of_ge {a : Nat} (h : Config.obufCap ≤ a) (s : State) :
    readObufByHost a s = .fault .noSuchAddress := if_neg (Nat.not_lt.2 h)

/-- Settles O28: each clause is the rule of its access, in the case its premises choose. -/
theorem stopsAreWhereTheSpecRefuses : Obligations.StopsAreWhereTheSpecRefuses := by
  unfold Obligations.StopsAreWhereTheSpecRefuses
  refine ⟨fun s ha hp hm hl hc h10 hb => ?_, fun s n rest h hp hn => ?_,
    fun s a b rest h ha => ?_, fun s a rest h ha => ?_⟩
  · obtain ⟨m, hm⟩ := Option.isSome_iff_exists.1 hm
    rw [step_of_nil ha, coreStep_of_scan hp, scanStep_of_unwritten hm hl hc h10 hb]
  · rw [step_of_host h (by simp)]
    exact writeIlen_of_above (by exact hp) hn
  · rw [step_of_host h (by simp)]
    exact writeIbufByHost_of_ge ha b _
  · rw [step_of_host h (by simp)]
    exact readObufByHost_of_ge ha _

/-! ### What a core step reads and appends -/

/-- The step from `s` to `t` read `k` input bytes and appended `bs` to the output, and it left the
command and its input alone. -/
structure ReadsAndAppends (k : Nat) (bs : List Byte) (s t : State) : Prop where
  readSize : k ∈ [0, 1, 8]
  appendSize : bs.length ∈ [0, 1, 8]
  cmd : t.cmd = s.cmd
  ilen : t.ilen = s.ilen
  op : t.op = s.op
  ibuf : t.ibuf = s.ibuf
  pos : t.pos = s.pos + BitVec.ofNat 32 k
  olen : t.olen = s.olen + BitVec.ofNat 32 bs.length
  obuf : t.obuf = Memory.writeBytes s.obuf s.olen.toNat bs
  room : bs = [] ∨ s.olen.toNat + bs.length ≤ Config.obufCap

/-- A step that only ends an operation reads and appends nothing. -/
theorem ReadsAndAppends.of_ending {s t : State}
    (h : t = { s with val := t.val, err := t.err, errpos := t.errpos, phase := t.phase }) :
    ReadsAndAppends 0 [] s t := by
  rw [h]
  exact ⟨by simp, by simp, rfl, rfl, rfl, rfl, (BitVec.add_zero _).symm, (BitVec.add_zero _).symm,
    rfl, .inl rfl⟩

theorem length_closedOutput (m : ScanMode) (s : State) :
    (closedOutput m s).length ∈ [0, 1, 8] := by
  cases m <;> simp [closedOutput]

/-- A group of a stream that is complete has stored its output. -/
theorem finishGroup_of_stream {m : ScanMode} {s t : State} (hns : ∀ signed, m ≠ .single signed)
    (h : finishGroup m s = .next t) :
    s.olen.toNat + (closedOutput m s).length ≤ Config.obufCap ∧
      t = { s with
        obuf := Memory.writeBytes s.obuf s.olen.toNat (closedOutput m s)
        olen := s.olen + BitVec.ofNat 32 (closedOutput m s).length
        acc := 0#64, cnt := 0#4 } := by
  obtain ⟨⟨signed, hm⟩, -⟩ | ⟨-, hroom, ht⟩ := finishGroup_eq_next.1 h
  · exact absurd hm (hns signed)
  · exact ⟨hroom, ht⟩

theorem closeScan_readsAndAppends (m : ScanMode) (s : State) :
    ReadsAndAppends 0 [] s (closeScan m s) := by
  obtain ⟨_, -, h⟩ | ⟨-, -, h⟩ | ⟨-, -, h⟩ := closeScan_cases m s
  all_goals
    rw [h]
    exact .of_ending rfl

theorem scanStep_readsAndAppends {s t : State} (hp : s.phase = .scan) (h : scanStep s = .next t) :
    ∃ k bs, ReadsAndAppends k bs s t := by
  obtain ⟨m, -, ⟨-, rfl⟩ | ⟨-, -, rfl⟩ | ⟨-, -, -, b, -, ⟨-, rfl⟩ | ⟨-, hns, hf⟩⟩⟩ :=
    scanStep_eq_next hp h
  · exact ⟨0, [], closeScan_readsAndAppends m s⟩
  · exact ⟨0, [], .of_ending rfl⟩
  · exact ⟨1, [], by simp, by simp, rfl, rfl, rfl, rfl, rfl, (BitVec.add_zero _).symm, rfl,
      .inl rfl⟩
  · obtain ⟨hroom, rfl⟩ := finishGroup_of_stream hns hf
    exact ⟨1, _, by simp, length_closedOutput m _, rfl, rfl, rfl, rfl, rfl, rfl, rfl, .inr hroom⟩

theorem loadStep_readsAndAppends {s t : State} (h : loadStep s = .next t) :
    ∃ k bs, ReadsAndAppends k bs s t := by
  obtain ⟨_, -, ⟨-, rfl⟩ | ⟨-, w, -, rfl⟩⟩ := loadStep_eq_next h
  · exact ⟨0, [], .of_ending rfl⟩
  · exact ⟨8, [], by simp, by simp, rfl, rfl, rfl, rfl, rfl, (BitVec.add_zero _).symm, rfl,
      .inl rfl⟩

theorem emitStep_readsAndAppends {s t : State} (h : emitStep s = .next t) :
    ∃ k bs, ReadsAndAppends k bs s t := by
  obtain ⟨_, -, hroom, ⟨-, rfl⟩ | ⟨-, rfl⟩⟩ := emitStep_eq_next h
  · exact ⟨0, [contByte (low7 s.acc)], by simp, by simp, rfl, rfl, rfl, rfl,
      (BitVec.add_zero _).symm, rfl, rfl, .inr hroom⟩
  · exact ⟨0, [lastByte (low7 s.acc)], by simp, by simp, rfl, rfl, rfl, rfl,
      (BitVec.add_zero _).symm, rfl, rfl, .inr hroom⟩

theorem coreStep_readsAndAppends {s t : State} (h : coreStep s = .next t) :
    ∃ k bs, ReadsAndAppends k bs s t := by
  cases hp : s.phase with
  | idle =>
    rw [coreStep_of_idle hp] at h
    cases h
    exact ⟨0, [], .of_ending rfl⟩
  | load => exact loadStep_readsAndAppends (coreStep_of_load hp ▸ h)
  | emit => exact emitStep_readsAndAppends (coreStep_of_emit hp ▸ h)
  | scan => exact scanStep_readsAndAppends hp (coreStep_of_scan hp ▸ h)

theorem op_of_single {op : BitVec 4} {signed : Bool}
    (h : scanMode op = some (.single signed)) : op ∈ [0x2#4, 0x3#4] := by
  revert h
  revert op
  cases signed <;> decide

/-- `VAL` is written by the closing step of a single decode alone. -/
theorem coreStep_val {s t : State} (h : coreStep s = .next t) :
    t.val = s.val ∨
      (s.op ∈ [0x2#4, 0x3#4] ∧ s.phase = .scan ∧ t.phase = .idle ∧ t.err = s.err) := by
  cases hp : s.phase with
  | idle =>
    rw [coreStep_of_idle hp] at h
    cases h
    exact .inl rfl
  | load =>
    rw [coreStep_of_load hp] at h
    obtain ⟨_, -, ⟨-, rfl⟩ | ⟨-, _, -, rfl⟩⟩ := loadStep_eq_next h
    all_goals exact .inl rfl
  | emit =>
    rw [coreStep_of_emit hp] at h
    obtain ⟨_, -, -, ⟨-, rfl⟩ | ⟨-, rfl⟩⟩ := emitStep_eq_next h
    all_goals exact .inl rfl
  | scan =>
    rw [coreStep_of_scan hp] at h
    obtain ⟨m, hm, ⟨-, rfl⟩ | ⟨-, -, rfl⟩ | ⟨-, -, -, _, -, ⟨-, rfl⟩ | ⟨-, hns, hf⟩⟩⟩ :=
      scanStep_eq_next hp h
    · obtain ⟨signed, rfl, hc⟩ | ⟨-, -, hc⟩ | ⟨-, -, hc⟩ := closeScan_cases m s
      · rw [hc]
        exact .inr ⟨op_of_single hm, rfl, rfl, rfl⟩
      all_goals
        rw [hc]
        exact .inl rfl
    · exact .inl rfl
    · exact .inl rfl
    · obtain ⟨-, rfl⟩ := finishGroup_of_stream hns hf
      exact .inl rfl

/-- Settles O34: the bytes appended stand from the old `OLEN` on. -/
theorem coreStepsReadForwardAndAppend : Obligations.CoreStepsReadForwardAndAppend := by
  unfold Obligations.CoreStepsReadForwardAndAppend
  intro s t ha hs
  rw [step_of_nil ha] at hs
  obtain ⟨k, bs, hstep⟩ := coreStep_readsAndAppends hs
  refine ⟨hstep.cmd, hstep.ilen, hstep.op, hstep.ibuf, ⟨k, hstep.readSize, hstep.pos⟩,
    ⟨bs.length, hstep.appendSize, hstep.olen, fun a hout => ?_, fun j hj => ?_⟩, coreStep_val hs⟩
  · rw [hstep.obuf, Memory.read?_writeBytes, if_neg (by omega)]
  · rw [hstep.obuf, Memory.read?_writeBytes, if_pos (by omega)]
    simpa using hj

/-! ### The invariant: what does not depend on the phase -/

theorem phaseInv_of_idle {s : State} (h : s.phase = .idle) : PhaseInv s := by
  simp [PhaseInv, h]

theorem phaseInv_iff_of_scan {s : State} (h : s.phase = .scan) :
    PhaseInv s ↔ ∃ m, scanMode s.op = some m ∧ ScanInv m s := by
  simp [PhaseInv, h]

theorem phaseInv_iff_of_load {s : State} (h : s.phase = .load) :
    PhaseInv s ↔ (loadSigned s.op).isSome = true ∧ LoadInv s := by
  simp [PhaseInv, h]

theorem phaseInv_iff_of_emit {s : State} (h : s.phase = .emit) :
    PhaseInv s ↔ ∃ after, phaseAfterGroup s.op = some after ∧ EmitInv after s := by
  simp [PhaseInv, h]

/-- The invariant does not speak of the outside world. -/
theorem State.Inv.withWorld {s : State} (h : s.Inv) (agenda : List Event)
    (readings : List Reading) (freeIdx : Nat) :
    State.Inv { s with agenda := agenda, readings := readings, freeIdx := freeIdx } := by
  refine { h with phaseInv := ?_ }
  have hph := h.phaseInv
  cases hp : s.phase with
  | idle => trivial
  | scan =>
    obtain ⟨m, hm, hscan⟩ := (phaseInv_iff_of_scan hp).1 hph
    exact ⟨m, hm, { hscan with }⟩
  | load =>
    obtain ⟨hm, hload⟩ := (phaseInv_iff_of_load hp).1 hph
    exact ⟨hm, { hload with }⟩
  | emit =>
    obtain ⟨after, hm, hemit⟩ := (phaseInv_iff_of_emit hp).1 hph
    exact ⟨after, hm, { hemit with }⟩

/-- Ending an operation keeps the invariant, whatever value it hands over. -/
theorem State.Inv.ended {s : State} (h : s.Inv) (v : Word) :
    State.Inv { s with val := v, phase := .idle } :=
  { h with
    busyOk := fun hb => absurd rfl hb
    phaseInv := trivial }

/-- Recording an error keeps the invariant, if it is one that uses `ERRPOS` or records 0 there. -/
theorem State.Inv.raised {s : State} (h : s.Inv) {e : ErrCode} {p : Len}
    (hpos : e ≠ .truncatedGroup → e ≠ .overflow → p = 0#32) : (raise e p s).Inv :=
  { h with
    busyOk := fun hb => absurd rfl hb
    errposZero := hpos
    phaseInv := trivial }

section Appending

variable {k : Nat} {bs : List Byte} {s t : State}

theorem ReadsAndAppends.toNat_olen (hstep : ReadsAndAppends k bs s t) :
    t.olen.toNat = s.olen.toNat + bs.length := by
  rw [hstep.olen]
  obtain rfl | hroom := hstep.room
  · simp
  · exact toNat_olen_add hroom

/-- Appending output inside the buffer keeps its form and its bounds. -/
theorem ReadsAndAppends.obufWf (hstep : ReadsAndAppends k bs s t)
    (h : Memory.wf Config.obufCap s.obuf = true) : Memory.wf Config.obufCap t.obuf = true := by
  rw [hstep.obuf]
  obtain rfl | hroom := hstep.room
  · exact h
  · exact Memory.wf_writeBytes bs h hroom

theorem ReadsAndAppends.olenLe (hstep : ReadsAndAppends k bs s t)
    (h : s.olen.toNat ≤ Config.obufCap) : t.olen.toNat ≤ Config.obufCap := by
  rw [hstep.toNat_olen]
  obtain rfl | hroom := hstep.room
  · exact h
  · exact hroom

/-- After appending, every byte below the new `OLEN` is written if every byte below the old one
was. -/
theorem ReadsAndAppends.outputWritten (hstep : ReadsAndAppends k bs s t)
    (h : ∀ a, a < s.olen.toNat → (Memory.read? s.obuf a).isSome = true) :
    ∀ a, a < t.olen.toNat → (Memory.read? t.obuf a).isSome = true := by
  intro a ha
  rw [hstep.toNat_olen] at ha
  rw [hstep.obuf, Memory.read?_writeBytes]
  split
  · next hin =>
    rw [List.getElem?_eq_getElem (by omega)]
    rfl
  · exact h a (by omega)

/-- A core step that records no error keeps the invariant, if it keeps `CNT` in its range and gives
what the new phase asks for. -/
theorem State.Inv.of_readsAndAppends (h : s.Inv) (hbusy : s.phase ≠ .idle)
    (hstep : ReadsAndAppends k bs s t) (herr : t.err = s.err) (herrpos : t.errpos = s.errpos)
    (hcnt : t.cnt.toNat ≤ 10) (hphase : PhaseInv t) : t.Inv where
  ibufWf := by rw [hstep.ibuf]; exact h.ibufWf
  obufWf := hstep.obufWf h.obufWf
  ilenLe := by rw [hstep.ilen]; exact h.ilenLe
  olenLe := hstep.olenLe h.olenLe
  outputWritten := hstep.outputWritten h.outputWritten
  cntLe := hcnt
  opIsCmd := by rw [hstep.op, hstep.cmd]; exact h.opIsCmd
  busyOk _ := herr.trans (h.busyOk hbusy)
  errposZero := by rw [herr, herrpos]; exact h.errposZero
  phaseInv := hphase

end Appending

/-! ### The invariant in a scan -/

/-- A scan that starts has nothing behind it. -/
theorem scanInv_of_start {m : ScanMode} {s : State} (hpos : s.pos = 0#32) (hcnt : s.cnt = 0#4)
    (hacc : s.acc = 0#64) (holen : s.olen = 0#32)
    (hsingle : ∀ signed, m = .single signed → s.ilen ≠ 0#32) : ScanInv m s where
  posLe := by simp [hpos]
  cntLe := by simp [hcnt]
  olenLe := by simp [holen]
  group := ⟨[], by simp [hcnt], hacc, by simp⟩
  single signed hm := ⟨by simp [hcnt, hpos], holen, hsingle signed hm⟩

section Scanning

variable {m : ScanMode} {s : State} {b : Byte}

/-- A byte that stays in the open group: it stands behind the bytes the group has, and `ACC` takes
its payload. -/
theorem ScanInv.of_acceptByte (h : ScanInv m s) (hl : s.pos.toNat < s.ilen.toNat)
    (hc : s.cnt.toNat < 10) (hb : Memory.read? s.ibuf s.pos.toNat = some b)
    (hopen : contBit b = true ∨ ∃ signed, m = .single signed) :
    ScanInv m (acceptByte (payload b) s) := by
  have hpos : (s.pos + 1#32).toNat = s.pos.toNat + 1 := toNat_add_one hl s.ilen.isLt
  have hcnt := toNat_cnt_add_one hc
  have hcntLe := h.cntLe
  have hbase : s.pos.toNat + 1 - (s.cnt.toNat + 1) = s.pos.toNat - s.cnt.toNat := by omega
  obtain ⟨g, hg, hacc, hcont⟩ := h.group
  refine ⟨?_, ?_, ?_, ⟨g ++ [b], ?_, ?_, fun hns x hx => ?_⟩, fun signed hm => ?_⟩
  · rw [acceptByte_pos, acceptByte_ilen, hpos]
    exact hl
  · rw [acceptByte_pos, acceptByte_cnt, hpos, hcnt]
    omega
  · rw [acceptByte_pos, acceptByte_cnt, acceptByte_olen, hpos, hcnt, hbase]
    exact h.olenLe
  · rw [acceptByte_pos, acceptByte_cnt, acceptByte_ibuf, hpos, hcnt, hbase]
    exact Memory.readBytes?_snoc hg (by rwa [Nat.sub_add_cancel hcntLe])
  · exact acc_acceptByte (Memory.readBytes?_length hg).symm hacc
  · obtain hx | hx := List.mem_append.1 hx
    · exact hcont hns x hx
    · obtain ⟨signed, hm⟩ | hcb := hopen.symm
      · exact absurd hm (hns signed)
      · rwa [List.mem_singleton.1 hx]
  · obtain ⟨hall, holen, hilen⟩ := h.single signed hm
    exact ⟨by rw [acceptByte_pos, acceptByte_cnt, hpos, hcnt, hall], holen, hilen⟩

/-- A byte that closes a group of a stream: the next group starts behind it, and the output grows by
at most the eight bytes that R58 allows for it. -/
theorem ScanInv.of_closed {t : State} (h : ScanInv m s) (hl : s.pos.toNat < s.ilen.toNat)
    (hns : ∀ signed, m ≠ .single signed)
    (hf : finishGroup m (acceptByte (payload b) s) = .next t) : ScanInv m t := by
  obtain ⟨hroom, rfl⟩ := finishGroup_of_stream hns hf
  have hpos : (s.pos + 1#32).toNat = s.pos.toNat + 1 := toNat_add_one hl s.ilen.isLt
  have holen := toNat_olen_add hroom
  have hlen : (closedOutput m (acceptByte (payload b) s)).length ≤ 8 := by
    cases m <;> simp [closedOutput]
  have holenLe := h.olenLe
  refine ⟨?_, Nat.zero_le _, ?_, ⟨[], rfl, rfl, by simp⟩, fun signed hm => absurd hm (hns signed)⟩
  · rw [acceptByte_pos, acceptByte_ilen, hpos]
    exact hl
  · rw [holen, acceptByte_pos, acceptByte_olen, hpos, BitVec.toNat_zero]
    omega

end Scanning

/-- The close of a scan is an end or an error that uses `ERRPOS`. -/
theorem State.Inv.closeScan {s : State} (h : s.Inv) (m : ScanMode) :
    (Machine.closeScan m s).Inv := by
  obtain ⟨_, -, hc⟩ | ⟨-, -, hc⟩ | ⟨-, -, hc⟩ := closeScan_cases m s
  · rw [hc]
    exact h.ended _
  · rw [hc]
    exact h.raised fun hne => absurd rfl hne
  · rw [hc]
    exact h.ended s.val

theorem scanStep_keeps_inv {s t : State} (h : s.Inv) (hp : s.phase = .scan)
    (hs : scanStep s = .next t) : t.Inv := by
  have hbusy : s.phase ≠ .idle := by simp [hp]
  obtain ⟨_, _, hstep⟩ := scanStep_readsAndAppends hp hs
  obtain ⟨m, hm, hscan⟩ := (phaseInv_iff_of_scan hp).1 h.phaseInv
  obtain ⟨m', hm', hcases⟩ := scanStep_eq_next hp hs
  obtain rfl : m = m' := Option.some.inj (hm.symm.trans hm')
  obtain ⟨-, rfl⟩ | ⟨-, -, rfl⟩ | ⟨hl, hc, -, b, hb, ⟨hopen, rfl⟩ | ⟨-, hns, hf⟩⟩ := hcases
  · exact h.closeScan m
  · exact h.raised fun _ hne => absurd rfl hne
  · have hcnt := toNat_cnt_add_one hc
    exact h.of_readsAndAppends hbusy hstep rfl rfl (by rw [acceptByte_cnt]; omega)
      ((phaseInv_iff_of_scan (by exact hp)).2 ⟨m, hm, hscan.of_acceptByte hl hc hb hopen⟩)
  · have hclosed := hscan.of_closed hl hns hf
    obtain ⟨-, rfl⟩ := finishGroup_of_stream hns hf
    exact h.of_readsAndAppends hbusy hstep rfl rfl (Nat.zero_le _)
      ((phaseInv_iff_of_scan (by exact hp)).2 ⟨m, hm, hclosed⟩)

/-! ### The invariant in an encoding -/

theorem loadStep_keeps_inv {s t : State} (h : s.Inv) (hp : s.phase = .load)
    (hs : loadStep s = .next t) : t.Inv := by
  have hbusy : s.phase ≠ .idle := by simp [hp]
  obtain ⟨_, _, hstep⟩ := loadStep_readsAndAppends hs
  obtain ⟨-, hload⟩ := (phaseInv_iff_of_load hp).1 h.phaseInv
  obtain ⟨signed, hm, ⟨-, rfl⟩ | ⟨hne, w, -, rfl⟩⟩ := loadStep_eq_next hs
  · exact h.ended s.val
  · obtain ⟨hilen8, hpos8, hposLe, hcnt, -, holen⟩ := hload
    have hposNe : s.pos.toNat ≠ s.ilen.toNat := fun he => hne (BitVec.eq_of_toNat_eq he)
    have hpos : (s.pos + 8#32).toNat = s.pos.toNat + 8 := by
      have := s.ilen.isLt
      simp [BitVec.toNat_add]
      omega
    have hemit : EmitInv .load { s with
        acc := toWire signed w, pos := s.pos + 8#32, phase := .emit } :=
      { cntLe := by simp [hcnt]
        accLt := by simp [hcnt]; omega
        single := fun ha => by cases ha
        batch := fun _ => by simp only [hpos, hcnt, BitVec.toNat_zero]; omega }
    exact h.of_readsAndAppends hbusy hstep rfl rfl h.cntLe
      ⟨.load, phaseAfterGroup_of_loadSigned hm, hemit⟩

/-- Only a batch encoding goes back to `LOAD` after a group. -/
theorem loadSigned_of_phaseAfterGroup {op : BitVec 4} (h : phaseAfterGroup op = some .load) :
    (loadSigned op).isSome = true := by
  revert h
  revert op
  decide

section Emitting

variable {after : Phase} {s : State}

/-- With more than seven bits left the byte is not the group's tenth. -/
theorem EmitInv.cnt_le_eight (h : EmitInv after s) (hacc : 2 ^ 7 ≤ s.acc.toNat) :
    s.cnt.toNat ≤ 8 := by
  have : 7 < 64 - 7 * s.cnt.toNat :=
    (Nat.pow_lt_pow_iff_right (by decide)).1 (Nat.lt_of_le_of_lt hacc h.accLt)
  omega

/-- A byte that does not end the group leaves seven bits fewer. -/
theorem EmitInv.of_cont (h : EmitInv after s) (obuf : Memory) (hacc : 2 ^ 7 ≤ s.acc.toNat)
    (holen : (s.olen + 1#32).toNat = s.olen.toNat + 1) :
    EmitInv after { s with
      obuf := obuf, olen := s.olen + 1#32, acc := lsr64 s.acc 7, cnt := s.cnt + 1#4 } := by
  have hcnt8 := h.cnt_le_eight hacc
  obtain ⟨-, haccLt, hsingle, hbatch⟩ := h
  have hcnt : (s.cnt + 1#4).toNat = s.cnt.toNat + 1 := toNat_cnt_add_one (by omega)
  refine ⟨?_, ?_, fun ha => ?_, fun ha => ?_⟩
  · simp only [hcnt]
    omega
  · simp only [hcnt, toNat_lsr64]
    apply Nat.div_lt_of_lt_mul
    rwa [← Nat.pow_add, show 7 + (64 - 7 * (s.cnt.toNat + 1)) = 64 - 7 * s.cnt.toNat by omega]
  · obtain ⟨hpos, hout⟩ := hsingle ha
    exact ⟨hpos, by simp only [holen, hcnt, hout]⟩
  · obtain ⟨hilen8, hpos8, hpos, hposLe, hout⟩ := hbatch ha
    exact ⟨hilen8, hpos8, hpos, hposLe, by simp only [holen, hcnt]; omega⟩

/-- The last byte of a batch's group: the word has given at most ten bytes. -/
theorem EmitInv.loadInv_of_last (h : EmitInv .load s) (obuf : Memory)
    (holen : (s.olen + 1#32).toNat = s.olen.toNat + 1) :
    LoadInv { s with
      obuf := obuf, olen := s.olen + 1#32, acc := 0#64, cnt := 0#4, phase := .load } := by
  have hcntLe := h.cntLe
  obtain ⟨hilen8, hpos8, hpos, hposLe, hout⟩ := h.batch rfl
  exact ⟨hilen8, hpos8, hposLe, rfl, rfl, by simp only [holen]; omega⟩

end Emitting

theorem emitStep_keeps_inv {s t : State} (h : s.Inv) (hp : s.phase = .emit)
    (hs : emitStep s = .next t) : t.Inv := by
  have hbusy : s.phase ≠ .idle := by simp [hp]
  obtain ⟨_, _, hstep⟩ := emitStep_readsAndAppends hs
  obtain ⟨after, hm, hemit⟩ := (phaseInv_iff_of_emit hp).1 h.phaseInv
  obtain ⟨after', hm', hroom, hcases⟩ := emitStep_eq_next hs
  obtain rfl : after = after' := Option.some.inj (hm.symm.trans hm')
  have holen : (s.olen + 1#32).toNat = s.olen.toNat + 1 := toNat_olen_add (n := 1) hroom
  obtain ⟨hacc, rfl⟩ | ⟨-, rfl⟩ := hcases
  · have hcnt8 := hemit.cnt_le_eight hacc
    have hcnt : (s.cnt + 1#4).toNat = s.cnt.toNat + 1 := toNat_cnt_add_one (by omega)
    exact h.of_readsAndAppends hbusy hstep rfl rfl (by simp only [hcnt]; omega)
      ((phaseInv_iff_of_emit (by exact hp)).2 ⟨after, hm, hemit.of_cont _ hacc holen⟩)
  · refine h.of_readsAndAppends hbusy hstep rfl rfl (Nat.zero_le _) ?_
    obtain ⟨rfl, -⟩ | ⟨rfl, -⟩ := phaseAfterGroup_eq_some hm
    · trivial
    · exact ⟨loadSigned_of_phaseAfterGroup hm, hemit.loadInv_of_last _ holen⟩

theorem coreStep_keeps_inv {s t : State} (h : s.Inv) (hs : coreStep s = .next t) : t.Inv := by
  cases hp : s.phase with
  | idle =>
    rw [coreStep_of_idle hp] at hs
    cases hs
    exact h
  | load => exact loadStep_keeps_inv h hp (coreStep_of_load hp ▸ hs)
  | emit => exact emitStep_keeps_inv h hp (coreStep_of_emit hp ▸ hs)
  | scan => exact scanStep_keeps_inv h hp (coreStep_of_scan hp ▸ hs)

/-! ### The invariant at a command start -/

/-- The common initialisation of an idle core: the output is empty and there is no error. -/
theorem State.Inv.initCommand {s : State} (h : s.Inv) (hp : s.phase = .idle) (c : Byte) :
    (Machine.initCommand c s).Inv where
  ibufWf := h.ibufWf
  obufWf := h.obufWf
  ilenLe := h.ilenLe
  olenLe := Nat.zero_le _
  outputWritten a ha := absurd ha (Nat.not_lt_zero a)
  cntLe := Nat.zero_le _
  opIsCmd := rfl
  busyOk _ := rfl
  errposZero _ _ := rfl
  phaseInv := phaseInv_of_idle hp

section CommandStart

variable {c : Byte} {s : State}

/-- A dispatch line that takes the core into a phase keeps the invariant, if it gives what the phase
asks for. -/
theorem State.Inv.dispatched (h : (Machine.initCommand c s).Inv) {acc : Word} {phase : Phase}
    (hphase : PhaseInv { Machine.initCommand c s with acc := acc, phase := phase }) :
    State.Inv { Machine.initCommand c s with acc := acc, phase := phase } :=
  { h with
    busyOk := fun _ => rfl
    phaseInv := hphase }

theorem inv_beginEncode (h : (initCommand c s).Inv) (signed : Bool)
    (hm : phaseAfterGroup (c.extractLsb' 0 4) = some .idle) :
    (beginEncode signed (initCommand c s)).Inv :=
  h.dispatched ⟨.idle, hm, {
    cntLe := Nat.zero_le _
    accLt := (toWire signed s.val).isLt
    single := fun _ => ⟨rfl, rfl⟩
    batch := fun ha => by cases ha }⟩

theorem inv_beginScan {m : ScanMode} (h : (initCommand c s).Inv)
    (hm : scanMode (c.extractLsb' 0 4) = some m) (hns : ∀ signed, m ≠ .single signed) :
    (beginScan (initCommand c s)).Inv :=
  h.dispatched ⟨m, hm, scanInv_of_start rfl rfl rfl rfl fun signed hs => absurd hs (hns signed)⟩

theorem inv_beginDecode {m : ScanMode} (h : (initCommand c s).Inv)
    (hm : scanMode (c.extractLsb' 0 4) = some m) : (beginDecode (initCommand c s)).Inv := by
  obtain ⟨-, hd⟩ | ⟨hne, hd⟩ := beginDecode_cases (initCommand c s)
  · rw [hd]
    exact h.raised fun _ _ => rfl
  · rw [hd]
    exact h.dispatched ⟨m, hm, scanInv_of_start rfl rfl rfl rfl fun _ _ => hne⟩

theorem inv_beginBatch (h : (initCommand c s).Inv)
    (hm : (loadSigned (c.extractLsb' 0 4)).isSome = true) :
    (beginBatch (initCommand c s)).Inv := by
  obtain ⟨-, hd⟩ | ⟨h8, hd⟩ := beginBatch_cases (initCommand c s)
  · rw [hd]
    exact h.raised fun _ _ => rfl
  · rw [hd]
    exact h.dispatched ⟨hm, h8, rfl, Nat.zero_le _, rfl, rfl, Nat.zero_le _⟩

/-- Every dispatch line keeps the invariant of the common initialisation. -/
theorem inv_dispatchOf {i : Instr} (hi : formatOf i = .cmd) (h : s.Inv) (hp : s.phase = .idle) :
    (dispatchOf i (initCommand (encodeByte i) s)).Inv := by
  have hinit := h.initCommand hp (encodeByte i)
  cases i with
  | uenc | senc => exact inv_beginEncode hinit _ rfl
  | udec | sdec => exact inv_beginDecode hinit rfl
  | zze | zzd => exact { hinit with phaseInv := phaseInv_of_idle hp }
  | seg | udecs | sdecs => exact inv_beginScan hinit rfl (by simp)
  | uencs | sencs => exact inv_beginBatch hinit rfl
  | vbCont | vbLast => cases hi

end CommandStart

theorem writeCmd_keeps_inv {c : Byte} {s t : State} (h : s.Inv) (hp : s.phase = .idle)
    (hs : writeCmd c s = .next t) : t.Inv := by
  obtain ⟨i, hi, hstart⟩ | hstart := writeCmd_eq_start c
  · rw [hstart, startCommand_of_idle hp] at hs
    cases hs
    exact inv_dispatchOf hi h hp
  · rw [hstart, startCommand_of_idle hp] at hs
    cases hs
    exact (h.initCommand hp c).raised fun _ _ => rfl

/-! ### The invariant under the host's actions and reset -/

/-- What a host action other than a command start can do to an idle block (10_state.md R25, R35):
write `VAL`, a legal `ILEN` or one existing byte of `IBUF`, and record a read. -/
def HostWrites (s t : State) : Prop :=
  ∃ v n m r k, t = { s with val := v, ilen := n, ibuf := m, readings := r, freeIdx := k } ∧
    (n = s.ilen ∨ n.toNat ≤ Config.ibufCap) ∧
    (m = s.ibuf ∨ ∃ x b, x < Config.ibufCap ∧ m = Memory.write s.ibuf x b)

theorem hostWrites_of_record (s : State) (r : List Reading) (k : Nat) :
    HostWrites s { s with readings := r, freeIdx := k } :=
  ⟨_, _, _, r, k, rfl, .inl rfl, .inl rfl⟩

/-- The host's reads of `IBUF` write nothing but the record. -/
theorem readIbufByHost_records {x : Nat} {s t : State} (h : readIbufByHost x s = .next t) :
    ∃ r k, t = { s with readings := r, freeIdx := k } := by
  unfold readIbufByHost at h
  split at h
  · split at h
    all_goals
      cases h
      exact ⟨_, _, rfl⟩
  · cases h

/-- The host's reads of `OBUF` write nothing but the record. -/
theorem readObufByHost_records {x : Nat} {s t : State} (h : readObufByHost x s = .next t) :
    ∃ r k, t = { s with readings := r, freeIdx := k } := by
  unfold readObufByHost at h
  split at h
  · split at h
    · split at h
      all_goals
        cases h
        exact ⟨_, _, rfl⟩
    · cases h
      exact ⟨_, _, rfl⟩
  · cases h

/-- While the core is idle, a host action that answers is a command start or one of these writes. -/
theorem hostAct_of_idle {a : HostAction} {s t : State} (hp : s.phase = .idle)
    (h : hostAct a s = .next t) :
    (∃ c, a = .wrCmd c ∧ writeCmd c s = .next t) ∨ HostWrites s t := by
  cases a with
  | wrCmd c => exact .inl ⟨c, rfl, h⟩
  | wrVal v =>
    rw [hostAct, if_pos hp] at h
    cases h
    exact .inr ⟨v, _, _, _, _, rfl, .inl rfl, .inl rfl⟩
  | wrIlen n =>
    by_cases hn : n.toNat ≤ Config.ibufCap
    · rw [hostAct, writeIlen_of_legal hn, if_pos hp] at h
      cases h
      exact .inr ⟨_, n, _, _, _, rfl, .inr hn, .inl rfl⟩
    · rw [hostAct, writeIlen_of_above hp (Nat.not_le.1 hn)] at h
      cases h
  | wrIbuf x b =>
    by_cases hx : x < Config.ibufCap
    · rw [hostAct, writeIbufByHost_of_lt hx, if_pos hp] at h
      cases h
      exact .inr ⟨_, _, _, _, _, rfl, .inl rfl, .inr ⟨x, b, hx, rfl⟩⟩
    · rw [hostAct, writeIbufByHost_of_ge (Nat.not_lt.1 hx)] at h
      cases h
  | wrObuf x b =>
    rw [hostAct] at h
    split at h
    · cases h
      exact .inr (hostWrites_of_record s _ _)
    · cases h
  | rd r =>
    rw [hostAct, readRegister_of_shown (.inl hp)] at h
    cases h
    exact .inr (hostWrites_of_record s _ _)
  | rdIbuf x =>
    obtain ⟨r, k, rfl⟩ := readIbufByHost_records h
    exact .inr (hostWrites_of_record s r k)
  | rdObuf x =>
    obtain ⟨r, k, rfl⟩ := readObufByHost_records h
    exact .inr (hostWrites_of_record s r k)
  | wrStatus | wrOlen | wrErrpos | wait =>
    cases h
    exact .inr (hostWrites_of_record s _ _)

theorem HostWrites.keeps_inv {s t : State} (hw : HostWrites s t) (h : s.Inv)
    (hp : s.phase = .idle) : t.Inv := by
  obtain ⟨v, n, m, r, k, rfl, hilen, hibuf⟩ := hw
  have hilenLe : n.toNat ≤ Config.ibufCap := by
    obtain rfl | hn := hilen
    · exact h.ilenLe
    · exact hn
  have hibufWf : Memory.wf Config.ibufCap m = true := by
    obtain rfl | ⟨x, b, hx, rfl⟩ := hibuf
    · exact h.ibufWf
    · exact Memory.wf_write b h.ibufWf hx
  exact { h with ibufWf := hibufWf, ilenLe := hilenLe, phaseInv := phaseInv_of_idle hp }

theorem hostAct_keeps_inv {a : HostAction} {s t : State} (h : s.Inv) (hs : hostAct a s = .next t) :
    t.Inv := by
  by_cases hp : s.phase = .idle
  · obtain ⟨c, -, hc⟩ | hw := hostAct_of_idle hp hs
    · exact writeCmd_keeps_inv h hp hc
    · exact hw.keeps_inv h hp
  · obtain ⟨r, k, rfl⟩ := hostAct_of_busy hp hs
    exact h.withWorld s.agenda r k

/-- Settles O39: the first event of the agenda says whose step it is, and each agent's step keeps
the invariant. -/
theorem everyStepKeepsTheInvariant : Obligations.EveryStepKeepsTheInvariant := by
  unfold Obligations.EveryStepKeepsTheInvariant
  intro s t h hs
  have htail : ∀ rest, State.Inv { s with agenda := rest } :=
    fun rest => h.withWorld rest s.readings s.freeIdx
  cases hagenda : s.agenda with
  | nil =>
    rw [step_of_nil hagenda] at hs
    exact coreStep_keeps_inv h hs
  | cons e rest =>
    cases e with
    | core =>
      rw [step_of_core hagenda] at hs
      exact coreStep_keeps_inv (htail rest) hs
    | reset =>
      rw [step_of_reset hagenda] at hs
      cases hs
      exact State.Inv.withWorld resetMeetsTheInvariant rest s.readings s.freeIdx
    | host a =>
      by_cases hw : a = .wait
      · subst hw
        by_cases hp : s.phase = .idle
        · rw [step_of_wait_idle hagenda hp] at hs
          cases hs
          exact htail rest
        · rw [step_of_wait_busy hagenda hp] at hs
          exact coreStep_keeps_inv h hs
      · rw [step_of_host hagenda hw] at hs
        exact hostAct_keeps_inv (htail rest) hs

end Sys2Proof.Machine

/-! The encodings (30_encoding.md): in each format a byte decodes to an instruction exactly when it is
the byte of that instruction (R71, R77, R80), so each instruction is run from its byte (R84); the bytes
of a group carry the slices of its value (R72); and what the host's `FILL` and `WAIT` do (R83). -/

namespace Sys2Proof.Machine

/-! ### Command bytes (30_encoding.md R77, R80) -/

theorem decodeCommand_eq_ok_iff_fields {c : Byte} {i : Instr} :
    decodeCommand c = .ok i ↔
      c.extractLsb' 4 4 = 0#4 ∧ decodeOpc (c.extractLsb' 0 4) = some i := by
  by_cases hz : c.extractLsb' 4 4 = 0#4
  · cases ho : decodeOpc (c.extractLsb' 0 4) <;> simp [decodeCommand, hz, ho]
  · simp [decodeCommand, hz]

theorem setWidth_opc_of_high_zero {c : Byte} (hz : c.extractLsb' 4 4 = 0#4) :
    (c.extractLsb' 0 4).setWidth 8 = c := by
  apply BitVec.eq_of_toNat_eq
  have hz : c.toNat / 2 ^ 4 % 2 ^ 4 = 0 := by
    simpa [Nat.shiftRight_eq_div_pow] using congrArg BitVec.toNat hz
  simp only [BitVec.toNat_setWidth, BitVec.extractLsb'_toNat, Nat.shiftRight_zero]
  omega

/-- A byte decodes as a command exactly when it is that command's byte. -/
theorem decodeCommand_eq_ok_iff {c : Byte} {i : Instr} :
    decodeCommand c = .ok i ↔ formatOf i = .cmd ∧ c = encodeByte i := by
  constructor
  · intro h
    have opcodes : ∀ opc : BitVec 4, ∀ j ∈ decodeOpc opc, encodeByte j = opc.setWidth 8 := by decide
    obtain ⟨hz, ho⟩ := decodeCommand_eq_ok_iff_fields.1 h
    exact ⟨formatOf_of_decodeCommand h, by rw [opcodes _ _ ho, setWidth_opc_of_high_zero hz]⟩
  · rintro ⟨hi, rfl⟩
    cases i with
    | vbCont | vbLast => cases hi
    | _ => rfl

/-- The eleven commands, in the order of their codes. -/
def commands : List Instr :=
  [.uenc, .senc, .udec, .sdec, .zze, .zzd, .seg, .uencs, .sencs, .udecs, .sdecs]

theorem mem_commands_iff {i : Instr} : i ∈ commands ↔ formatOf i = .cmd := by
  cases i <;> simp [commands, formatOf]

/-- A byte that is no command: a bit of the high half is set, or the code is reserved (R80). -/
theorem decodeCommand_of_illegal {c : Byte}
    (h : c.extractLsb' 4 4 ≠ 0#4 ∨ c ∈ [0x07#8, 0x0C#8, 0x0D#8, 0x0E#8, 0x0F#8]) :
    ∃ e, decodeCommand c = .error e := by
  obtain hz | hc := h
  · exact ⟨.highBitsSet, if_pos hz⟩
  · have reserved : ∀ d ∈ [0x07#8, 0x0C#8, 0x0D#8, 0x0E#8, 0x0F#8],
        d.extractLsb' 4 4 = 0#4 ∧ decodeOpc (d.extractLsb' 0 4) = none := by decide
    obtain ⟨hz, ho⟩ := reserved c hc
    exact ⟨.reservedCode, by simp [decodeCommand, hz, ho]⟩

/-! ### Varint bytes (30_encoding.md R71) -/

/-- Every byte is the varint byte of its class and payload, and of no other. -/
theorem decodeVarintByte_eq_iff {b : Byte} {i : Instr} :
    decodeVarintByte b = i ↔ formatOf i = .vb ∧ b = encodeByte i := by
  constructor
  · rintro rfl
    cases h : contBit b with
    | true => simp [decodeVarintByte, h, formatOf, encodeByte, contByte_payload h]
    | false => simp [decodeVarintByte, h, formatOf, encodeByte, lastByte_payload h]
  · rintro ⟨hi, rfl⟩
    cases i with
    | vbCont | vbLast => simp [decodeVarintByte, encodeByte]
    | _ => cases hi

/-! ### Decoding and encoding (30_encoding.md R79) -/

theorem decode_cmd_eq_ok_iff {b : Byte} {bs rest : List Byte} {i : Instr} :
    decode .cmd (b :: bs) = .ok (i, rest) ↔ decodeCommand b = .ok i ∧ bs = rest := by
  cases h : decodeCommand b <;> simp [decode, h]

theorem decode_vb_eq_ok_iff {b : Byte} {bs rest : List Byte} {i : Instr} :
    decode .vb (b :: bs) = .ok (i, rest) ↔ decodeVarintByte b = i ∧ bs = rest := by
  simp [decode]

/-- Bytes decode in a format to an instruction exactly when the instruction has that format and its
encoding stands in front of the rest. -/
theorem decode_eq_ok_iff {f : Format} {bytes rest : List Byte} {i : Instr} :
    decode f bytes = .ok (i, rest) ↔ formatOf i = f ∧ bytes = encode i ++ rest := by
  cases bytes with
  | nil => simp [decode, encode]
  | cons b bs =>
    rw [encode, List.singleton_append, List.cons.injEq, ← and_assoc]
    cases f with
    | cmd => rw [decode_cmd_eq_ok_iff, decodeCommand_eq_ok_iff]
    | vb => rw [decode_vb_eq_ok_iff, decodeVarintByte_eq_iff]

/-- Settles O3: both directions of the characterisation of `decode`. -/
theorem decodeAndEncodeAgree : Obligations.DecodeAndEncodeAgree := by
  unfold Obligations.DecodeAndEncodeAgree
  exact ⟨fun _ _ => decode_eq_ok_iff.2 ⟨rfl, rfl⟩, fun _ _ _ _ => decode_eq_ok_iff.1⟩

/-- Settles O1: each byte is the byte of its instruction. -/
theorem writtenOutBytesDecode : Obligations.WrittenOutBytesDecode := by
  unfold Obligations.WrittenOutBytesDecode
  have command : ∀ i, formatOf i = .cmd → decodeCommand (encodeByte i) = .ok i :=
    fun _ hi => decodeCommand_eq_ok_iff.2 ⟨hi, rfl⟩
  have varint : ∀ i, formatOf i = .vb → decodeVarintByte (encodeByte i) = i :=
    fun _ hi => decodeVarintByte_eq_iff.2 ⟨hi, rfl⟩
  exact ⟨command .uenc rfl, command .senc rfl, command .udec rfl, command .sdec rfl,
    command .zze rfl, command .zzd rfl, command .seg rfl, command .uencs rfl, command .sencs rfl,
    command .udecs rfl, command .sdecs rfl, varint (.vbCont 0x2C#7) rfl, varint (.vbCont 0#7) rfl,
    varint (.vbLast 0x02#7) rfl, varint (.vbLast 0x7F#7) rfl⟩

/-- Settles O2: the bytes listed are the bytes of the eleven commands. -/
theorem exactlyElevenBytesAreCommands : Obligations.ExactlyElevenBytesAreCommands := by
  unfold Obligations.ExactlyElevenBytesAreCommands
  intro c
  change _ ↔ c ∈ commands.map encodeByte
  simp only [decodeCommand_eq_ok_iff, List.mem_map, mem_commands_iff, eq_comm (a := c)]

/-! ### The bytes of a group (30_encoding.md R72) -/

/-- The payload of byte `i` is the `i`-th seven-bit slice of the payload sum. -/
theorem payload_eq_slice {s : List Byte} {i : Nat} {g : Byte} (h : s[i]? = some g) :
    (payload g).toNat = payloadSum s / 2 ^ (7 * i) % 2 ^ 7 := by
  induction s generalizing i with
  | nil => simp at h
  | cons b s ih =>
    have hb := (payload b).isLt
    cases i with
    | zero =>
      obtain rfl : b = g := by simpa using h
      simp only [payloadSum]
      omega
    | succ i =>
      have htail : payloadSum (b :: s) / 2 ^ 7 = payloadSum s := by
        simp only [payloadSum]
        omega
      rw [ih (by simpa using h), show 7 * (i + 1) = 7 + 7 * i by ring, Nat.pow_add,
        ← Nat.div_div_eq_div_mul, htail]

/-- In a complete group `C` is 1 on all bytes but the last. -/
theorem contBit_iff_of_completeGroup {s : List Byte} (hc : completeGroup s = true) {i : Nat}
    {g : Byte} (h : s[i]? = some g) : contBit g = true ↔ i + 1 < s.length := by
  obtain rfl | ⟨l, b, rfl⟩ := s.eq_nil_or_concat'
  · simp at h
  · simp only [completeGroup_snoc, Bool.and_eq_true, List.all_eq_true, Bool.not_eq_true'] at hc
    obtain ⟨hall, hlast⟩ := hc
    rw [List.length_append, List.length_singleton, Nat.add_lt_add_iff_right]
    by_cases hi : i < l.length
    · rw [List.getElem?_append_left hi] at h
      exact iff_of_true (hall g (List.mem_of_getElem? h)) hi
    · rw [List.getElem?_append_right (Nat.not_lt.1 hi)] at h
      obtain rfl : g = b := by simpa using List.mem_of_getElem? h
      exact iff_of_false (by simp [hlast]) hi

/-- Settles O5: `uenc(u)` is a complete group whose payload sum is `u`. -/
theorem groupByteCarriesItsSevenValueBits : Obligations.GroupByteCarriesItsSevenValueBits := by
  unfold Obligations.GroupByteCarriesItsSevenValueBits
  intro u i g h
  have hslice := payload_eq_slice h
  have hlt := payloadSum_lt (uenc u)
  rw [payloadSum_uenc] at hslice hlt
  exact ⟨hslice, contBit_iff_of_completeGroup (completeGroup_uenc u) h, hlt⟩

/-! ### `FILL` and `WAIT` (30_encoding.md R83) -/

/-- The lines that write a sequence into `IBUF` of an idle block, one step each. -/
theorem writeLines_run (bs : List Byte) (a : Nat) (s : State) (rest : List HostAction)
    (hp : s.phase = .idle) (hc : a + bs.length ≤ Config.ibufCap)
    (hs : s.agenda = program (writeLines a bs ++ rest)) :
    run bs.length s =
      .next { s with agenda := program rest, ibuf := Memory.writeBytes s.ibuf a bs } := by
  induction bs generalizing a s with
  | nil =>
    have hrest : program rest = s.agenda := hs.symm
    rw [hrest]
    rfl
  | cons b bs ih =>
    rw [List.length_cons] at hc ⊢
    have hhead : s.agenda = .host (.wrIbuf a b) :: program (writeLines (a + 1) bs ++ rest) := hs
    have hstep : step s = .next { s with
        agenda := program (writeLines (a + 1) bs ++ rest), ibuf := Memory.write s.ibuf a b } := by
      rw [step_of_host hhead (by simp), hostAct, writeIbufByHost_of_lt (by omega),
        if_pos (by exact hp)]
    rw [run_succ_of_next hstep]
    exact ih (a + 1) _ hp (by omega) rfl

/-- Settles O54: the byte lines write the sequence from address 0 on, and the last line sets its
length. -/
theorem fillPlacesTheInput : Obligations.FillPlacesTheInput := by
  unfold Obligations.FillPlacesTheInput
  intro s bs hp hc ha
  have hlen : (BitVec.ofNat 32 bs.length).toNat = bs.length := by
    have := Config.ibufCap_lt
    rw [BitVec.toNat_ofNat, Nat.mod_eq_of_lt (by omega)]
  have hbytes := writeLines_run bs 0 s _ hp (by omega) ha
  refine ⟨{ s with
    agenda := [], ilen := BitVec.ofNat 32 bs.length, ibuf := Memory.writeBytes s.ibuf 0 bs },
    ?_, ⟨hlen.trans_le hc, ?_⟩, hlen, fun a hle => ?_, rfl⟩
  · rw [run_add hbytes]
    apply run_one_of_next
    rw [step_of_host rfl (by simp), hostAct, writeIlen_of_legal (hlen.trans_le hc),
      if_pos (by exact hp)]
    rfl
  · simp only [hlen, Memory.readBytes?_writeBytes]
  · rw [Memory.read?_writeBytes, if_neg (by omega)]

/-- Settles O27: while the core is busy the step is the core's, which commutes with changing the
agenda. -/
theorem waitLastsWhileBusy : Obligations.WaitLastsWhileBusy := by
  unfold Obligations.WaitLastsWhileBusy
  intro s rest ha
  refine ⟨step_of_wait_idle ha, fun hp t hs => ?_⟩
  rw [step_of_wait_busy ha hp] at hs
  refine ⟨coreStep_agenda hs, ?_⟩
  rw [step_of_nil rfl, coreStep_withAgenda, hs]
  rfl

/-! ### Running an instruction from its byte (30_encoding.md R80, R84) -/

theorem writeCmd_of_ok {c : Byte} {i : Instr} (h : decodeCommand c = .ok i) (s : State) :
    writeCmd c s = exec i s := by simp only [writeCmd, h]

/-- A byte that is no command, written while idle, is the common start with `IllegalCommand`. -/
theorem writeCmd_of_error {c : Byte} {e : Reject} (h : decodeCommand c = .error e) {s : State}
    (hp : s.phase = .idle) :
    writeCmd c s = .next (raise .illegalCommand 0#32 (initCommand c s)) := by
  simp only [writeCmd, h, illegalCommand, startCommand_of_idle hp]

/-- Settles O16: the step is the `CMD` write of a byte that does not decode. -/
theorem illegalByteIsRecordedAndRunsNothing :
    Obligations.IllegalByteIsRecordedAndRunsNothing := by
  unfold Obligations.IllegalByteIsRecordedAndRunsNothing
  intro s c rest hp ha hc
  obtain ⟨e, he⟩ := decodeCommand_of_illegal hc
  rw [step_of_wrCmd ha, writeCmd_of_error he (by exact hp)]
  simp only [raise, initCommand, hp]

theorem step_placeCommand {c : Byte} {i : Instr} (h : decodeCommand c = .ok i) (s : State) :
    step (placeCommand c s) = exec i { placeCommand c s with agenda := s.agenda } := by
  rw [step_of_wrCmd rfl, writeCmd_of_ok h]

/-- `placeVarintByte` leaves a scanning operation in `OP`. -/
theorem exists_scanMode_placeVarintByte (b : Byte) (s : State) :
    ∃ m, scanMode (placeVarintByte b s).op = some m := by
  by_cases h : (scanMode s.op).isSome
  · simpa [placeVarintByte, h] using Option.isSome_iff_exists.1 h
  · exact ⟨.lengths, by simp only [placeVarintByte, if_neg h]; rfl⟩

/-- `placeVarintByte` leaves an input of at least one byte. -/
theorem toNat_ilen_placeVarintByte_pos (b : Byte) (s : State) :
    0 < (placeVarintByte b s).ilen.toNat := by
  by_cases h : s.ilen = 0#32
  · simp [placeVarintByte, h]
  · have hne : s.ilen.toNat ≠ 0 := BitVec.toNat_ne_iff_ne.2 h
    simpa [placeVarintByte, h] using Nat.pos_of_ne_zero hne

theorem step_placeVarintByte (b : Byte) (s : State) :
    step (placeVarintByte b s) =
      exec (decodeVarintByte b) { placeVarintByte b s with agenda := s.agenda } := by
  obtain ⟨m, hm⟩ := exists_scanMode_placeVarintByte b s
  have hcap := Config.ten_le_ibufCap
  rw [step_of_core rfl, coreStep_of_scan rfl]
  exact scanStep_of_read rfl hm (toNat_ilen_placeVarintByte_pos b s)
    (show 0 < Config.ibufCap by omega) (Memory.read?_write_same s.ibuf 0 b)

/-- The instruction of a table word's byte: the command if it is one, else the varint byte (log
entry 4). -/
def tableInstr (b : Byte) : Instr :=
  match decodeCommand b with
  | .ok i => i
  | .error _ => decodeVarintByte b

theorem decodeTableWord_of_nil {nbits w : Nat} (h : tableBytes nbits w = []) :
    decodeTableWord nbits w = none := by simp [decodeTableWord, h, decode]

theorem decodeTableWord_of_cons {nbits w : Nat} {b : Byte} {bs : List Byte}
    (h : tableBytes nbits w = b :: bs) : decodeTableWord nbits w = some (tableInstr b) := by
  cases hc : decodeCommand b <;> simp [decodeTableWord, h, decode, tableInstr, hc]

/-- A byte is placed in the format it is read in. -/
theorem step_placeByte (b : Byte) (s : State) :
    step (placeByte b s) = exec (tableInstr b) { placeByte b s with agenda := s.agenda } := by
  cases hc : decodeCommand b with
  | ok i =>
    simp only [placeByte, tableInstr, hc]
    exact step_placeCommand hc s
  | error e =>
    simp only [placeByte, tableInstr, hc]
    exact step_placeVarintByte b s

/-- Settles O20: the word is read from its first byte, and that byte is the one placed. -/
theorem placedWordRunsNext : Obligations.PlacedWordRunsNext := by
  unfold Obligations.PlacedWordRunsNext
  intro s nbits w i h
  cases hbytes : tableBytes nbits w with
  | nil => simp [decodeTableWord_of_nil hbytes] at h
  | cons b bs =>
    obtain rfl : tableInstr b = i := by simpa [decodeTableWord_of_cons hbytes] using h
    simp only [State.withFetchWord, hbytes]
    exact step_placeByte b s

end Sys2Proof.Machine

/-! The encoder (40_uenc.md): how long `uenc(v)` is and that `udec` undoes it (R92), and what the two
single encodings leave in the block (R91, 42_zigzag.md R116). -/

namespace Sys2Proof.Machine

/-! ### `uenc` (R92) -/

theorem length_uenc_of_small {v : Word} (h : v.toNat < 2 ^ 7) : (uenc v).length = 1 :=
  uencTurns_length (n := 0) (k := 9) (by omega) h (.inl rfl)

/-- A value of `n` seven-bit slices, not fewer, takes `n` bytes. -/
theorem length_uenc_of_slices {v : Word} {n : Nat} (hn : 2 ≤ n)
    (hlow : 2 ^ (7 * (n - 1)) ≤ v.toNat) (hhigh : v.toNat < 2 ^ (7 * n)) :
    (uenc v).length = n := by
  have hfits : 7 * (n - 1) < 64 := (Nat.pow_lt_pow_iff_right (by omega)).1 (hlow.trans_lt v.isLt)
  obtain ⟨k, rfl⟩ : ∃ k, n = k + 1 := ⟨n - 1, by omega⟩
  exact uencTurns_length (n := k) (k := 9) (by omega) hhigh (.inr hlow)

/-- An encoding has a final byte. -/
theorem length_uenc_pos (v : Word) : 1 ≤ (uenc v).length := by
  have hne : uenc v ≠ [] := fun h => by
    have hc := completeGroup_uenc v
    simp [h, completeGroup] at hc
  exact List.length_pos_iff.2 hne

/-- The payload sum of `uenc(v)` is `v`, which fits 64 bits, so decoding loses nothing. -/
theorem udec_uenc (v : Word) : udec (uenc v) = v := by
  apply BitVec.eq_of_toNat_eq
  rw [toNat_udec, payloadSum_uenc, Nat.mod_eq_of_lt v.isLt]

theorem uenc_injective : Function.Injective uenc := Function.LeftInverse.injective udec_uenc

/-- Settles O4: the lengths are the encoder's turns, and `udec` is a left inverse of `uenc`. -/
theorem uencIsMinimalWellFormedAndInvertible :
    Obligations.UencIsMinimalWellFormedAndInvertible := by
  unfold Obligations.UencIsMinimalWellFormedAndInvertible
  exact ⟨fun v => ⟨length_uenc_pos v, length_uenc_le v⟩, fun _ => length_uenc_of_small,
    fun _ _ => length_uenc_of_slices, rfl, fun _ => getLast?_uenc_ne_zero, completeGroup_uenc,
    udec_uenc, fun _ _ h => uenc_injective h⟩

/-! ### What the operation rule of an encoding leaves (40_uenc.md R91, 42_zigzag.md R116) -/

/-- `OLEN` holds the length of the output, which is at most ten bytes. -/
theorem toNat_olen_encodeEffect (c : Byte) (signed : Bool) (s : State) :
    (encodeEffect c signed s).olen.toNat = (encodeOutput signed s.val).length := by
  have hlen : (encodeOutput signed s.val).length ≤ 10 := length_uenc_le _
  change (BitVec.ofNat 32 (encodeOutput signed s.val).length).toNat = _
  rw [BitVec.toNat_ofNat, Nat.mod_eq_of_lt (by omega)]

theorem readBytes?_encodeEffect (c : Byte) (signed : Bool) (s : State) :
    Memory.readBytes? (encodeEffect c signed s).obuf 0 (encodeEffect c signed s).olen.toNat =
      some (encodeOutput signed s.val) := by
  rw [toNat_olen_encodeEffect]
  exact Memory.readBytes?_writeBytes s.obuf 0 _

/-- `OBUF` is unchanged at and beyond `OLEN`. -/
theorem read?_encodeEffect_of_ge {c : Byte} {signed : Bool} {s : State} {a : Nat}
    (h : (encodeEffect c signed s).olen.toNat ≤ a) :
    Memory.read? (encodeEffect c signed s).obuf a = Memory.read? s.obuf a := by
  rw [toNat_olen_encodeEffect] at h
  change Memory.read? (Memory.writeBytes s.obuf 0 (encodeOutput signed s.val)) a = _
  rw [Memory.read?_writeBytes, if_neg (by omega)]

/-! ### The run of `UENC` and `SENC` -/

/-- From the dispatch line of a single encoding the core emits the whole group and reaches the state
of the operation rule, hidden registers included (45_sequencer.md R175, R176). -/
theorem beginEncode_runsTo {c : Byte} (signed : Bool) {s : State} (hp : s.phase = .idle)
    (ha : s.agenda = []) (hop : phaseAfterGroup (c.extractLsb' 0 4) = some .idle) :
    RunsTo (beginEncode signed (initCommand c s)) (encodeSteps signed s)
      (encodeEffect c signed s) := by
  have hlen : (encodeOutput signed s.val).length ≤ 10 := length_uenc_le _
  have hroom : 0 + (encodeOutput signed s.val).length ≤ Config.obufCap := by
    have := Config.eighty_le_obufCap
    omega
  have hrun := emit_run 9 (beginEncode signed (initCommand c s)) .idle ha rfl hop
    (by omega) hroom
  have hend : { encodeEffect c signed s with
      phase := .idle, olen := 0#32 + BitVec.ofNat 32 (encodeOutput signed s.val).length } =
      encodeEffect c signed s := by
    rw [BitVec.zero_add, ← hp]
    rfl
  rw [← hend]
  exact hrun.runsTo rfl

/-- A command of the encoding kind runs to the state of its operation rule. -/
theorem exec_encoding_runsTo {i : Instr} {signed : Bool} (hi : formatOf i = .cmd)
    (hd : dispatchOf i = beginEncode signed)
    (hop : phaseAfterGroup ((encodeByte i).extractLsb' 0 4) = some .idle) {s : State}
    (hp : s.phase = .idle) (ha : s.agenda = []) :
    ∃ t, exec i s = .next t ∧
      RunsTo t (encodeSteps signed s) (encodeEffect (encodeByte i) signed s) := by
  refine ⟨_, exec_of_command hi s, ?_⟩
  rw [startCommand_of_idle hp, hd]
  exact beginEncode_runsTo signed hp ha hop

/-- What such a command writes and what it leaves, read off its operation rule. -/
theorem exec_encoding_writesGroup {i : Instr} {signed : Bool} (hi : formatOf i = .cmd)
    (hd : dispatchOf i = beginEncode signed)
    (hop : phaseAfterGroup ((encodeByte i).extractLsb' 0 4) = some .idle) {s : State}
    (hp : s.phase = .idle) (ha : s.agenda = []) :
    ∃ t u, exec i s = .next t ∧ RunsTo t (encodeOutput signed s.val).length u ∧
      Memory.readBytes? u.obuf 0 u.olen.toNat = some (encodeOutput signed s.val) ∧
      u.olen.toNat = (encodeOutput signed s.val).length ∧ u.err = .ok ∧ u.errpos = 0#32 ∧
      u.val = s.val ∧ u.ilen = s.ilen ∧ u.ibuf = s.ibuf ∧
      ∀ a, u.olen.toNat ≤ a → Memory.read? u.obuf a = Memory.read? s.obuf a := by
  obtain ⟨t, hexec, hrun⟩ := exec_encoding_runsTo hi hd hop hp ha
  exact ⟨t, _, hexec, hrun, readBytes?_encodeEffect _ _ _, toNat_olen_encodeEffect _ _ _,
    rfl, rfl, rfl, rfl, rfl, fun _ => read?_encodeEffect_of_ge⟩

/-- Settles O42: both are encodings, `UENC` of `VAL` and `SENC` of `zz(VAL)`. -/
theorem uencAndSencWriteTheGroup : Obligations.UencAndSencWriteTheGroup := by
  unfold Obligations.UencAndSencWriteTheGroup
  intro s hp ha
  exact ⟨exec_encoding_writesGroup (i := .uenc) (signed := false) rfl rfl rfl hp ha,
    exec_encoding_writesGroup (i := .senc) (signed := true) rfl rfl rfl hp ha⟩

end Sys2Proof.Machine

/-! The decoder (41_udec.md): `udec` looks at payloads alone (R104, R105), and what the two single
decodings leave in the block in all three cases (R101, 42_zigzag.md R117). -/

namespace Sys2Proof.Machine

/-! ### `udec` (41_udec.md R104, R105) -/

/-- Two sequences with the same payloads decode to the same value, whatever their continuation
bits. -/
theorem udec_congr {s t : List Byte} (h : s.map payload = t.map payload) : udec s = udec t := by
  induction s generalizing t with
  | nil =>
    obtain rfl : t = [] := by simpa using h.symm
    rfl
  | cons b s ih =>
    obtain ⟨c, t, rfl, hc, ht⟩ := List.map_eq_cons_iff.1 h.symm
    rw [udec_cons, udec_cons, hc, ih ht.symm]

/-- At bit 63 only bit 0 of a payload is left; the six bits above it are lost (30_encoding.md R81). -/
theorem shl64_payload_63 (b : Byte) :
    shl64 (zext64 (payload b)) 63 = if b.getLsbD 0 then 0x8000000000000000#64 else 0#64 := by
  have hbit : b.getLsbD 0 = true ↔ (payload b).toNat % 2 = 1 := by
    rw [← decide_eq_true_iff (p := (payload b).toNat % 2 = 1), ← Nat.testBit_zero,
      BitVec.testBit_toNat]
    simp [payload]
  apply BitVec.eq_of_toNat_eq
  rw [toNat_shl64, toNat_zext64]
  simp only [hbit]
  split
  · rw [BitVec.toNat_ofNat]
    omega
  · rw [BitVec.toNat_ofNat]
    omega

theorem udec_snoc_tenth {s : List Byte} (h : s.length = 9) (b : Byte) :
    udec (s ++ [b]) = udec s ||| (if b.getLsbD 0 then 0x8000000000000000#64 else 0#64) := by
  rw [udec_snoc, h, shl64_payload_63]

/-- A byte of payload 0 adds nothing. -/
theorem udec_snoc_of_payload_zero (s : List Byte) {b : Byte} (h : payload b = 0#7) :
    udec (s ++ [b]) = udec s := by
  simp [udec_snoc, h, zext64, shl64]

/-- Settles O7: only the payloads enter `udec`, the tenth one at bit 63. -/
theorem udecReadsPayloadsOnly : Obligations.UdecReadsPayloadsOnly := by
  unfold Obligations.UdecReadsPayloadsOnly
  exact ⟨fun _ _ _ => udec_congr, fun _ b h => udec_snoc_tenth h b,
    fun s _ _ => udec_snoc_of_payload_zero s, rfl⟩

/-! ### What the operation rule of a decoding leaves (41_udec.md R101, 42_zigzag.md R117) -/

theorem decodeEffect_of_empty {s : State} (h : s.ilen.toNat = 0) (c : Byte) (signed : Bool)
    (input : List Byte) :
    decodeEffect c signed input s = raise .invalidInput 0#32 (initCommand c s) := if_pos h

theorem decodeEffect_of_long {s : State} (h : 10 < s.ilen.toNat) (c : Byte) (signed : Bool)
    (input : List Byte) :
    decodeEffect c signed input s = raise .overflow 10#32
      { initCommand c s with pos := 10#32, cnt := 10#4, acc := udec (input.take 10) } := by
  rw [decodeEffect, if_neg (by omega), if_pos h]

theorem decodeEffect_of_group {s : State} (h1 : 1 ≤ s.ilen.toNat) (h10 : s.ilen.toNat ≤ 10)
    (c : Byte) (signed : Bool) (input : List Byte) :
    decodeEffect c signed input s = { initCommand c s with
      val := fromWire signed (udec input), pos := s.ilen, cnt := s.ilen.setWidth 4
      acc := udec input } := by
  rw [decodeEffect, if_neg (by omega), if_neg (by omega)]

/-- In every case there is no output and the input stays. -/
theorem decodeEffect_frame (c : Byte) (signed : Bool) (input : List Byte) (s : State) :
    let u := decodeEffect c signed input s
    u.olen = 0#32 ∧ u.obuf = s.obuf ∧ u.ilen = s.ilen ∧ u.ibuf = s.ibuf := by
  unfold decodeEffect
  split_ifs <;> exact ⟨rfl, rfl, rfl, rfl⟩

theorem decodeSteps_of_empty {s : State} (h : s.ilen.toNat = 0) : decodeSteps s = 0 := if_pos h

theorem decodeSteps_of_long {s : State} (h : 10 < s.ilen.toNat) : decodeSteps s = 11 := by
  rw [decodeSteps, if_neg (by omega), if_pos h]

theorem decodeSteps_of_group {s : State} (h1 : 1 ≤ s.ilen.toNat) (h10 : s.ilen.toNat ≤ 10) :
    decodeSteps s = s.ilen.toNat + 1 := by
  rw [decodeSteps, if_neg (by omega), if_neg (by omega)]

/-! ### The run of `UDEC` and `SDEC` -/

/-- From the dispatch line of a single decoding the core reaches the state of the operation rule,
hidden registers included: at once on an empty input, at the eleventh byte of a long one, else at
the end of the group (45_sequencer.md R175, R176). -/
theorem beginDecode_runsTo {c : Byte} {signed : Bool} {s : State} {input : List Byte}
    (hp : s.phase = .idle) (ha : s.agenda = []) (hin : InputIs s input)
    (hop : scanMode (c.extractLsb' 0 4) = some (.single signed)) :
    RunsTo (beginDecode (initCommand c s)) (decodeSteps s) (decodeEffect c signed input s) := by
  have hlen := hin.toNat_ilen
  obtain ⟨hz, hd⟩ | ⟨hne, hd⟩ := beginDecode_cases (initCommand c s)
  · have hz : s.ilen.toNat = 0 := congrArg BitVec.toNat hz
    rw [hd, decodeSteps_of_empty hz, decodeEffect_of_empty hz]
    exact RunsTo.zero rfl
  · have h1 : 1 ≤ s.ilen.toNat := Nat.pos_of_ne_zero fun h => hne (BitVec.eq_of_toNat_eq h)
    obtain ⟨hgroup, hlong⟩ := single_run input [] { initCommand c s with phase := .scan } signed ha
      rfl hop hin.1 (by simpa using hlen.symm) (by simpa [← hlen] using hin.2) rfl rfl (by simp) rfl
    rw [hd]
    by_cases h10 : s.ilen.toNat ≤ 10
    · rw [decodeSteps_of_group h1 h10, decodeEffect_of_group h1 h10, hlen]
      have hrun := hgroup h10
      rw [← hp] at hrun
      exact hrun
    · rw [decodeSteps_of_long (by omega), decodeEffect_of_long (by omega)]
      exact hlong (by simpa using h10)

/-- A command of the decoding kind runs to the state of its operation rule. -/
theorem exec_decoding_runsTo {i : Instr} {signed : Bool} (hi : formatOf i = .cmd)
    (hd : dispatchOf i = beginDecode)
    (hop : scanMode ((encodeByte i).extractLsb' 0 4) = some (.single signed)) {s : State}
    {input : List Byte} (hp : s.phase = .idle) (ha : s.agenda = []) (hin : InputIs s input) :
    ∃ t, exec i s = .next t ∧
      RunsTo t (decodeSteps s) (decodeEffect (encodeByte i) signed input s) := by
  refine ⟨_, exec_of_command hi s, ?_⟩
  rw [startCommand_of_idle hp, hd]
  exact beginDecode_runsTo hp ha hin hop

/-- Settles O43: both run to their operation rule, which is read off in each of the three cases. -/
theorem udecAndSdecDecodeTheGroup : Obligations.UdecAndSdecDecodeTheGroup := by
  unfold Obligations.UdecAndSdecDecodeTheGroup
  intro s input hp ha hin
  obtain ⟨t, hexec, hrun⟩ :=
    exec_decoding_runsTo (i := .udec) (signed := false) rfl rfl rfl hp ha hin
  obtain ⟨t', hexec', hrun'⟩ :=
    exec_decoding_runsTo (i := .sdec) (signed := true) rfl rfl rfl hp ha hin
  obtain ⟨holen, hobuf, hilen, hibuf⟩ := decodeEffect_frame (encodeByte .udec) false input s
  refine ⟨t, _, t', _, hexec, hexec', fun h => ?_, fun h => ?_, fun h1 h10 => ?_,
    holen, hobuf, hilen, hibuf, decodeEffect_frame (encodeByte .sdec) true input s⟩
  · rw [decodeSteps_of_empty h] at hrun hrun'
    refine ⟨hrun, hrun', ?_⟩
    simp [decodeEffect_of_empty h]
  · rw [decodeSteps_of_long h] at hrun hrun'
    refine ⟨hrun, hrun', ?_⟩
    simp [decodeEffect_of_long h]
  · rw [decodeSteps_of_group h1 h10] at hrun hrun'
    refine ⟨hrun, hrun', ?_⟩
    simp [decodeEffect_of_group h1 h10, fromWire]

end Sys2Proof.Machine

/-! The zigzag mapper (42_zigzag.md): the two maps in closed form and as inverses of each other
(R111, R113), the commands `ZZE` and `ZZD` (R114, R115), `COPY` (30_encoding.md R83), and the signed
round trip (R118). -/

namespace Sys2Proof.Machine

/-! ### The two maps as numbers (R111 (c), R113 (c)) -/

/-- The sign mask of R110: all ones for a negative value, else zero (00_scope.md R13). -/
theorem asr64_sign (v : Word) :
    asr64 v 63 = if v.toNat < 2 ^ 63 then 0#64 else BitVec.allOnes 64 := by
  apply BitVec.eq_of_toInt_eq
  have hlt := v.isLt
  rw [asr64, BitVec.toInt_sshiftRight, Int.shiftRight_eq_div_pow, BitVec.toInt_eq_toNat_cond]
  by_cases h : v.toNat < 2 ^ 63
  · rw [if_pos h, if_pos (by omega), BitVec.toInt_zero]
    omega
  · rw [if_neg h, if_neg (by omega), BitVec.toInt_allOnes]
    omega

/-- The parity mask of R112: all ones for an odd value, else zero. -/
theorem neg64_parity (u : Word) :
    neg64 (u &&& 1#64) = if u.toNat % 2 = 0 then 0#64 else BitVec.allOnes 64 := by
  have hbit : (u &&& 1#64).toNat = u.toNat % 2 := by simp [Nat.and_one_is_mod]
  apply BitVec.eq_of_toNat_eq
  rw [neg64, BitVec.toNat_neg, hbit]
  obtain h | h := Nat.mod_two_eq_zero_or_one u.toNat <;> rw [h] <;> rfl

/-- A value that is not negative is doubled; of a negative one the doubled pattern is
complemented. -/
theorem toNat_zz (v : Word) :
    (zz v).toNat = if v.toNat < 2 ^ 63 then 2 * v.toNat else 2 ^ 65 - 1 - 2 * v.toNat := by
  have hlt := v.isLt
  rw [zz, asr64_sign]
  split
  · rw [BitVec.xor_zero, toNat_shl64]
    omega
  · rw [BitVec.xor_allOnes, BitVec.toNat_not, toNat_shl64]
    omega

/-- An even value is halved; of an odd one the halved pattern is complemented. -/
theorem toNat_unzz (u : Word) :
    (unzz u).toNat = if u.toNat % 2 = 0 then u.toNat / 2 else 2 ^ 64 - 1 - u.toNat / 2 := by
  rw [unzz, neg64_parity]
  split
  · rw [BitVec.xor_zero, toNat_lsr64, pow_one]
  · rw [BitVec.xor_allOnes, BitVec.toNat_not, toNat_lsr64, pow_one]

theorem unzz_zz (v : Word) : unzz (zz v) = v := by
  have hlt := v.isLt
  apply BitVec.eq_of_toNat_eq
  rw [toNat_unzz, toNat_zz]
  split_ifs <;> omega

theorem zz_unzz (u : Word) : zz (unzz u) = u := by
  have hlt := u.isLt
  apply BitVec.eq_of_toNat_eq
  rw [toNat_zz, toNat_unzz]
  split_ifs <;> omega

/-- The closed form of `zz` over the signed reading (R111 (c)). -/
theorem toNat_zz_of_toInt (v : Word) :
    ((zz v).toNat : Int) = if 0 ≤ v.toInt then 2 * v.toInt else -2 * v.toInt - 1 := by
  have hlt := v.isLt
  rw [toNat_zz, BitVec.toInt_eq_toNat_cond]
  split_ifs <;> omega

/-- The closed form of `unzz` (R113 (c)). -/
theorem toInt_unzz (u : Word) : (unzz u).toInt =
    if u.toNat % 2 = 0 then ((u.toNat / 2 : Nat) : Int)
    else -(((u.toNat + 1) / 2 : Nat) : Int) := by
  have hlt := u.isLt
  rw [BitVec.toInt_eq_toNat_cond, toNat_unzz]
  split_ifs <;> omega

/-- Settles O8: `unzz` is the two-sided inverse that makes `zz` a bijection. -/
theorem zigzagMapsInClosedForm : Obligations.ZigzagMapsInClosedForm := by
  unfold Obligations.ZigzagMapsInClosedForm
  exact ⟨fun _ _ h => Function.LeftInverse.injective unzz_zz h, fun u => ⟨unzz u, zz_unzz u⟩,
    toNat_zz_of_toInt, by decide⟩

/-- Settles O9: the inverse laws and the closed form; the named values are evaluated. -/
theorem unzigzagInvertsZigzag : Obligations.UnzigzagInvertsZigzag := by
  unfold Obligations.UnzigzagInvertsZigzag
  exact ⟨unzz_zz, zz_unzz, toInt_unzz, by decide⟩

/-! ### `ZZE` and `ZZD` (R114, R115) -/

/-- On an idle core a command is the common initialisation and its dispatch line (45_sequencer.md
R161, R162). -/
theorem exec_command_of_idle {i : Instr} (hi : formatOf i = .cmd) {s : State}
    (hp : s.phase = .idle) : exec i s = .next (dispatchOf i (initCommand (encodeByte i) s)) := by
  rw [exec_of_command hi, startCommand_of_idle hp]

/-- Settles O18: the start answers the state of the operation rule, which is still idle, so the run
takes no step. -/
theorem zigzagCommandsCompleteAtOnce : Obligations.ZigzagCommandsCompleteAtOnce := by
  unfold Obligations.ZigzagCommandsCompleteAtOnce
  intro s hp
  exact ⟨⟨zigzagEffect s, exec_command_of_idle rfl hp, RunsTo.zero hp,
      rfl, rfl, rfl, rfl, rfl, rfl, rfl⟩,
    ⟨unzigzagEffect s, exec_command_of_idle rfl hp, RunsTo.zero hp,
      rfl, rfl, rfl, rfl, rfl, rfl, rfl⟩⟩

/-! ### A command and `WAIT` in a host program (30_encoding.md R83) -/

/-- A dispatch line neither reads nor writes the agenda. -/
theorem dispatchOf_withAgenda (i : Instr) (s : State) (l : List Event) :
    dispatchOf i { s with agenda := l } = { dispatchOf i s with agenda := l } := by
  cases i with
  | udec | sdec => by_cases hz : s.ilen = 0#32 <;> simp [dispatchOf, beginDecode, raise, hz]
  | uencs | sencs =>
    by_cases hz : s.ilen.toNat % 8 = 0 <;> simp [dispatchOf, beginBatch, raise, hz]
  | _ => rfl

/-- A command start commutes with changing the agenda. -/
theorem exec_withAgenda {i : Instr} (hi : formatOf i = .cmd) (s : State) (l : List Event) :
    exec i { s with agenda := l } = Result.withAgenda l (exec i s) := by
  rw [exec_of_command hi, exec_of_command hi]
  by_cases hp : s.phase = .idle
  · rw [startCommand_of_idle hp, startCommand_of_idle (by exact hp)]
    exact congrArg _ (dispatchOf_withAgenda i (initCommand (encodeByte i) s) l)
  · rw [startCommand_of_busy hp, startCommand_of_busy (by exact hp)]
    rfl

/-- A host that writes a command and waits finds the block where the command's run ends. -/
theorem command_wait_run {c : Byte} {i : Instr} (hc : decodeCommand c = .ok i) {s t u : State}
    {n : Nat} {rest : List Event} (ha : s.agenda = .host (.wrCmd c) :: .host .wait :: rest)
    (hexec : exec i { s with agenda := [] } = .next t) (hrun : RunsTo t n u) :
    run (n + 1 + 1) s = .next { u with agenda := rest } := by
  have hswap := exec_withAgenda (formatOf_of_decodeCommand hc) { s with agenda := [] }
  rw [hexec] at hswap
  have hempty : t = { t with agenda := [] } :=
    Host.Outcome.next.inj (hexec.symm.trans (hswap []))
  have hstep : step s = .next { t with agenda := .host .wait :: rest } := by
    rw [step_of_wrCmd ha, writeCmd_of_ok hc]
    exact hswap _
  rw [run_succ_of_next hstep]
  exact wait_run n t u rest (congrArg State.agenda hempty) hrun

/-! ### `COPY` (30_encoding.md R83) -/

/-- One byte of `COPY`: a byte of the output is read and written to the same address of `IBUF`. -/
theorem copyByte_run {s : State} {a : Nat} {b : Byte} {rest : List Event} (hp : s.phase = .idle)
    (hc : a < Config.ibufCap) (hl : a < s.olen.toNat) (hb : Memory.read? s.obuf a = some b)
    (hs : s.agenda = .host (.rdObuf a) :: .host (.wrIbuf a b) :: rest) :
    run 2 s = .next { s with
      agenda := rest, ibuf := Memory.write s.ibuf a b
      readings := ⟨.obuf a, b.setWidth 64⟩ :: s.readings } := by
  have hcap := Config.eight_ibufCap_le_obufCap
  have hread : step s = .next (recordReading (.obuf a) (b.setWidth 64)
      { s with agenda := .host (.wrIbuf a b) :: rest }) := by
    rw [step_of_host hs (by simp)]
    exact readObufByHost_of_shown (by omega) hp hl hb
  rw [run_succ_of_next hread]
  apply run_one_of_next
  rw [step_of_host rfl (by simp), hostAct, writeIbufByHost_of_lt hc, if_pos (by exact hp)]
  rfl

/-- The byte lines of `COPY` from an address on, two steps each. -/
theorem copyBytesLines_run (bs : List Byte) (a : Nat) (s : State) (rest : List HostAction)
    (hp : s.phase = .idle) (hc : a + bs.length ≤ Config.ibufCap)
    (hl : a + bs.length ≤ s.olen.toNat)
    (hb : Memory.readBytes? s.obuf a bs.length = some bs)
    (hs : s.agenda = program (copyBytesLines a bs ++ rest)) :
    ∃ r, run (2 * bs.length) s = .next { s with
      agenda := program rest, ibuf := Memory.writeBytes s.ibuf a bs, readings := r } := by
  induction bs generalizing a s with
  | nil =>
    have hrest : program rest = s.agenda := hs.symm
    rw [hrest]
    exact ⟨s.readings, rfl⟩
  | cons b bs ih =>
    rw [List.length_cons] at hc hl hb
    obtain ⟨hread, htail⟩ : Memory.read? s.obuf a = some b ∧
        Memory.readBytes? s.obuf (a + 1) bs.length = some bs := by
      simpa [Memory.readBytes?_succ_eq_some] using hb
    have hbyte := copyByte_run hp (by omega) (by omega) hread hs
    rw [List.length_cons, Nat.mul_succ, Nat.add_comm, run_add hbyte]
    exact ih (a + 1) _ hp (by omega) ((Nat.succ_add_eq_add_succ a _).trans_le hl) htail rfl

/-- `COPY` on an idle block leaves the output at the front of `IBUF` and its length in `ILEN`. -/
theorem copyLines_run {bs : List Byte} {s : State} {rest : List HostAction} (hp : s.phase = .idle)
    (hc : s.olen.toNat ≤ Config.ibufCap)
    (hb : Memory.readBytes? s.obuf 0 s.olen.toNat = some bs)
    (hs : s.agenda = program (copyLines bs ++ rest)) :
    ∃ r, run (1 + (2 * bs.length + 1)) s = .next { s with
      agenda := program rest, ilen := s.olen, ibuf := Memory.writeBytes s.ibuf 0 bs
      readings := r } := by
  have hlen := Memory.readBytes?_length hb
  have hlines : s.agenda =
      .host (.rd .olen) :: program (copyBytesLines 0 bs ++ (.wrIlen s.olen :: rest)) := by
    rw [hs, copyLines, hlen, BitVec.ofNat_toNat, BitVec.setWidth_eq, List.append_assoc]
    rfl
  have hrd : step s = .next (recordReading (.reg .olen) (registerValue .olen s)
      { s with agenda := program (copyBytesLines 0 bs ++ (.wrIlen s.olen :: rest)) }) := by
    rw [step_of_host hlines (by simp)]
    exact congrArg Host.Outcome.next (readRegister_of_shown (.inl hp))
  obtain ⟨r, hbytes⟩ := copyBytesLines_run bs 0
    (recordReading (.reg .olen) (registerValue .olen s) { s with agenda := program _ })
    (.wrIlen s.olen :: rest) hp (by omega) ((Nat.zero_add _).trans_le hlen.le)
    (by rw [hlen]; exact hb) rfl
  refine ⟨r, ?_⟩
  rw [run_add (run_one_of_next hrd), run_add hbytes]
  apply run_one_of_next
  rw [step_of_host rfl (by simp), hostAct, writeIlen_of_legal hc, if_pos (by exact hp)]
  rfl

/-! ### The signed round trip (R118) -/

theorem unzz_udec_uenc_zz (v : Word) : unzz (udec (uenc (zz v))) = v := by
  rw [udec_uenc, unzz_zz]

/-- `SENC`, then waiting, ends idle with the group of `zz(VAL)` as its output. -/
theorem senc_wait_run {s : State} (hp : s.phase = .idle)
    (ha : s.agenda = [.host (.wrCmd 0x01#8), .host .wait]) :
    ∃ n u, run n s = .next u ∧ u.phase = .idle ∧ u.agenda = [] ∧
      Memory.readBytes? u.obuf 0 u.olen.toNat = some (uenc (zz s.val)) := by
  obtain ⟨t, u, hexec, hrun, hout, -⟩ := exec_encoding_writesGroup (i := .senc)
    (signed := true) rfl rfl rfl (s := { s with agenda := [] }) hp rfl
  exact ⟨_, _, command_wait_run (i := .senc) rfl ha hexec hrun, hrun.2.1, rfl, hout⟩

/-- `SDEC` of one to ten bytes, then waiting, ends idle with their signed value in `VAL`. -/
theorem sdec_wait_run {s : State} {input : List Byte} (hp : s.phase = .idle)
    (ha : s.agenda = [.host (.wrCmd 0x03#8), .host .wait]) (hin : InputIs s input)
    (h1 : 1 ≤ s.ilen.toNat) (h10 : s.ilen.toNat ≤ 10) :
    ∃ n v, run n s = .next v ∧ v.phase = .idle ∧ v.agenda = [] ∧ v.err = .ok ∧
      v.val = unzz (udec input) := by
  obtain ⟨t, hexec, hrun⟩ := exec_decoding_runsTo (i := .sdec) (signed := true) rfl rfl rfl
    (s := { s with agenda := [] }) hp rfl hin
  rw [decodeEffect_of_group (by exact h1) (by exact h10)] at hrun
  exact ⟨_, _, command_wait_run (i := .sdec) rfl ha hexec hrun, hp, rfl, rfl, rfl⟩

/-- `COPY`, `SDEC` and waiting, on an idle block with an output of one to ten bytes, ends idle with
their signed value in `VAL`. -/
theorem copy_sdec_wait_run {s : State} {out : List Byte} (hp : s.phase = .idle)
    (hout : Memory.readBytes? s.obuf 0 s.olen.toNat = some out) (h1 : 1 ≤ s.olen.toNat)
    (h10 : s.olen.toNat ≤ 10) :
    ∃ k v, run k (s.withProgram (copyLines out ++ [.wrCmd 0x03#8, .wait])) = .next v ∧
      v.phase = .idle ∧ v.agenda = [] ∧ v.err = .ok ∧ v.val = unzz (udec out) := by
  have hfits := h10.trans Config.ten_le_ibufCap
  obtain ⟨r, hcopy⟩ := copyLines_run (rest := [.wrCmd 0x03#8, .wait])
    (s := s.withProgram (copyLines out ++ [.wrCmd 0x03#8, .wait])) hp hfits hout rfl
  have hinput : Memory.readBytes? (Memory.writeBytes s.ibuf 0 out) 0 s.olen.toNat = some out := by
    rw [← Memory.readBytes?_length hout]
    exact Memory.readBytes?_writeBytes s.ibuf 0 out
  obtain ⟨m, v, hsdec, hend⟩ := sdec_wait_run (s := { s with
    agenda := program [.wrCmd 0x03#8, .wait], ilen := s.olen
    ibuf := Memory.writeBytes s.ibuf 0 out, readings := r }) hp rfl ⟨hfits, hinput⟩ h1 h10
  exact ⟨_, v, (run_add hcopy).trans hsdec, hend⟩

/-- Settles O52: the output of `SENC` is the one group of `zz(VAL)`, which `COPY` and `SDEC` take
back. -/
theorem signedRoundTripOnTheBlock : Obligations.SignedRoundTripOnTheBlock := by
  unfold Obligations.SignedRoundTripOnTheBlock
  refine ⟨unzz_udec_uenc_zz, fun s hp ha => ?_⟩
  obtain ⟨n, u, hsenc, hidle, hagenda, hout⟩ := senc_wait_run hp ha
  have holen := Memory.readBytes?_length hout
  have hdec := copy_sdec_wait_run hidle hout ((length_uenc_pos _).trans_eq holen)
    (holen.symm.trans_le (length_uenc_le _))
  rw [unzz_udec_uenc_zz] at hdec
  exact ⟨n, u, _, hsenc, hidle, hagenda, hout, hdec⟩

end Sys2Proof.Machine

/-! The segmenter (43_segmenter.md): `seg` cuts without loss (R128), `scan` ends at the first error
(R126), and what a scanning command leaves in the block, for `SEG` the lengths of the accepted
groups (R127). -/

namespace Sys2Proof.Machine

/-! ### `seg`, one byte or one group at a time (R125) -/

/-- A last byte with `C = 1` goes to the open group at any point of the loop. -/
theorem segFrom_snoc_of_cont {b : Byte} (h : contBit b = true) (cur s : List Byte) :
    segFrom cur (s ++ [b]) = ((segFrom cur s).1, (segFrom cur s).2 ++ [b]) := by
  induction s generalizing cur with
  | nil => exact segFrom_of_cont h cur []
  | cons c s ih =>
    rw [List.cons_append]
    cases hc : contBit c with
    | true => rw [segFrom_of_cont hc, segFrom_of_cont hc, ih]
    | false => rw [segFrom_of_last hc, segFrom_of_last hc, ih]

/-- A last byte with `C = 0` closes the open group at any point of the loop. -/
theorem segFrom_snoc_of_last {b : Byte} (h : contBit b = false) (cur s : List Byte) :
    segFrom cur (s ++ [b]) = ((segFrom cur s).1 ++ [(segFrom cur s).2 ++ [b]], []) := by
  induction s generalizing cur with
  | nil => exact segFrom_of_last h cur []
  | cons c s ih =>
    rw [List.cons_append]
    cases hc : contBit c with
    | true => rw [segFrom_of_cont hc, segFrom_of_cont hc, ih]
    | false => rw [segFrom_of_last hc, segFrom_of_last hc, ih, List.cons_append]

theorem seg_nil : seg [] = ([], []) := rfl

theorem seg_snoc_of_cont {b : Byte} (h : contBit b = true) (s : List Byte) :
    seg (s ++ [b]) = ((seg s).1, (seg s).2 ++ [b]) := segFrom_snoc_of_cont h [] s

theorem seg_snoc_of_last {b : Byte} (h : contBit b = false) (s : List Byte) :
    seg (s ++ [b]) = ((seg s).1 ++ [(seg s).2 ++ [b]], []) := segFrom_snoc_of_last h [] s

/-- The loop takes the bytes of a complete group into one group with what is open before it. -/
theorem segFrom_append_of_completeGroup {g : List Byte} (h : completeGroup g = true)
    (cur rest : List Byte) :
    segFrom cur (g ++ rest) = ((cur ++ g) :: (seg rest).1, (seg rest).2) := by
  induction g generalizing cur with
  | nil => cases h
  | cons b g ih =>
    rw [List.cons_append]
    cases hb : contBit b with
    | true =>
      rw [completeGroup_cons_of_cont hb] at h
      rw [segFrom_of_cont hb, ih h, List.append_assoc, List.singleton_append]
    | false =>
      obtain rfl : g = [] := by simpa [completeGroup_cons_of_last hb] using h
      exact segFrom_of_last hb cur rest

/-- A complete group in front is cut off whole. -/
theorem seg_append_of_completeGroup {g : List Byte} (h : completeGroup g = true)
    (rest : List Byte) : seg (g ++ rest) = (g :: (seg rest).1, (seg rest).2) :=
  segFrom_append_of_completeGroup h [] rest

/-! ### The properties of `seg` (R128) -/

theorem seg_flatten (s : List Byte) : (seg s).1.flatten ++ (seg s).2 = s := segFrom_flatten [] s

/-- The residue is an open group. -/
theorem contBit_of_mem_residue (s : List Byte) : ∀ b ∈ (seg s).2, contBit b = true := by
  induction s using List.reverseRecOn with
  | nil => simp [seg_nil]
  | append_singleton s b ih =>
    cases hb : contBit b with
    | true =>
      rw [seg_snoc_of_cont hb]
      simpa [or_imp, forall_and, hb] using ih
    | false => simp [seg_snoc_of_last hb]

/-- What `seg` closes are complete groups: the open group and its final byte. -/
theorem completeGroup_of_mem_seg (s : List Byte) : ∀ g ∈ (seg s).1, completeGroup g = true := by
  induction s using List.reverseRecOn with
  | nil => simp [seg_nil]
  | append_singleton s b ih =>
    cases hb : contBit b with
    | true => rwa [seg_snoc_of_cont hb]
    | false =>
      have hclosed : completeGroup ((seg s).2 ++ [b]) = true := by
        rw [completeGroup_snoc, hb, List.all_eq_true.2 (contBit_of_mem_residue s)]
        rfl
      rw [seg_snoc_of_last hb]
      simpa [or_imp, forall_and, hclosed] using ih

/-- Nothing is left over exactly when there is no input or its last byte is final. -/
theorem residue_eq_nil_iff (s : List Byte) :
    (seg s).2 = [] ↔ s = [] ∨ ∃ b, s.getLast? = some b ∧ contBit b = false := by
  obtain rfl | ⟨l, b, rfl⟩ := s.eq_nil_or_concat'
  · simp [seg_nil]
  · cases hb : contBit b with
    | true => simp [seg_snoc_of_cont hb, hb]
    | false => simp [seg_snoc_of_last hb, hb]

/-- Each final byte closes one group. -/
theorem length_seg (s : List Byte) : (seg s).1.length = s.countP (fun b => !contBit b) := by
  induction s using List.reverseRecOn with
  | nil => rfl
  | append_singleton s b ih =>
    cases hb : contBit b with
    | true => simp [seg_snoc_of_cont hb, hb, ih]
    | false => simp [seg_snoc_of_last hb, hb, ih]

/-- Where the loop cuts depends on the continuation bits and on how much is open. -/
theorem lengths_segFrom_congr {s t cur cur' : List Byte} (h : s.map contBit = t.map contBit)
    (hcur : cur.length = cur'.length) :
    (segFrom cur s).1.map List.length = (segFrom cur' t).1.map List.length := by
  induction s generalizing t cur cur' with
  | nil =>
    obtain rfl : t = [] := by simpa using h.symm
    rfl
  | cons b s ih =>
    obtain ⟨c, t, rfl, hcb, ht⟩ := List.map_eq_cons_iff.1 h.symm
    cases hb : contBit b with
    | true =>
      rw [segFrom_of_cont hb, segFrom_of_cont (hcb.trans hb)]
      exact ih ht.symm (by simp [hcur])
    | false =>
      rw [segFrom_of_last hb, segFrom_of_last (hcb.trans hb)]
      simp [hcur, ih ht.symm rfl]

/-- A complete group of any length is one group of `seg`, though no operation takes it when it is
longer than ten bytes. -/
theorem seg_of_completeGroup {g : List Byte} (h : completeGroup g = true) : seg g = ([g], []) := by
  simpa [seg_nil] using seg_append_of_completeGroup h []

/-- Encodings one after the other are cut into these encodings. -/
theorem seg_flatMap_uenc (vs : List Word) : seg (vs.flatMap uenc) = (vs.map uenc, []) := by
  induction vs with
  | nil => rfl
  | cons v vs ih =>
    rw [List.flatMap_cons, seg_append_of_completeGroup (completeGroup_uenc v), ih, List.map_cons]

/-- Settles O10: each clause is a property above, (f) of the complete group of `n + 1` bytes. -/
theorem segCutsWithoutLoss : Obligations.SegCutsWithoutLoss := by
  unfold Obligations.SegCutsWithoutLoss
  refine ⟨seg_flatten, completeGroup_of_mem_seg,
    fun s => ⟨contBit_of_mem_residue s, residue_eq_nil_iff s⟩, length_seg,
    fun s t h => lengths_segFrom_congr h rfl, fun n => ?_, seg_flatMap_uenc⟩
  have hgroup : completeGroup (List.replicate n 0x80#8 ++ [0x00#8]) = true := by
    have hcont : contBit 0x80#8 = true := by decide
    have hlast : contBit 0x00#8 = false := by decide
    simp [completeGroup_snoc, hcont, hlast]
  rw [seg_of_completeGroup hgroup]

/-! ### Where `scan` stops (R126, 60_exceptions.md R192, R193, R195) -/

/-- What a scan finds at index `start`, where the groups it accepts end and `rest` is left: the end
of the input, an open group, or ten bytes of a group that is longer. The outcome and its position
follow. -/
inductive ScanStop (start : Nat) (rest : List Byte) : ErrCode → Nat → Prop
  | ok (hrest : rest = []) : ScanStop start rest .ok 0
  | truncated (hpos : 1 ≤ rest.length) (hlen : rest.length ≤ 10)
      (hcont : ∀ b ∈ rest, contBit b = true) : ScanStop start rest .truncatedGroup start
  | overflow (hlen : 10 < rest.length) (hcont : ∀ b ∈ rest.take 10, contBit b = true) :
      ScanStop start rest .overflow (start + 10)

/-- The bytes of a complete group before its last have `C = 1`. -/
theorem contBit_of_mem_take {g : List Byte} (hc : completeGroup g = true) {n : Nat}
    (hn : n < g.length) : ∀ b ∈ g.take n, contBit b = true := by
  intro b hb
  obtain ⟨i, hi, rfl⟩ := List.mem_take_iff_getElem.1 hb
  exact (contBit_iff_of_completeGroup hc (List.getElem?_eq_getElem _)).2 (by omega)

/-- The loop of `scan` accepts well-formed groups from the front of what is before it, and then
stops. -/
theorem scanGroups_stop {r : List Byte} (hr : ∀ b ∈ r, contBit b = true) {gs : List (List Byte)}
    (hgs : ∀ g ∈ gs, completeGroup g = true) (base : Nat) :
    (∀ g ∈ (scanGroups r gs base).1, wellFormedGroup g = true) ∧
    ∃ rest, gs.flatten ++ r = (scanGroups r gs base).1.flatten ++ rest ∧
      ScanStop (base + (scanGroups r gs base).1.flatten.length) rest
        (scanGroups r gs base).2.1 (scanGroups r gs base).2.2 := by
  induction gs generalizing base with
  | nil =>
    simp only [scanGroups]
    split_ifs with hlong hopen
    · exact ⟨by simp, r, rfl, .overflow hlong fun b hb => hr b (List.mem_of_mem_take hb)⟩
    · exact ⟨by simp, r, rfl, .truncated hopen (Nat.not_lt.1 hlong) hr⟩
    · exact ⟨by simp, r, rfl, .ok (List.eq_nil_of_length_eq_zero (by omega))⟩
  | cons g gs ih =>
    have hg : completeGroup g = true := hgs g (by simp)
    by_cases hlen : g.length ≤ 10
    · obtain ⟨hwf, rest, hrest, hstop⟩ := ih (fun g' h => hgs g' (by simp [h])) (base + g.length)
      have hgwf : wellFormedGroup g = true := by simp [wellFormedGroup, hg, hlen]
      rw [scanGroups_of_short hlen]
      refine ⟨List.forall_mem_cons.2 ⟨hgwf, hwf⟩, rest, ?_, ?_⟩
      · simp only [List.flatten_cons, List.append_assoc, hrest]
      · rw [List.flatten_cons, List.length_append, ← Nat.add_assoc]
        exact hstop
    · have hten : ((g :: gs).flatten ++ r).take 10 = g.take 10 := by
        rw [List.flatten_cons, List.append_assoc, List.take_append_of_le_length (by omega)]
      rw [scanGroups, if_neg hlen]
      refine ⟨by simp, (g :: gs).flatten ++ r, rfl, .overflow (by simp; omega) ?_⟩
      rw [hten]
      exact contBit_of_mem_take hg (by omega)

/-- A whole scan accepts well-formed groups from the front of its input, and then stops. -/
theorem scan_stop {s : List Byte} {gs : List (List Byte)} {e : ErrCode} {p : Nat}
    (h : scan s = (gs, e, p)) :
    (∀ g ∈ gs, wellFormedGroup g = true) ∧
      ∃ rest, s = gs.flatten ++ rest ∧ ScanStop gs.flatten.length rest e p := by
  have hstop := scanGroups_stop (contBit_of_mem_residue s) (completeGroup_of_mem_seg s) 0
  rw [← scan, h, seg_flatten, Nat.zero_add] at hstop
  exact hstop

/-- Settles O11: what is accepted and how the loop stops, in each of the three outcomes. -/
theorem scanEndsAtTheFirstError : Obligations.ScanEndsAtTheFirstError := by
  unfold Obligations.ScanEndsAtTheFirstError
  intro s gs e p h
  obtain ⟨hwf, rest, rfl, hstop⟩ := scan_stop h
  cases hstop with
  | ok hrest => exact ⟨hwf, ⟨rest, rfl, fun _ => ⟨hrest, rfl⟩, nofun, nofun⟩, .inl rfl⟩
  | truncated hpos hlen hcont =>
    exact ⟨hwf, ⟨rest, rfl, nofun, fun _ => ⟨rfl, hpos, hlen, hcont⟩, nofun⟩, .inr (.inl rfl)⟩
  | overflow hlen hcont =>
    refine ⟨hwf, ⟨rest, rfl, nofun, nofun, fun _ => ⟨rfl, ?_, hcont⟩⟩, .inr (.inr rfl)⟩
    rw [List.length_append]
    omega

/-! ### What the operation rule of a scanning command leaves (R127, 44_stream.md R140, R141) -/

section ScanAnswer

variable {input : List Byte} {gs : List (List Byte)} {e : ErrCode} {p : Nat}

/-- Every position is an index of the input or its length. -/
theorem scan_pos_le (h : scan input = (gs, e, p)) : p ≤ input.length := by
  obtain ⟨-, rest, rfl, hstop⟩ := scan_stop h
  rw [List.length_append]
  cases hstop <;> omega

/-- The output is at most eight bytes for each byte of the input (20_memory.md R58). -/
theorem length_scanOutput_le (h : scan input = (gs, e, p)) (m : ScanMode) :
    (gs.flatMap (groupOutput m)).length ≤ 8 * input.length := by
  have hgroups : gs.length ≤ input.length :=
    calc gs.length = (scan input).1.length := by rw [h]
      _ ≤ (seg input).1.length := length_scanGroups_le _ _ _
      _ ≤ input.length := length_segFrom_le [] input
  have hgroup : ∀ g, (groupOutput m g).length ≤ 8 := by
    intro g
    cases m <;> simp [groupOutput]
  have hout := length_flatMap_le gs (groupOutput m) 8 hgroup
  omega

/-- In every outcome `ERR` and `ERRPOS` are the outcome and the position of `scan`, the output is
that of the accepted groups, and the command's inputs stay. -/
theorem scanEffect_fields (h : scan input = (gs, e, p)) (c : Byte) (m : ScanMode) (s : State) :
    let u := scanEffect c m input s
    u.err = e ∧ u.errpos = BitVec.ofNat 32 p ∧
      u.obuf = Memory.writeBytes s.obuf 0 (gs.flatMap (groupOutput m)) ∧
      u.olen = BitVec.ofNat 32 (gs.flatMap (groupOutput m)).length ∧
      u.val = s.val ∧ u.ilen = s.ilen ∧ u.ibuf = s.ibuf := by
  obtain ⟨-, rest, -, hstop⟩ := scan_stop h
  cases hstop <;> simp [scanEffect, h, withOutput, initCommand, raise]

/-- A scan that overflows stops at the byte it does not read; any other reads all its input and
closes (70_reset_and_hazards.md R231). -/
theorem scanSteps_of_scan (h : scan input = (gs, e, p)) :
    scanSteps input = if e = .overflow then p + 1 else input.length + 1 := by
  cases e <;> simp [scanSteps, h]

end ScanAnswer

/-! ### The run of a scanning command -/

/-- A whole scan takes the steps of the operation rule. -/
theorem scanEndSteps_scan (input : List Byte) :
    scanEndSteps input.length 0 (scan input) = scanSteps input := by
  rcases h : scan input with ⟨gs, e, p⟩
  rw [scanSteps_of_scan h]
  cases e <;> rfl

/-- A whole scan ends in the state of the operation rule. -/
theorem scanEnd_scan {s : State} {input : List Byte} (hp : s.phase = .idle)
    (hin : InputIs s input) (c : Byte) (m : ScanMode) :
    scanEnd m (beginScan (initCommand c s)) input 0 (scan input) = scanEffect c m input s := by
  rcases h : scan input with ⟨gs, e, p⟩
  cases e <;>
    simp [scanEnd, scanEffect, h, withOutput, raise, beginScan, initCommand, hp, hin.toNat_ilen]

/-- From the dispatch line of a stream scan the core reaches the state of the operation rule, hidden
registers included (45_sequencer.md R175, R176). -/
theorem beginScan_runsTo {c : Byte} {m : ScanMode} (hns : ∀ signed, m ≠ .single signed) {s : State}
    {input : List Byte} (hp : s.phase = .idle) (ha : s.agenda = []) (hin : InputIs s input)
    (hop : scanMode (c.extractLsb' 0 4) = some m) :
    RunsTo (beginScan (initCommand c s)) (scanSteps input) (scanEffect c m input s) := by
  have hlen : (0#32 : Len).toNat + input.length = s.ilen.toNat := by simp [hin.toNat_ilen]
  have hread : Memory.readBytes? s.ibuf (0#32 : Len).toNat input.length = some input := by
    rw [← hin.toNat_ilen]
    exact hin.2
  rw [← scanEndSteps_scan, ← scanEnd_scan hp hin]
  exact scan_run m hns input [] (beginScan (initCommand c s)) 0 ha rfl hop hin.1 hlen hread rfl rfl
    (Nat.zero_le _) rfl (Nat.le_refl 0)

/-- A command of the scanning kind runs to the state of its operation rule. -/
theorem exec_scanning_runsTo {i : Instr} {m : ScanMode} (hi : formatOf i = .cmd)
    (hd : dispatchOf i = beginScan) (hns : ∀ signed, m ≠ .single signed)
    (hop : scanMode ((encodeByte i).extractLsb' 0 4) = some m) {s : State} {input : List Byte}
    (hp : s.phase = .idle) (ha : s.agenda = []) (hin : InputIs s input) :
    ∃ t, exec i s = .next t ∧
      RunsTo t (scanSteps input) (scanEffect (encodeByte i) m input s) := by
  refine ⟨_, exec_of_command hi s, ?_⟩
  rw [startCommand_of_idle hp, hd]
  exact beginScan_runsTo hns hp ha hin hop

/-- What such a command writes and what it leaves, read off its operation rule. -/
theorem exec_scanning_writesOutput {i : Instr} {m : ScanMode} (hi : formatOf i = .cmd)
    (hd : dispatchOf i = beginScan) (hns : ∀ signed, m ≠ .single signed)
    (hop : scanMode ((encodeByte i).extractLsb' 0 4) = some m) {s : State} {input : List Byte}
    {gs : List (List Byte)} {e : ErrCode} {p : Nat} (hp : s.phase = .idle) (ha : s.agenda = [])
    (hin : InputIs s input) (h : scan input = (gs, e, p)) :
    ∃ t u, exec i s = .next t ∧
      RunsTo t (if e = .overflow then p + 1 else s.ilen.toNat + 1) u ∧
      Memory.readBytes? u.obuf 0 u.olen.toNat = some (gs.flatMap (groupOutput m)) ∧
      u.olen.toNat = (gs.flatMap (groupOutput m)).length ∧ u.err = e ∧ u.errpos.toNat = p ∧
      u.val = s.val ∧ u.ilen = s.ilen ∧ u.ibuf = s.ibuf ∧
      ∀ a, u.olen.toNat ≤ a → Memory.read? u.obuf a = Memory.read? s.obuf a := by
  obtain ⟨t, hexec, hrun⟩ := exec_scanning_runsTo hi hd hns hop hp ha hin
  obtain ⟨herr, herrpos, hobuf, holen, hval, hilen, hibuf⟩ :=
    scanEffect_fields h (encodeByte i) m s
  have hinput : input.length < 2 ^ 29 := hin.toNat_ilen ▸ hin.1.trans_lt Config.ibufCap_lt
  have hpos := scan_pos_le h
  have hout := length_scanOutput_le h m
  have hlen : (scanEffect (encodeByte i) m input s).olen.toNat =
      (gs.flatMap (groupOutput m)).length := by
    rw [holen, BitVec.toNat_ofNat, Nat.mod_eq_of_lt (by omega)]
  rw [scanSteps_of_scan h, ← hin.toNat_ilen] at hrun
  refine ⟨t, _, hexec, hrun, ?_, hlen, herr, ?_, hval, hilen, hibuf, fun a hge => ?_⟩
  · rw [hlen, hobuf]
    exact Memory.readBytes?_writeBytes s.obuf 0 _
  · rw [herrpos, BitVec.toNat_ofNat, Nat.mod_eq_of_lt (by omega)]
  · rw [hlen] at hge
    rw [hobuf, Memory.read?_writeBytes, if_neg (by omega)]

/-- Settles O44: `SEG` is a scanning command whose output for a group is its length byte. -/
theorem segWritesTheGroupLengths : Obligations.SegWritesTheGroupLengths := by
  unfold Obligations.SegWritesTheGroupLengths
  intro s input gs e p hp ha hin h
  have hout : gs.flatMap (groupOutput .lengths) = gs.map fun g => BitVec.ofNat 8 g.length :=
    List.map_eq_flatMap.symm
  have hwrites := exec_scanning_writesOutput (i := .seg) (m := .lengths) rfl rfl nofun rfl hp ha
    hin h
  rwa [hout, List.length_map] at hwrites

end Sys2Proof.Machine

/-! The stream codec (44_stream.md): the words of the accepted groups that `UDECS` and `SDECS` write
(R140, R141), the groups of the words that `UENCS` and `SENCS` write (R144, R145), and the stream
round trip (R143 (a)). -/

namespace Sys2Proof.Machine

/-! ### Stream decoding (R140, R141) -/

/-- `UDECS` and `SDECS` output one word for each accepted group. -/
theorem length_wordsOutput (signed : Bool) (gs : List (List Byte)) :
    (gs.flatMap (groupOutput (.words signed))).length = 8 * gs.length :=
  length_flatMap_of_const gs _ 8 fun _ => length_be64 _

/-- The stream decoding of a signedness. -/
def decodeStreamInstr (signed : Bool) : Instr := if signed = true then .sdecs else .udecs

theorem encodeByte_decodeStreamInstr (signed : Bool) :
    encodeByte (decodeStreamInstr signed) = if signed = true then 0x0B#8 else 0x0A#8 := by
  cases signed <;> rfl

theorem decodeCommand_decodeStreamInstr (signed : Bool) :
    decodeCommand (encodeByte (decodeStreamInstr signed)) = .ok (decodeStreamInstr signed) := by
  cases signed <;> rfl

theorem dispatchOf_decodeStreamInstr (signed : Bool) :
    dispatchOf (decodeStreamInstr signed) = beginScan := by
  cases signed <;> rfl

theorem scanMode_decodeStreamInstr (signed : Bool) :
    scanMode ((encodeByte (decodeStreamInstr signed)).extractLsb' 0 4) =
      some (.words signed) := by
  cases signed <;> rfl

/-- A stream decoding is a scanning command whose output for a group is its value as a word, `SDECS`
through the inverse map. -/
theorem exec_decodeStream_writesWords (signed : Bool) {s : State} {input : List Byte}
    {gs : List (List Byte)} {e : ErrCode} {p : Nat} (hp : s.phase = .idle) (ha : s.agenda = [])
    (hin : InputIs s input) (h : scan input = (gs, e, p)) :
    ∃ t u, exec (decodeStreamInstr signed) s = .next t ∧
      RunsTo t (if e = .overflow then p + 1 else s.ilen.toNat + 1) u ∧
      Memory.readBytes? u.obuf 0 u.olen.toNat = some (gs.flatMap (groupOutput (.words signed))) ∧
      u.olen.toNat = 8 * gs.length ∧ u.err = e ∧ u.errpos.toNat = p ∧
      u.val = s.val ∧ u.ilen = s.ilen ∧ u.ibuf = s.ibuf ∧
      ∀ a, u.olen.toNat ≤ a → Memory.read? u.obuf a = Memory.read? s.obuf a := by
  rw [← length_wordsOutput signed gs]
  exact exec_scanning_writesOutput (m := .words signed)
    (formatOf_of_decodeCommand (decodeCommand_decodeStreamInstr signed))
    (dispatchOf_decodeStreamInstr signed) nofun (scanMode_decodeStreamInstr signed) hp ha hin h

/-- Settles O45: both are stream decodings. -/
theorem udecsAndSdecsWriteTheWords : Obligations.UdecsAndSdecsWriteTheWords := by
  unfold Obligations.UdecsAndSdecsWriteTheWords
  intro s input gs e p hp ha hin h
  exact ⟨exec_decodeStream_writesWords false hp ha hin h,
    exec_decodeStream_writesWords true hp ha hin h⟩

/-! ### What the operation rule of a batch encoding leaves (R144, R145) -/

theorem batchEffect_of_odd {s : State} (h : s.ilen.toNat % 8 ≠ 0) (c : Byte) (signed : Bool)
    (input : List Byte) :
    batchEffect c signed input s = raise .invalidInput 0#32 (initCommand c s) := if_pos h

theorem batchEffect_of_words {s : State} (h : s.ilen.toNat % 8 = 0) (c : Byte) (signed : Bool)
    (input : List Byte) :
    batchEffect c signed input s =
      { withOutput (batchOutput signed input) (initCommand c s) with pos := s.ilen } :=
  if_neg (not_not_intro h)

theorem batchSteps_of_odd {s : State} (h : s.ilen.toNat % 8 ≠ 0) (signed : Bool)
    (input : List Byte) : batchSteps signed input s = 0 := if_pos h

theorem batchSteps_of_words {s : State} (h : s.ilen.toNat % 8 = 0) (signed : Bool)
    (input : List Byte) :
    batchSteps signed input s = s.ilen.toNat / 8 + 1 + (batchOutput signed input).length :=
  if_neg (not_not_intro h)

/-- Whole words or not, the command's inputs stay. -/
theorem batchEffect_frame (c : Byte) (signed : Bool) (input : List Byte) (s : State) :
    let u := batchEffect c signed input s
    u.val = s.val ∧ u.ilen = s.ilen ∧ u.ibuf = s.ibuf := by
  unfold batchEffect
  split_ifs <;> exact ⟨rfl, rfl, rfl⟩

/-- A whole number of words in `IBUF` has an output whose length fits `OLEN`. -/
theorem length_batchOutput_lt {s : State} {input : List Byte} (hin : InputIs s input)
    (h8 : s.ilen.toNat % 8 = 0) (signed : Bool) : (batchOutput signed input).length < 2 ^ 32 := by
  have hcap := Config.ibufCap_lt
  have hilen := hin.1
  have hout := length_batchOutput_le (s.ilen.toNat / 8) signed input
    (by rw [← hin.toNat_ilen]; omega)
  omega

/-- The output is what `OBUF[0..OLEN]` holds, and `OBUF` is unchanged at and beyond `OLEN`. -/
theorem withOutput_written {bs : List Byte} (h : bs.length < 2 ^ 32) (s : State) :
    let u := withOutput bs s
    Memory.readBytes? u.obuf 0 u.olen.toNat = some bs ∧ u.olen.toNat = bs.length ∧
      ∀ a, u.olen.toNat ≤ a → Memory.read? u.obuf a = Memory.read? s.obuf a := by
  have hlen : (BitVec.ofNat 32 bs.length).toNat = bs.length := by
    rw [BitVec.toNat_ofNat, Nat.mod_eq_of_lt h]
  simp only [withOutput, hlen]
  refine ⟨Memory.readBytes?_writeBytes s.obuf 0 bs, trivial, fun a hge => ?_⟩
  rw [Memory.read?_writeBytes, if_neg (by omega)]

/-! ### The run of `UENCS` and `SENCS` -/

/-- From the dispatch line of a batch encoding the core reaches the state of the operation rule,
hidden registers included: at once when the input is no whole number of words, else after its last
word (45_sequencer.md R175, R176). -/
theorem beginBatch_runsTo {c : Byte} {signed : Bool} {s : State} {input : List Byte}
    (hp : s.phase = .idle) (ha : s.agenda = []) (hin : InputIs s input)
    (hop : loadSigned (c.extractLsb' 0 4) = some signed) :
    RunsTo (beginBatch (initCommand c s)) (batchSteps signed input s)
      (batchEffect c signed input s) := by
  obtain ⟨h8, hd⟩ | ⟨h8, hd⟩ := beginBatch_cases (initCommand c s)
  all_goals rw [initCommand_ilen] at h8
  · rw [hd, batchSteps_of_odd h8, batchEffect_of_odd h8]
    exact RunsTo.zero rfl
  · have hwords : 8 * (s.ilen.toNat / 8) = s.ilen.toNat := by omega
    have hrun := batch_run (s.ilen.toNat / 8) input { initCommand c s with phase := .load } signed
      ha rfl hop hin.1 (by rw [hwords, hin.toNat_ilen]) (by rw [hwords]; exact Nat.zero_add _)
      (by rw [hwords]; exact hin.2) rfl rfl (Nat.le_refl 0)
    rw [hd, batchSteps_of_words h8, batchEffect_of_words h8]
    simpa [withOutput, initCommand, hp] using hrun

/-- The batch encoding of a signedness. -/
def batchInstr (signed : Bool) : Instr := if signed = true then .sencs else .uencs

theorem encodeByte_batchInstr (signed : Bool) :
    encodeByte (batchInstr signed) = if signed = true then 0x09#8 else 0x08#8 := by
  cases signed <;> rfl

theorem decodeCommand_batchInstr (signed : Bool) :
    decodeCommand (encodeByte (batchInstr signed)) = .ok (batchInstr signed) := by
  cases signed <;> rfl

theorem dispatchOf_batchInstr (signed : Bool) : dispatchOf (batchInstr signed) = beginBatch := by
  cases signed <;> rfl

theorem loadSigned_batchInstr (signed : Bool) :
    loadSigned ((encodeByte (batchInstr signed)).extractLsb' 0 4) = some signed := by
  cases signed <;> rfl

/-- A batch encoding runs to the state of its operation rule. -/
theorem exec_batch_runsTo (signed : Bool) {s : State} {input : List Byte} (hp : s.phase = .idle)
    (ha : s.agenda = []) (hin : InputIs s input) :
    ∃ t, exec (batchInstr signed) s = .next t ∧
      RunsTo t (batchSteps signed input s)
        (batchEffect (encodeByte (batchInstr signed)) signed input s) := by
  have hi := formatOf_of_decodeCommand (decodeCommand_batchInstr signed)
  refine ⟨_, exec_command_of_idle hi hp, ?_⟩
  rw [dispatchOf_batchInstr]
  exact beginBatch_runsTo hp ha hin (loadSigned_batchInstr signed)

/-- What a batch encoding writes and what it leaves, read off its operation rule. -/
theorem exec_batch_writesStream (signed : Bool) {s : State} {input : List Byte}
    (hp : s.phase = .idle) (ha : s.agenda = []) (hin : InputIs s input) :
    ∃ t u, exec (batchInstr signed) s = .next t ∧
      (s.ilen.toNat % 8 ≠ 0 → RunsTo t 0 u ∧ u.err = .invalidInput ∧ u.errpos = 0#32 ∧
        u.olen = 0#32 ∧ u.obuf = s.obuf) ∧
      (s.ilen.toNat % 8 = 0 →
        RunsTo t (s.ilen.toNat / 8 + 1 + (batchOutput signed input).length) u ∧
        Memory.readBytes? u.obuf 0 u.olen.toNat = some (batchOutput signed input) ∧
        u.olen.toNat = (batchOutput signed input).length ∧ u.err = .ok ∧ u.errpos = 0#32 ∧
        ∀ a, u.olen.toNat ≤ a → Memory.read? u.obuf a = Memory.read? s.obuf a) ∧
      u.val = s.val ∧ u.ilen = s.ilen ∧ u.ibuf = s.ibuf := by
  obtain ⟨t, hexec, hrun⟩ := exec_batch_runsTo signed hp ha hin
  refine ⟨t, _, hexec, fun h8 => ?_, fun h8 => ?_,
    batchEffect_frame (encodeByte (batchInstr signed)) signed input s⟩
  · rw [batchSteps_of_odd h8] at hrun
    refine ⟨hrun, ?_⟩
    rw [batchEffect_of_odd h8]
    exact ⟨rfl, rfl, rfl, rfl⟩
  · rw [batchSteps_of_words h8] at hrun
    refine ⟨hrun, ?_⟩
    obtain ⟨hread, hlen, hrest⟩ :=
      withOutput_written (length_batchOutput_lt hin h8 signed) (initCommand _ s)
    rw [batchEffect_of_words h8]
    exact ⟨hread, hlen, rfl, rfl, hrest⟩

/-- Settles O46: both are batch encodings, `UENCS` of the words and `SENCS` of the mapped words. -/
theorem uencsAndSencsWriteTheStream : Obligations.UencsAndSencsWriteTheStream := by
  unfold Obligations.UencsAndSencsWriteTheStream
  intro s input signed hp ha hin
  cases signed with
  | false => exact exec_batch_writesStream false hp ha hin
  | true => exact exec_batch_writesStream true hp ha hin

/-! ### The stream round trip on sequences (R143 (a)) -/

/-- The words of a whole number of words are its bytes by eights. -/
theorem flatMap_be64_wordsOf (n : Nat) (l : List Byte) (h : l.length = 8 * n) :
    (wordsOf l).flatMap be64 = l := by
  induction n generalizing l with
  | zero =>
    obtain rfl : l = [] := List.eq_nil_of_length_eq_zero h
    rfl
  | succ n ih =>
    match l, h with
    | b0 :: b1 :: b2 :: b3 :: b4 :: b5 :: b6 :: b7 :: rest, h =>
      have hrest : rest.length = 8 * n := by simp only [List.length_cons] at h; omega
      rw [wordsOf, List.flatMap_cons, be64_fromBe64, ih rest hrest]
      rfl

theorem fromWire_toWire (signed : Bool) (v : Word) : fromWire signed (toWire signed v) = v := by
  cases signed with
  | false => rfl
  | true => exact unzz_zz v

/-- When no group is too long and nothing is left over, every group is accepted. -/
theorem scanGroups_of_all_short {gs : List (List Byte)} (h : ∀ g ∈ gs, g.length ≤ 10)
    (base : Nat) : scanGroups [] gs base = (gs, .ok, 0) := by
  induction gs generalizing base with
  | nil => rfl
  | cons g gs ih =>
    obtain ⟨hg, hgs⟩ := List.forall_mem_cons.1 h
    rw [scanGroups_of_short hg, ih hgs]

/-- A scan of encodings one after the other accepts these encodings. -/
theorem scan_flatMap_uenc (vs : List Word) : scan (vs.flatMap uenc) = (vs.map uenc, .ok, 0) := by
  rw [scan, seg_flatMap_uenc]
  exact scanGroups_of_all_short (List.forall_mem_map.2 fun v _ => length_uenc_le v) 0

/-- The output of a batch encoding scans without error into the groups of the wire values. -/
theorem scan_batchOutput (signed : Bool) (input : List Byte) :
    scan (batchOutput signed input) =
      (((wordsOf input).map (toWire signed)).map uenc, .ok, 0) := by
  rw [← scan_flatMap_uenc, List.flatMap_map, batchOutput]

/-- Stream-decoding these groups gives the input words back. -/
theorem wordsOutput_batchGroups (signed : Bool) {n : Nat} {input : List Byte}
    (h : input.length = 8 * n) :
    (((wordsOf input).map (toWire signed)).map uenc).flatMap (groupOutput (.words signed)) =
      input := by
  have hword : ∀ w, groupOutput (.words signed) (uenc (toWire signed w)) = be64 w := fun w => by
    rw [groupOutput, udec_uenc, fromWire_toWire]
  simp only [List.flatMap_map, hword]
  exact flatMap_be64_wordsOf n input h

/-! ### The stream round trip on the block (R143 (a)) -/

/-- A batch encoding of whole words, then waiting, ends idle with the stream as its output. -/
theorem batch_wait_run {signed : Bool} {s : State} {input : List Byte} (hp : s.phase = .idle)
    (ha : s.agenda = [.host (.wrCmd (encodeByte (batchInstr signed))), .host .wait])
    (hin : InputIs s input) (h8 : s.ilen.toNat % 8 = 0) :
    ∃ n u, run n s = .next u ∧ u.phase = .idle ∧ u.agenda = [] ∧ u.err = .ok ∧
      Memory.readBytes? u.obuf 0 u.olen.toNat = some (batchOutput signed input) := by
  obtain ⟨t, u, hexec, -, hwords, -⟩ :=
    exec_batch_writesStream signed (s := { s with agenda := [] }) hp rfl hin
  obtain ⟨hrun, hread, -, herr, -⟩ := hwords h8
  exact ⟨_, _, command_wait_run (decodeCommand_batchInstr signed) ha hexec hrun, hrun.2.1, rfl,
    herr, hread⟩

/-- A stream decoding of well-formed groups, then waiting, ends idle with their words as its
output. -/
theorem decodeStream_wait_run {signed : Bool} {s : State} {input : List Byte}
    {gs : List (List Byte)} (hp : s.phase = .idle)
    (ha : s.agenda = [.host (.wrCmd (encodeByte (decodeStreamInstr signed))), .host .wait])
    (hin : InputIs s input) (h : scan input = (gs, .ok, 0)) :
    ∃ n v, run n s = .next v ∧ v.phase = .idle ∧ v.agenda = [] ∧ v.err = .ok ∧
      Memory.readBytes? v.obuf 0 v.olen.toNat =
        some (gs.flatMap (groupOutput (.words signed))) := by
  obtain ⟨t, v, hexec, hrun, hread, -, herr, -⟩ :=
    exec_decodeStream_writesWords signed (s := { s with agenda := [] }) hp rfl hin h
  exact ⟨_, _, command_wait_run (decodeCommand_decodeStreamInstr signed) ha hexec hrun,
    hrun.2.1, rfl, herr, hread⟩

/-- `COPY` makes the output of an idle block the input of the lines that follow. -/
theorem copy_makes_input {s : State} {out : List Byte} (hp : s.phase = .idle)
    (hout : Memory.readBytes? s.obuf 0 s.olen.toNat = some out)
    (hfits : s.olen.toNat ≤ Config.ibufCap) (rest : List HostAction) :
    ∃ k t, run k (s.withProgram (copyLines out ++ rest)) = .next t ∧ t.phase = .idle ∧
      t.agenda = program rest ∧ InputIs t out := by
  obtain ⟨r, hcopy⟩ := copyLines_run (rest := rest) (s := s.withProgram (copyLines out ++ rest)) hp
    hfits hout rfl
  have hinput : Memory.readBytes? (Memory.writeBytes s.ibuf 0 out) 0 s.olen.toNat = some out := by
    rw [← Memory.readBytes?_length hout]
    exact Memory.readBytes?_writeBytes s.ibuf 0 out
  exact ⟨_, _, hcopy, hp, rfl, hfits, hinput⟩

/-- `COPY`, the stream decoding of the same signedness and waiting, on an idle block whose output is
the stream of a whole number of words, ends idle with these words as its output. -/
theorem copy_decodeStream_wait_run {signed : Bool} {s : State} {n : Nat} {input : List Byte}
    (hp : s.phase = .idle)
    (hout : Memory.readBytes? s.obuf 0 s.olen.toNat = some (batchOutput signed input))
    (hfits : s.olen.toNat ≤ Config.ibufCap) (hwords : input.length = 8 * n) :
    ∃ k v, run k (s.withProgram (copyLines (batchOutput signed input) ++
          [.wrCmd (encodeByte (decodeStreamInstr signed)), .wait])) = .next v ∧
      v.phase = .idle ∧ v.agenda = [] ∧ v.err = .ok ∧
      Memory.readBytes? v.obuf 0 v.olen.toNat = some input := by
  obtain ⟨k, t, hcopy, hidle, hagenda, hin⟩ := copy_makes_input hp hout hfits
    [.wrCmd (encodeByte (decodeStreamInstr signed)), .wait]
  obtain ⟨m, v, hdec, hend⟩ :=
    decodeStream_wait_run hidle hagenda hin (scan_batchOutput signed input)
  rw [wordsOutput_batchGroups signed hwords] at hend
  exact ⟨_, v, (run_add hcopy).trans hdec, hend⟩

/-- Settles O53: the stream of `UENCS` or `SENCS` scans into the groups of the words, which `COPY`
and the stream decoding of the same signedness take back. -/
theorem streamRoundTripOnTheBlock : Obligations.StreamRoundTripOnTheBlock := by
  unfold Obligations.StreamRoundTripOnTheBlock
  intro signed s input hp ha hin h8
  rw [← encodeByte_batchInstr] at ha
  have hwords : input.length = 8 * (s.ilen.toNat / 8) := by
    rw [← hin.toNat_ilen]
    omega
  obtain ⟨n, u, henc, hidle, hagenda, herr, hout⟩ := batch_wait_run hp ha hin h8
  refine ⟨n, u, _, henc, hidle, hagenda, herr, hout, fun hfits => ?_⟩
  obtain ⟨k, v, hdec, hvidle, hvagenda, hverr, hvout⟩ :=
    copy_decodeStream_wait_run hidle hout hfits hwords
  have holen : v.olen = s.ilen :=
    BitVec.eq_of_toNat_eq ((Memory.readBytes?_length hvout).symm.trans hin.toNat_ilen.symm)
  rw [encodeByte_decodeStreamInstr] at hdec
  exact ⟨k, v, hdec, hvidle, hvagenda, hverr, holen, hvout⟩

end Sys2Proof.Machine

/-! The sequencer (45_sequencer.md): what a command start, a scanned byte and each core step do (R160 to
R172), the changes of `PHASE` (R177), that every operation's micro-steps reach its operation rule
(R175, R176), and that the core never sticks and every run ends (R164, R174). -/

namespace Sys2Proof.Machine

/-! ### A command start (R160 to R162) -/

/-- An error of a command start is recorded over the common initialisation, which has `ERRPOS = 0`. -/
theorem raise_initCommand {s : State} (hp : s.phase = .idle) (e : ErrCode) (c : Byte) :
    raise e 0#32 (initCommand c s) = { initCommand c s with err := e } := by
  simp only [raise, initCommand, hp]

theorem beginDecode_initCommand {s : State} (hp : s.phase = .idle) (c : Byte) :
    beginDecode (initCommand c s) =
      if s.ilen = 0#32 then { initCommand c s with err := .invalidInput }
      else { initCommand c s with phase := .scan } := by
  rw [beginDecode, raise_initCommand hp]
  rfl

theorem beginBatch_initCommand {s : State} (hp : s.phase = .idle) (c : Byte) :
    beginBatch (initCommand c s) =
      if s.ilen.toNat % 8 ≠ 0 then { initCommand c s with err := .invalidInput }
      else { initCommand c s with phase := .load } := by
  rw [beginBatch, raise_initCommand hp]
  rfl

/-- Settles O15: a command on an idle core is the common initialisation and its dispatch line. -/
theorem commandStartInitialisesAndDispatches :
    Obligations.CommandStartInitialisesAndDispatches := by
  unfold Obligations.CommandStartInitialisesAndDispatches
  intro s hp start
  have hcmd : ∀ i, formatOf i = .cmd →
      exec i s = .next (dispatchOf i (initCommand (encodeByte i) s)) :=
    fun i hi => exec_command_of_idle hi hp
  refine ⟨hcmd .zze rfl, hcmd .zzd rfl, hcmd .uenc rfl, hcmd .senc rfl,
    (hcmd .udec rfl).trans (congrArg _ (beginDecode_initCommand hp _)),
    (hcmd .sdec rfl).trans (congrArg _ (beginDecode_initCommand hp _)),
    hcmd .seg rfl, hcmd .udecs rfl, hcmd .sdecs rfl,
    (hcmd .uencs rfl).trans (congrArg _ (beginBatch_initCommand hp _)),
    (hcmd .sencs rfl).trans (congrArg _ (beginBatch_initCommand hp _)), fun c hc => ?_⟩
  obtain ⟨e, he⟩ := decodeCommand_of_illegal hc
  rw [writeCmd_of_error he hp, raise_initCommand hp]
  rfl

theorem writeCmd_of_busy {s : State} (hp : s.phase ≠ .idle) (c : Byte) :
    writeCmd c s = .next s := by
  obtain ⟨i, -, h⟩ | h := writeCmd_eq_start c
  all_goals rw [h, startCommand_of_busy hp]

/-- Settles O17: a command and a `CMD` write are command starts, which a busy core ignores. -/
theorem commandWhileBusyIsIgnored : Obligations.CommandWhileBusyIsIgnored := by
  unfold Obligations.CommandWhileBusyIsIgnored
  intro s hp
  refine ⟨fun i hi => ?_, fun c rest ha => ?_⟩
  · rw [exec_of_command hi, startCommand_of_busy hp]
  · rw [step_of_wrCmd ha]
    exact writeCmd_of_busy (by exact hp) c

/-! ### A varint byte in a scan (R165 to R168) -/

section ScannedByte

variable {s : State} {m : ScanMode} (hp : s.phase = .scan) (hm : scanMode s.op = some m)
include hp hm

/-- A full group takes no byte of either class. -/
theorem exec_varintByte_of_full (h10 : s.cnt = 10#4) {i : Instr} (hi : formatOf i = .vb) :
    exec i s = .next (raise .overflow s.pos s) := by
  cases i with
  | vbCont | vbLast => exact (scanByte_eq_next hp hm).2 (.inl ⟨h10, rfl⟩)
  | _ => cases hi

theorem exec_vbCont_of_room (h9 : s.cnt.toNat < 10) (p : BitVec 7) :
    exec (.vbCont p) s = .next (acceptByte p s) :=
  (scanByte_eq_next hp hm).2 (.inr ⟨h9, rfl⟩)

theorem exec_vbLast_of_room {t : State} (h9 : s.cnt.toNat < 10) {p : BitVec 7}
    (hf : finishGroup m (acceptByte p s) = .next t) : exec (.vbLast p) s = .next t :=
  (scanByte_eq_next hp hm).2 (.inr ⟨h9, hf⟩)

end ScannedByte

/-- Settles O21: the class and the mode say how the byte finishes. -/
theorem scannedByteIsAccumulatedAndClosesItsGroup :
    Obligations.ScannedByteIsAccumulatedAndClosesItsGroup := by
  unfold Obligations.ScannedByteIsAccumulatedAndClosesItsGroup
  intro s m p hp hm acc'
  refine ⟨fun h10 => ⟨exec_varintByte_of_full hp hm h10 rfl, exec_varintByte_of_full hp hm h10 rfl⟩,
    fun h9 => ⟨exec_vbCont_of_room hp hm h9 p, ?single, ?lengths, ?words⟩⟩
  case single =>
    rintro signed rfl
    exact exec_vbLast_of_room hp hm h9 rfl
  case lengths =>
    rintro rfl hroom
    have hlen : (s.cnt + 1#4).setWidth 8 = BitVec.ofNat 8 (s.cnt.toNat + 1) := by
      apply BitVec.eq_of_toNat_eq
      simp only [BitVec.toNat_setWidth, toNat_cnt_add_one h9, BitVec.toNat_ofNat]
    rw [← hlen]
    exact exec_vbLast_of_room hp hm h9 (storeOut_of_room hroom)
  case words =>
    rintro signed rfl hroom
    exact exec_vbLast_of_room hp hm h9 (storeOut_of_room hroom)

/-- What a varint byte in any phase does when it answers, before its class says how it finishes. -/
theorem scanByte_cases {f : ScanMode → State → Result State} {p : BitVec 7} {s t : State}
    (h : scanByte f p s = .next t) :
    t = s ∨ (s.cnt = 10#4 ∧ t = raise .overflow s.pos s) ∨
      ∃ m, f m (acceptByte p s) = .next t := by
  by_cases hp : s.phase = .scan
  · cases hm : scanMode s.op with
    | none => simp [scanByte, hp, hm] at h
    | some m =>
      obtain hfull | ⟨-, hf⟩ := (scanByte_eq_next hp hm).1 h
      · exact .inr (.inl hfull)
      · exact .inr (.inr ⟨m, hf⟩)
  · rw [scanByte_of_not_scan hp] at h
    exact .inl (Host.Outcome.next.inj h).symm

/-- The step from `s` to `t` changes the scan's registers and appends `bs` to the output, nothing
else. -/
def ScansAndAppends (bs : List Byte) (s t : State) : Prop :=
  ∃ pos cnt acc, t = { s with
    obuf := Memory.writeBytes s.obuf s.olen.toNat bs
    olen := s.olen + BitVec.ofNat 32 bs.length
    pos := pos, cnt := cnt, acc := acc }

theorem scansAndAppends_nil (s : State) (pos : Len) (cnt : BitVec 4) (acc : Word) :
    ScansAndAppends [] s { s with pos := pos, cnt := cnt, acc := acc } :=
  ⟨pos, cnt, acc, by rw [Memory.writeBytes_nil, List.length_nil, BitVec.add_zero]⟩

/-- Completing a group after its last byte appends at most one group's output. -/
theorem finishGroup_scansAndAppends {m : ScanMode} {p : BitVec 7} {s t : State}
    (h : finishGroup m (acceptByte p s) = .next t) :
    ∃ bs, bs.length ∈ [0, 1, 8] ∧ ScansAndAppends bs s t := by
  obtain ⟨-, rfl⟩ | ⟨-, -, rfl⟩ := finishGroup_eq_next.1 h
  · exact ⟨[], by simp, scansAndAppends_nil s _ _ _⟩
  · exact ⟨_, length_closedOutput m _, _, _, _, rfl⟩

/-- What a varint byte does when it answers: `Overflow`, or it changes the scan's registers and
appends at most one group's output, a continuation byte none. -/
theorem exec_varintByte_cases {i : Instr} {s t : State} (hi : formatOf i = .vb)
    (h : exec i s = .next t) :
    (s.cnt = 10#4 ∧ t = raise .overflow s.pos s) ∨
    ∃ bs, bs.length ∈ [0, 1, 8] ∧ (∀ p, i = .vbCont p → bs = []) ∧ ScansAndAppends bs s t := by
  have hnothing : ∀ pos cnt acc, t = { s with pos := pos, cnt := cnt, acc := acc } →
      ∃ bs, bs.length ∈ [0, 1, 8] ∧ (∀ p, i = .vbCont p → bs = []) ∧ ScansAndAppends bs s t := by
    rintro pos cnt acc rfl
    exact ⟨[], by simp, fun _ _ => rfl, scansAndAppends_nil s pos cnt acc⟩
  cases i with
  | vbCont p =>
    obtain hsame | hfull | ⟨_, hf⟩ := scanByte_cases h
    · exact .inr (hnothing _ _ _ hsame)
    · exact .inl hfull
    · exact .inr (hnothing _ _ _ (Host.Outcome.next.inj hf).symm)
  | vbLast p =>
    obtain hsame | hfull | ⟨_, hf⟩ := scanByte_cases h
    · exact .inr (hnothing _ _ _ hsame)
    · exact .inl hfull
    · obtain ⟨bs, hlen, hstep⟩ := finishGroup_scansAndAppends hf
      exact .inr ⟨bs, hlen, nofun, hstep⟩
  | _ => cases hi

/-- Settles O33: in both cases the fields named are those of the old state. -/
theorem varintByteFrame : Obligations.VarintByteFrame := by
  unfold Obligations.VarintByteFrame
  intro i s t hi hexec
  obtain ⟨h10, rfl⟩ | ⟨bs, hlen, hcont, _, _, _, rfl⟩ := exec_varintByte_cases hi hexec
  · exact ⟨rfl, rfl, rfl, rfl, fun _ => rfl, fun _ _ => ⟨rfl, fun _ => rfl⟩,
      ⟨0, by simp, (BitVec.add_zero _).symm, fun _ _ => rfl⟩, fun hne => absurd h10 hne,
      rfl, rfl, rfl⟩
  · refine ⟨rfl, rfl, rfl, rfl, fun _ => rfl, fun p hp => ?_,
      ⟨bs.length, hlen, rfl, fun a hout => ?_⟩, fun _ => ⟨rfl, rfl, rfl⟩, rfl, rfl, rfl⟩
    · rw [hcont p hp]
      exact ⟨BitVec.add_zero _, fun _ => rfl⟩
    · simp only [Memory.read?_writeBytes]
      rw [if_neg (by omega)]

/-! ### The step of each phase (R164 to R172) -/

/-- Settles O19: the rules of a `CMD` write, of a scanned byte and of a turn of the core. -/
theorem stepRunsTheDecodedInstruction : Obligations.StepRunsTheDecodedInstruction := by
  unfold Obligations.StepRunsTheDecodedInstruction
  refine ⟨fun s c i rest ha hc => ?_, fun s m b ha hp hm hl hcap hb => ?_,
    fun s t rest ha hs => ?_⟩
  · rw [step_of_wrCmd ha, writeCmd_of_ok hc]
  · rw [step_of_nil ha, coreStep_of_scan hp, scanStep_of_read hp hm hl hcap hb]
  · rw [step_of_nil rfl] at hs
    rw [step_of_core ha]
    have hswap := coreStep_withAgenda { s with agenda := [] } rest
    rw [hs] at hswap
    exact hswap

/-- The operations that scan a stream are no single decodes. -/
theorem scanMode_of_stream {op : BitVec 4} (h : op ∈ [0x6#4, 0xA#4, 0xB#4]) :
    ∃ m, scanMode op = some m ∧ ∀ signed, m ≠ .single signed := by
  obtain rfl | rfl | rfl : op = 0x6#4 ∨ op = 0xA#4 ∨ op = 0xB#4 := by simpa using h
  · exact ⟨.lengths, rfl, nofun⟩
  · exact ⟨.words false, rfl, nofun⟩
  · exact ⟨.words true, rfl, nofun⟩

/-- A stream's scan closes with `TruncatedGroup` when a group is open. -/
theorem closeScan_of_stream {m : ScanMode} (hns : ∀ signed, m ≠ .single signed) (s : State) :
    closeScan m s = if s.cnt ≠ 0#4 then raise .truncatedGroup (s.pos - s.cnt.setWidth 32) s
      else { s with phase := .idle } := by
  cases m with
  | single signed => exact absurd rfl (hns signed)
  | lengths | words => rfl

/-- Settles O23: the close of each mode. -/
theorem scanClosesAtTheEndOfInput : Obligations.ScanClosesAtTheEndOfInput := by
  unfold Obligations.ScanClosesAtTheEndOfInput
  intro s ha hp he
  have hclose : ∀ {m}, scanMode s.op = some m → step s = .next (closeScan m s) := fun hm => by
    rw [step_of_nil ha, coreStep_of_scan hp, scanStep_of_end hm he]
  refine ⟨fun hop => ?_, fun hop => ?_, fun hop => ?_⟩
  · exact hclose (m := .single false) (by rw [hop]; rfl)
  · exact hclose (m := .single true) (by rw [hop]; rfl)
  · obtain ⟨m, hm, hns⟩ := scanMode_of_stream hop
    rw [hclose hm, closeScan_of_stream hns]
    rfl

/-- Settles O24: all five operations scan, and a full group stops the scan before the byte is read. -/
theorem fullGroupOverflowsUnread : Obligations.FullGroupOverflowsUnread := by
  unfold Obligations.FullGroupOverflowsUnread
  intro s ha hp hop hl h10
  have hscans : ∀ op ∈ [0x2#4, 0x3#4, 0x6#4, 0xA#4, 0xB#4], (scanMode op).isSome = true := by decide
  obtain ⟨m, hm⟩ := Option.isSome_iff_exists.1 (hscans _ hop)
  rw [step_of_nil ha, coreStep_of_scan hp, scanStep_of_full hm hl h10]
  rfl

/-- Settles O25: `OP` says the signedness, and the word is the one at `POS`. -/
theorem loadFetchesTheNextWord : Obligations.LoadFetchesTheNextWord := by
  unfold Obligations.LoadFetchesTheNextWord
  intro s signed ha hp hop
  have hm : loadSigned s.op = some signed := by
    rw [hop]
    cases signed <;> rfl
  rw [step_of_nil ha, coreStep_of_load hp]
  exact ⟨fun he => loadStep_of_end hm he,
    fun bs hne hcap hbs => loadStep_of_word hm hne (readIbufWord_of_written hcap hbs)⟩

/-- The phase after a group of an encoding. -/
theorem phaseAfterGroup_of_encoding {op : BitVec 4} (h : op ∈ [0x0#4, 0x1#4, 0x8#4, 0x9#4]) :
    phaseAfterGroup op = some (if op = 0x0#4 ∨ op = 0x1#4 then .idle else .load) := by
  revert h
  revert op
  decide

/-- Settles O26: the rules of a continuation byte and of a final byte. -/
theorem emitStoresOneByte : Obligations.EmitStoresOneByte := by
  unfold Obligations.EmitStoresOneByte
  intro s ha hp hop hroom
  have hm := phaseAfterGroup_of_encoding hop
  rw [step_of_nil ha, coreStep_of_emit hp]
  exact ⟨emitStep_of_large hm hroom, emitStep_of_small hm hroom⟩

/-! ### The changes of `PHASE` (R177) -/

theorem closeScan_phase (m : ScanMode) (s : State) : (closeScan m s).phase = .idle := by
  obtain ⟨_, -, h⟩ | ⟨-, -, h⟩ | ⟨-, -, h⟩ := closeScan_cases m s
  all_goals simp [h]

/-- A scan step ends the scan or reads one byte and goes on. -/
theorem scanStep_phase {s t : State} (hp : s.phase = .scan) (h : scanStep s = .next t) :
    (t.phase = .idle ∧ s.pos = s.ilen) ∨
    (t.phase = .idle ∧ t.err = .overflow ∧ s.pos.toNat < s.ilen.toNat) ∨
    (t.phase = .scan ∧ s.pos.toNat < s.ilen.toNat ∧ t.ilen = s.ilen ∧ t.pos = s.pos + 1#32) := by
  obtain ⟨m, -, ⟨he, rfl⟩ | ⟨hl, -, rfl⟩ | ⟨hl, -, -, b, -, ⟨-, rfl⟩ | ⟨-, hns, hf⟩⟩⟩ :=
    scanStep_eq_next hp h
  · exact .inl ⟨closeScan_phase m s, he⟩
  · exact .inr (.inl ⟨rfl, rfl, hl⟩)
  · exact .inr (.inr ⟨hp, hl, rfl, rfl⟩)
  · obtain ⟨-, rfl⟩ := finishGroup_of_stream hns hf
    exact .inr (.inr ⟨hp, hl, rfl, rfl⟩)

theorem emitStep_phase {s t : State} (hp : s.phase = .emit) (h : emitStep s = .next t) :
    (t.phase = .emit ∧ 2 ^ 7 ≤ s.acc.toNat) ∨
    (t.phase = .idle ∧ s.acc.toNat < 2 ^ 7 ∧ s.op ∈ [0x0#4, 0x1#4]) ∨
    (t.phase = .load ∧ s.acc.toNat < 2 ^ 7 ∧ s.op ∈ [0x8#4, 0x9#4]) := by
  obtain ⟨after, hm, -, ⟨hacc, rfl⟩ | ⟨hacc, rfl⟩⟩ := emitStep_eq_next h
  · exact .inl ⟨hp, hacc⟩
  · obtain ⟨rfl, hop⟩ | ⟨rfl, hop⟩ := phaseAfterGroup_eq_some hm
    · exact .inr (.inl ⟨rfl, hacc, hop⟩)
    · exact .inr (.inr ⟨rfl, hacc, hop⟩)

/-- Settles O35: each phase's step, by what it can do. -/
theorem phaseChangesAreTheTables : Obligations.PhaseChangesAreTheTables := by
  unfold Obligations.PhaseChangesAreTheTables
  intro s t ha hs
  rw [step_of_nil ha] at hs
  cases hp : s.phase with
  | idle =>
    rw [coreStep_of_idle hp] at hs
    exact (Host.Outcome.next.inj hs).symm
  | scan =>
    obtain hend | hover | ⟨ht, hl, -, -⟩ := scanStep_phase hp (coreStep_of_scan hp ▸ hs)
    · exact .inr (.inl hend)
    · exact .inr (.inr hover)
    · exact .inl ⟨ht, hl⟩
  | load =>
    obtain ⟨_, -, ⟨he, rfl⟩ | ⟨hne, _, -, rfl⟩⟩ := loadStep_eq_next (coreStep_of_load hp ▸ hs)
    · exact .inr ⟨rfl, he⟩
    · exact .inl ⟨rfl, hne⟩
  | emit => exact emitStep_phase hp (coreStep_of_emit hp ▸ hs)

/-! ### The micro-steps reach the operation rule (R175, R176) -/

/-- Settles O47: both are encodings, which run to their operation rule. -/
theorem encodeStepsReachTheOperationRule : Obligations.EncodeStepsReachTheOperationRule := by
  unfold Obligations.EncodeStepsReachTheOperationRule
  intro s hp ha
  exact ⟨exec_encoding_runsTo (i := .uenc) rfl rfl rfl hp ha,
    exec_encoding_runsTo (i := .senc) rfl rfl rfl hp ha⟩

/-- Settles O48: both are decodings of one group, which run to their operation rule. -/
theorem decodeStepsReachTheOperationRule : Obligations.DecodeStepsReachTheOperationRule := by
  unfold Obligations.DecodeStepsReachTheOperationRule
  intro s input hp ha hin
  exact ⟨exec_decoding_runsTo (i := .udec) rfl rfl rfl hp ha hin,
    exec_decoding_runsTo (i := .sdec) rfl rfl rfl hp ha hin⟩

/-- Settles O49: all three scan a stream and run to the rule of their mode. -/
theorem scanStepsReachTheOperationRule : Obligations.ScanStepsReachTheOperationRule := by
  unfold Obligations.ScanStepsReachTheOperationRule
  intro s input hp ha hin
  exact ⟨exec_scanning_runsTo (i := .seg) (m := .lengths) rfl rfl nofun rfl hp ha hin,
    exec_scanning_runsTo (i := .udecs) (m := .words false) rfl rfl nofun rfl hp ha hin,
    exec_scanning_runsTo (i := .sdecs) (m := .words true) rfl rfl nofun rfl hp ha hin⟩

/-- Settles O50: both are batch encodings, which run to their operation rule. -/
theorem batchStepsReachTheOperationRule : Obligations.BatchStepsReachTheOperationRule := by
  unfold Obligations.BatchStepsReachTheOperationRule
  intro s input hp ha hin
  exact ⟨exec_batch_runsTo false hp ha hin, exec_batch_runsTo true hp ha hin⟩

/-! ### The core has a step (R164) -/

/-- The core answers, or it is refused the read of an input byte that was never written. -/
def AnswersOrRefuses (s : State) (r : Result State) : Prop :=
  (∃ t, r = .next t) ∨
    ∃ a, a < s.ilen.toNat ∧ Memory.read? s.ibuf a = none ∧ r = .refused (.ibufByteNotWritten a)

/-- In a scan there is room for a group's output: it is at most eight bytes for each byte of the input
(20_memory.md R58). -/
theorem ScanInv.room {m : ScanMode} {s : State} (h : ScanInv m s)
    (hilen : s.ilen.toNat ≤ Config.ibufCap) (hl : s.pos.toNat < s.ilen.toNat) :
    s.olen.toNat + 8 ≤ Config.obufCap := by
  have hcap := Config.eight_ibufCap_le_obufCap
  have holen := h.olenLe
  omega

theorem finishGroup_of_room {s : State} (h : s.olen.toNat + 8 ≤ Config.obufCap) (m : ScanMode) :
    ∃ t, finishGroup m s = .next t := by
  cases m with
  | single signed => exact ⟨s, rfl⟩
  | lengths => exact ⟨_, storeOut_of_room (by simp; omega)⟩
  | words signed => exact ⟨_, storeOut_of_room h⟩

/-- A byte that is read in a scan is accumulated or closes its group. -/
theorem ScanInv.answers_of_read {m : ScanMode} {s : State} {b : Byte} (h : ScanInv m s)
    (hp : s.phase = .scan) (hm : scanMode s.op = some m) (hilen : s.ilen.toNat ≤ Config.ibufCap)
    (hl : s.pos.toNat < s.ilen.toNat) (hb : Memory.read? s.ibuf s.pos.toNat = some b)
    (h9 : s.cnt.toNat < 10) : ∃ t, scanStep s = .next t := by
  rw [scanStep_of_read hp hm hl (by omega) hb, decodeVarintByte]
  split
  · exact ⟨_, exec_vbCont_of_room hp hm h9 _⟩
  · obtain ⟨t, ht⟩ := finishGroup_of_room (s := acceptByte (payload b) s) (h.room hilen hl) m
    exact ⟨t, exec_vbLast_of_room hp hm h9 ht⟩

theorem ScanInv.answersOrRefuses {m : ScanMode} {s : State} (h : ScanInv m s)
    (hp : s.phase = .scan) (hm : scanMode s.op = some m) (hilen : s.ilen.toNat ≤ Config.ibufCap)
    (hcnt : s.cnt.toNat ≤ 10) : AnswersOrRefuses s (scanStep s) := by
  have hposLe := h.posLe
  by_cases he : s.pos = s.ilen
  · exact .inl ⟨_, scanStep_of_end hm he⟩
  have hl : s.pos.toNat < s.ilen.toNat :=
    Nat.lt_of_le_of_ne hposLe fun h => he (BitVec.eq_of_toNat_eq h)
  by_cases h10 : s.cnt = 10#4
  · exact .inl ⟨_, scanStep_of_full hm hl h10⟩
  cases hb : Memory.read? s.ibuf s.pos.toNat with
  | none => exact .inr ⟨_, hl, hb, scanStep_of_unwritten hm hl (by omega) h10 hb⟩
  | some b => exact .inl (h.answers_of_read hp hm hilen hl hb (toNat_lt_ten_of_ne h10 hcnt))

/-- Before the end of the input a whole word is left. -/
theorem LoadInv.pos_add_eight_le {s : State} (h : LoadInv s) (hne : s.pos ≠ s.ilen) :
    s.pos.toNat + 8 ≤ s.ilen.toNat := by
  have hposNe : s.pos.toNat ≠ s.ilen.toNat := fun he => hne (BitVec.eq_of_toNat_eq he)
  obtain ⟨hilen8, hpos8, hposLe, -, -, -⟩ := h
  omega

theorem LoadInv.toNat_pos_add_eight {s : State} (h : LoadInv s) (hne : s.pos ≠ s.ilen) :
    (s.pos + 8#32).toNat = s.pos.toNat + 8 := by
  have hword := h.pos_add_eight_le hne
  have hilen := s.ilen.isLt
  rw [BitVec.toNat_add, BitVec.toNat_ofNat]
  omega

theorem LoadInv.answersOrRefuses {s : State} (h : LoadInv s)
    (hm : (loadSigned s.op).isSome = true) (hilen : s.ilen.toNat ≤ Config.ibufCap) :
    AnswersOrRefuses s (loadStep s) := by
  obtain ⟨signed, hm⟩ := Option.isSome_iff_exists.1 hm
  by_cases hne : s.pos = s.ilen
  · exact .inl ⟨_, loadStep_of_end hm hne⟩
  have hword := h.pos_add_eight_le hne
  by_cases hread : ∃ bs, readIbufBytes s s.pos.toNat 8 = .next bs
  · obtain ⟨bs, hbs⟩ := hread
    exact .inl ⟨_, loadStep_of_word hm hne (by rw [readIbufWord, hbs])⟩
  · obtain ⟨a, -, ha, hb, hr⟩ := readIbufBytes_refused (by omega) (not_exists.1 hread)
    exact .inr ⟨a, by omega, hb, by simp only [loadStep, hm, if_neg hne, readIbufWord, hr]⟩

/-- In an encoding there is room for the next byte: a single group has at most ten, a batch at most
ten for each eight bytes of the input (20_memory.md R58). -/
theorem EmitInv.room {after : Phase} {s : State} (h : EmitInv after s)
    (hm : phaseAfterGroup s.op = some after) (hilen : s.ilen.toNat ≤ Config.ibufCap) :
    s.olen.toNat + 1 ≤ Config.obufCap := by
  have hcnt := h.cntLe
  obtain ⟨rfl, -⟩ | ⟨rfl, -⟩ := phaseAfterGroup_eq_some hm
  · obtain ⟨-, hout⟩ := h.single rfl
    have hcap := Config.eighty_le_obufCap
    omega
  · obtain ⟨-, -, hpos, hposLe, hout⟩ := h.batch rfl
    have hcap := Config.eight_ibufCap_le_obufCap
    omega

theorem EmitInv.answers {after : Phase} {s : State} (h : EmitInv after s)
    (hm : phaseAfterGroup s.op = some after) (hilen : s.ilen.toNat ≤ Config.ibufCap) :
    ∃ t, emitStep s = .next t := by
  have hroom := h.room hm hilen
  by_cases hl : lsr64 s.acc 7 = 0#64
  · exact ⟨_, emitStep_of_small hm hroom hl⟩
  · exact ⟨_, emitStep_of_large hm hroom hl⟩

theorem State.Inv.coreStep_answersOrRefuses {s : State} (h : s.Inv) :
    AnswersOrRefuses s (coreStep s) := by
  cases hp : s.phase with
  | idle => exact .inl ⟨_, coreStep_of_idle hp⟩
  | scan =>
    obtain ⟨m, hm, hscan⟩ := (phaseInv_iff_of_scan hp).1 h.phaseInv
    rw [coreStep_of_scan hp]
    exact hscan.answersOrRefuses hp hm h.ilenLe h.cntLe
  | load =>
    obtain ⟨hm, hload⟩ := (phaseInv_iff_of_load hp).1 h.phaseInv
    rw [coreStep_of_load hp]
    exact hload.answersOrRefuses hm h.ilenLe
  | emit =>
    obtain ⟨after, hm, hemit⟩ := (phaseInv_iff_of_emit hp).1 h.phaseInv
    rw [coreStep_of_emit hp]
    exact .inl (hemit.answers hm h.ilenLe)

/-- Settles O40: in each phase the invariant gives what the step needs. -/
theorem coreNeverSticksNorLeavesABuffer : Obligations.CoreNeverSticksNorLeavesABuffer := by
  unfold Obligations.CoreNeverSticksNorLeavesABuffer
  intro s h ha
  rw [step_of_nil ha]
  exact h.coreStep_answersOrRefuses

/-! ### Every run ends (R174) -/

/-- How many steps a batch encoding takes at most from the next `LOAD` step on: eleven for each word
still to come, one to fetch it and ten to emit it, and the closing step. -/
def batchStepsLeft (s : State) : Nat := 11 * ((s.ilen.toNat - s.pos.toNat) / 8) + 1

/-- How many steps the core takes at most until it is idle. -/
def stepsLeft (s : State) : Nat :=
  match s.phase with
  | .idle => 0
  | .scan => s.ilen.toNat - s.pos.toNat + 1
  | .load => batchStepsLeft s
  | .emit => 10 - s.cnt.toNat + if phaseAfterGroup s.op = some .load then batchStepsLeft s else 0

theorem stepsLeft_of_idle {s : State} (h : s.phase = .idle) : stepsLeft s = 0 := by
  simp only [stepsLeft, h]

theorem stepsLeft_of_scan {s : State} (h : s.phase = .scan) :
    stepsLeft s = s.ilen.toNat - s.pos.toNat + 1 := by simp only [stepsLeft, h]

theorem stepsLeft_of_load {s : State} (h : s.phase = .load) :
    stepsLeft s = batchStepsLeft s := by simp only [stepsLeft, h]

theorem stepsLeft_of_emit {s : State} (h : s.phase = .emit) :
    stepsLeft s =
      10 - s.cnt.toNat + if phaseAfterGroup s.op = some .load then batchStepsLeft s else 0 := by
  simp only [stepsLeft, h]

theorem scanStep_stepsLeft {s t : State} (hp : s.phase = .scan) (h : scanStep s = .next t) :
    stepsLeft t < stepsLeft s := by
  rw [stepsLeft_of_scan hp]
  obtain ⟨ht, -⟩ | ⟨ht, -, -⟩ | ⟨ht, hl, hilen, hpos⟩ := scanStep_phase hp h
  · rw [stepsLeft_of_idle ht]
    omega
  · rw [stepsLeft_of_idle ht]
    omega
  · rw [stepsLeft_of_scan ht, hilen, hpos, toNat_add_one hl s.ilen.isLt]
    omega

theorem LoadInv.stepsLeft_lt {s t : State} (h : LoadInv s) (hp : s.phase = .load)
    (hs : loadStep s = .next t) : stepsLeft t < stepsLeft s := by
  rw [stepsLeft_of_load hp]
  obtain ⟨signed, hm, ⟨-, rfl⟩ | ⟨hne, w, -, rfl⟩⟩ := loadStep_eq_next hs
  · exact Nat.succ_pos _
  · have hword := h.pos_add_eight_le hne
    have hpos := h.toNat_pos_add_eight hne
    rw [stepsLeft_of_emit rfl, if_pos (phaseAfterGroup_of_loadSigned hm)]
    simp only [batchStepsLeft, hpos]
    omega

theorem EmitInv.stepsLeft_lt {after : Phase} {s t : State} (h : EmitInv after s)
    (hp : s.phase = .emit) (hs : emitStep s = .next t) : stepsLeft t < stepsLeft s := by
  have hcnt := h.cntLe
  rw [stepsLeft_of_emit hp]
  obtain ⟨after', hm, -, ⟨hacc, rfl⟩ | ⟨-, rfl⟩⟩ := emitStep_eq_next hs
  · have hcnt8 := h.cnt_le_eight hacc
    rw [stepsLeft_of_emit (by exact hp)]
    simp only [toNat_cnt_add_one (show s.cnt.toNat < 10 by omega), batchStepsLeft]
    omega
  · obtain ⟨rfl, -⟩ | ⟨rfl, -⟩ := phaseAfterGroup_eq_some hm
    · rw [stepsLeft_of_idle rfl]
      omega
    · rw [stepsLeft_of_load rfl, if_pos hm]
      simp only [batchStepsLeft]
      omega

/-- Every step of a busy core brings the end of the run nearer. -/
theorem State.Inv.stepsLeft_lt {s t : State} (h : s.Inv) (hbusy : s.phase ≠ .idle)
    (hs : coreStep s = .next t) : stepsLeft t < stepsLeft s := by
  cases hp : s.phase with
  | idle => exact absurd hp hbusy
  | scan => exact scanStep_stepsLeft hp (coreStep_of_scan hp ▸ hs)
  | load =>
    obtain ⟨-, hload⟩ := (phaseInv_iff_of_load hp).1 h.phaseInv
    exact hload.stepsLeft_lt hp (coreStep_of_load hp ▸ hs)
  | emit =>
    obtain ⟨_, -, hemit⟩ := (phaseInv_iff_of_emit hp).1 h.phaseInv
    exact hemit.stepsLeft_lt hp (coreStep_of_emit hp ▸ hs)

theorem InputIs.coreStep {s t : State} {input : List Byte} (h : InputIs s input)
    (hs : coreStep s = .next t) : InputIs t input := by
  obtain ⟨_, _, hstep⟩ := coreStep_readsAndAppends hs
  unfold InputIs
  rw [hstep.ilen, hstep.ibuf]
  exact h

/-- Every byte of a written input has a value. -/
theorem InputIs.read?_ne_none {s : State} {input : List Byte} (h : InputIs s input) {a : Nat}
    (ha : a < s.ilen.toNat) : Memory.read? s.ibuf a ≠ none := by
  obtain ⟨hlen, hread⟩ := Memory.readBytes?_eq_some.1 h.2
  have hbyte := hread a ha
  rw [Nat.zero_add] at hbyte
  rw [hbyte, Ne, List.getElem?_eq_none_iff]
  omega

/-- Over a written input the core is never refused. -/
theorem State.Inv.coreStep_answers {s : State} {input : List Byte} (h : s.Inv)
    (hin : InputIs s input) : ∃ t, Machine.coreStep s = .next t := by
  obtain hnext | ⟨a, ha, hb, -⟩ := h.coreStep_answersOrRefuses
  · exact hnext
  · exact absurd hb (hin.read?_ne_none ha)

/-- The run ends within the steps left. -/
theorem State.Inv.exists_runsTo {s : State} {input : List Byte} (h : s.Inv) (ha : s.agenda = [])
    (hin : InputIs s input) {k : Nat} (hk : stepsLeft s ≤ k) :
    ∃ n u, n ≤ k ∧ RunsTo s n u := by
  induction k generalizing s with
  | zero =>
    by_cases hp : s.phase = .idle
    · exact ⟨0, s, Nat.le_refl 0, .zero hp⟩
    · obtain ⟨t, hs⟩ := h.coreStep_answers hin
      exact absurd (h.stepsLeft_lt hp hs) (by omega)
  | succ k ih =>
    by_cases hp : s.phase = .idle
    · exact ⟨0, s, Nat.zero_le _, .zero hp⟩
    · obtain ⟨t, hs⟩ := h.coreStep_answers hin
      have hdrop := h.stepsLeft_lt hp hs
      obtain ⟨n, u, hn, hrun⟩ := ih (coreStep_keeps_inv h hs) ((coreStep_agenda hs).trans ha)
        (hin.coreStep hs) (by omega)
      exact ⟨n + 1, u, Nat.succ_le_succ hn, .step hp (by rw [step_of_nil ha, hs]) hrun⟩

/-- The bound of R174: the first figure covers a scan, the second a batch encoding, of which the word
in `ACC` has left the input, and the third a single encoding. -/
theorem State.Inv.stepsLeft_le {s : State} (h : s.Inv) :
    stepsLeft s ≤
      max (max (s.ilen.toNat + 1) (s.ilen.toNat / 8 + 1 + 10 * (s.ilen.toNat / 8))) 10 := by
  cases hp : s.phase with
  | idle => rw [stepsLeft_of_idle hp]; omega
  | scan => rw [stepsLeft_of_scan hp]; omega
  | load => rw [stepsLeft_of_load hp, batchStepsLeft]; omega
  | emit =>
    obtain ⟨after, hm, hemit⟩ := (phaseInv_iff_of_emit hp).1 h.phaseInv
    rw [stepsLeft_of_emit hp, hm]
    obtain ⟨rfl, -⟩ | ⟨rfl, -⟩ := phaseAfterGroup_eq_some hm
    · rw [if_neg (by simp)]
      omega
    · obtain ⟨-, -, hpos, hposLe, -⟩ := hemit.batch rfl
      rw [if_pos rfl, batchStepsLeft]
      omega

/-- Settles O41: each step of a busy core leaves fewer steps, and the steps left are within the
bound. -/
theorem everyRunEnds : Obligations.EveryRunEnds := by
  unfold Obligations.EveryRunEnds
  intro s input h ha hin
  exact h.exists_runsTo ha hin h.stepsLeft_le

end Sys2Proof.Machine

/-! The errors (60_exceptions.md): what a core step that records one has done (R196, R198), and how
long the outcome of a command stays (R197). -/

namespace Sys2Proof.Machine

/-! ### Recording an error (R196, R198) -/

/-- The operations whose scan is no single decode. -/
theorem op_of_stream {op : BitVec 4} {m : ScanMode} (hm : scanMode op = some m)
    (hns : ∀ signed, m ≠ .single signed) : op ∈ [0x6#4, 0xA#4, 0xB#4] := by
  obtain ⟨-, rfl⟩ | ⟨-, rfl⟩ | ⟨rfl, -⟩ | ⟨rfl, -⟩ | ⟨rfl, -⟩ := scanMode_eq_some hm
  · exact absurd rfl (hns false)
  · exact absurd rfl (hns true)
  all_goals decide

/-- The errors a scan step from `s` can raise, and the position it records with each. -/
def ScanRaises (s : State) (e : ErrCode) (p : Len) : Prop :=
  (e = .overflow ∧ p = s.pos ∧ s.cnt = 10#4) ∨
  (e = .truncatedGroup ∧ p = s.pos - s.cnt.setWidth 32 ∧ s.pos = s.ilen ∧
    s.op ∈ [0x6#4, 0xA#4, 0xB#4])

/-- The closing step leaves `ERR` alone, or an open group of a stream makes it raise. -/
theorem closeScan_err {s : State} {m : ScanMode} (hm : scanMode s.op = some m)
    (he : s.pos = s.ilen) :
    (closeScan m s).err = s.err ∨ ∃ e p, closeScan m s = raise e p s ∧ ScanRaises s e p := by
  obtain ⟨_, -, hc⟩ | ⟨hns, -, hc⟩ | ⟨-, -, hc⟩ := closeScan_cases m s
  · exact .inl (by rw [hc])
  · exact .inr ⟨_, _, hc, .inr ⟨rfl, rfl, he, op_of_stream hm hns⟩⟩
  · exact .inl (by rw [hc])

theorem scanStep_err {s t : State} (hp : s.phase = .scan) (h : scanStep s = .next t) :
    t.err = s.err ∨ ∃ e p, t = raise e p s ∧ ScanRaises s e p := by
  obtain ⟨m, hm, ⟨he, rfl⟩ | ⟨-, h10, rfl⟩ | ⟨-, -, -, _, -, ⟨-, rfl⟩ | ⟨-, hns, hf⟩⟩⟩ :=
    scanStep_eq_next hp h
  · exact closeScan_err hm he
  · exact .inr ⟨_, _, rfl, .inl ⟨rfl, rfl, h10⟩⟩
  · exact .inl rfl
  · obtain ⟨-, rfl⟩ := finishGroup_of_stream hns hf
    exact .inl rfl

/-- A step of the core leaves `ERR` alone, or it is a scan step that raises. -/
theorem coreStep_err {s t : State} (h : coreStep s = .next t) :
    t.err = s.err ∨ (s.phase = .scan ∧ ∃ e p, t = raise e p s ∧ ScanRaises s e p) := by
  cases hp : s.phase with
  | idle =>
    rw [coreStep_of_idle hp] at h
    cases h
    exact .inl rfl
  | load =>
    obtain ⟨_, -, ⟨-, rfl⟩ | ⟨-, _, -, rfl⟩⟩ := loadStep_eq_next (coreStep_of_load hp ▸ h)
    all_goals exact .inl rfl
  | emit =>
    obtain ⟨_, -, -, ⟨-, rfl⟩ | ⟨-, rfl⟩⟩ := emitStep_eq_next (coreStep_of_emit hp ▸ h)
    all_goals exact .inl rfl
  | scan =>
    obtain hsame | hraise := scanStep_err hp (coreStep_of_scan hp ▸ h)
    · exact .inl hsame
    · exact .inr ⟨rfl, hraise⟩

/-- Settles O36: a step that changes `ERR` is a scan step that raises. -/
theorem coreErrorsArePrecise : Obligations.CoreErrorsArePrecise := by
  unfold Obligations.CoreErrorsArePrecise
  intro s t ha hok hs herr
  rw [step_of_nil ha] at hs
  obtain hsame | ⟨hp, e, p, rfl, hcause⟩ := coreStep_err hs
  · exact absurd (hsame.trans hok) herr
  · exact ⟨rfl, hp, hcause⟩

/-! ### The outcome of an idle core (R197) -/

/-- A step of an idle core that is neither a `CMD` write nor a reset takes an event and makes at most
the host's writes. -/
theorem step_of_idle {s t : State} (hp : s.phase = .idle) (hs : step s = .next t)
    (hcmd : ∀ c rest, s.agenda ≠ .host (.wrCmd c) :: rest)
    (hreset : ∀ rest, s.agenda ≠ .reset :: rest) :
    ∃ rest, HostWrites { s with agenda := rest } t := by
  have hpop : ∀ rest, (.next { s with agenda := rest } : Result State) = .next t →
      ∃ rest, HostWrites { s with agenda := rest } t := fun rest h =>
    ⟨rest, Host.Outcome.next.inj h ▸ hostWrites_of_record _ _ _⟩
  cases hagenda : s.agenda with
  | nil =>
    rw [step_of_nil hagenda, coreStep_of_idle hp] at hs
    exact hpop s.agenda hs
  | cons ev rest =>
    cases ev with
    | core =>
      rw [step_of_core hagenda, coreStep_of_idle (by exact hp)] at hs
      exact hpop rest hs
    | reset => exact absurd hagenda (hreset rest)
    | host a =>
      by_cases hw : a = .wait
      · subst hw
        rw [step_of_wait_idle hagenda hp] at hs
        exact hpop rest hs
      · rw [step_of_host hagenda hw] at hs
        obtain ⟨c, rfl, -⟩ | hwrites := hostAct_of_idle (by exact hp) hs
        · exact absurd hagenda (hcmd c rest)
        · exact ⟨rest, hwrites⟩

/-- Settles O37: the host's writes to an idle block leave the outcome alone. -/
theorem outcomeStaysUntilTheNextStart : Obligations.OutcomeStaysUntilTheNextStart := by
  unfold Obligations.OutcomeStaysUntilTheNextStart
  intro s t hp hs hcmd hreset
  obtain ⟨_, _, _, _, _, _, rfl, -, -⟩ := step_of_idle hp hs hcmd hreset
  exact ⟨rfl, rfl, rfl, rfl, hp, rfl⟩

end Sys2Proof.Machine


/-! Reset (70_reset_and_hazards.md R220) and the one place where a varint byte acts (20_memory.md R65):
outside a scan it is data. -/

namespace Sys2Proof.Machine

/-! ### Reset (R220) -/

/-- Nothing of the old state but the outside world's fields enters the block after reset. -/
theorem applyReset_sameBlock (s : State) : SameBlock (applyReset s) State.reset := by
  unfold SameBlock applyReset
  rfl

/-- Settles O13: a reset event's step is `applyReset` of the state whose event is taken, whatever
`PHASE` holds. -/
theorem resetEventAbandonsTheOperation : Obligations.ResetEventAbandonsTheOperation := by
  unfold Obligations.ResetEventAbandonsTheOperation
  intro s rest ha
  exact ⟨_, step_of_reset ha, applyReset_sameBlock _, applyReset_agenda _, applyReset_readings _⟩

/-! ### A varint byte outside a scan (log entry 3) -/

theorem exec_varintByte_of_not_scan {i : Instr} {s : State} (hi : formatOf i = .vb)
    (hp : s.phase ≠ .scan) : exec i s = .next s := by
  cases i with
  | vbCont | vbLast => exact scanByte_of_not_scan hp
  | _ => cases hi

/-- Settles O22: both classes of byte are one `scanByte`, which acts only in `SCAN`. -/
theorem varintByteOutsideScanDoesNothing : Obligations.VarintByteOutsideScanDoesNothing := by
  unfold Obligations.VarintByteOutsideScanDoesNothing
  intro s p hp
  exact ⟨exec_varintByte_of_not_scan rfl hp, exec_varintByte_of_not_scan rfl hp⟩

end Sys2Proof.Machine
